-- ==== Sys2Proof/Word.lean ====
section
/-! DEFINITION. The 32-bit word every port, register and memory of the block is made of (00_scope.md R10, 20_memory.md
R62: nothing is byte-addressed, no part of a word is ever read or written). -/

namespace Sys2Proof

/-- `W32`: one 32-bit word, bit 31 the most significant (R10). -/
abbrev W32 := BitVec 32

end Sys2Proof
end

