-- ==== Sys2Proof/Machine/Binary32.lean ====
section
/-! DEFINITION. IEEE 754 binary32 words (00_scope.md R8, R10): their fields, the exact value of a finite word, the ordered
comparison, and the one rounding every arithmetic result goes through (roundTiesToEven, subnormals honoured). -/

namespace Sys2Proof.Machine.Binary32

/-- Bit 31, the sign (R10). -/
def sign (a : W32) : Bool := a.getLsbD 31

/-- Bits 30:0, the word without its sign, as a number. -/
def magBits (a : W32) : Nat := (a.extractLsb' 0 31).toNat

/-- Bits 30:23, the biased exponent (R10). -/
def expField (a : W32) : Nat := magBits a / 2 ^ 23

/-- Bits 22:0, the fraction (R10). -/
def fracField (a : W32) : Nat := magBits a % 2 ^ 23

/-- `isfinite(a)`: the exponent field is not all ones (R8). -/
def isFinite (a : W32) : Bool := expField a != 255

/-- A NaN: exponent all ones, fraction not zero. -/
def isNaN (a : W32) : Bool := expField a == 255 && fracField a != 0

/-- An infinity of either sign: exponent all ones, fraction zero. -/
def isInf (a : W32) : Bool := expField a == 255 && fracField a == 0

/-- The unit 2^-149 times 2 to this number is one unit in the last place of a word with these magnitude bits. -/
def ulpExp (m : Nat) : Nat := m / 2 ^ 23 - 1

/-- The magnitude that finite magnitude bits stand for, in units of 2^-149, exact: the significand (with its hidden bit when
the number is normal) times 2 to `ulpExp`. -/
def unitsOf (m : Nat) : Nat :=
  if m / 2 ^ 23 = 0 then m % 2 ^ 23 else (2 ^ 23 + m % 2 ^ 23) * 2 ^ ulpExp m

/-- The magnitude of a finite word in units of 2^-149. -/
def units (a : W32) : Nat := unitsOf (magBits a)

/-- The signed value of a finite word in units of 2^-149. -/
def sunits (a : W32) : Int := if sign a then -(units a : Int) else units a

/-- The value of a finite word, a rational number. -/
def value (a : W32) : Rat := (sunits a : Rat) / 2 ^ 149

/-- One unit in the last place of a finite word, a rational number. -/
def ulp (a : W32) : Rat := (2 : Rat) ^ ulpExp (magBits a) / 2 ^ 149

/-- A word from a sign and its 31 magnitude bits. -/
def ofSignMag (s : Bool) (m : Nat) : W32 := BitVec.ofBool s ++ BitVec.ofNat 31 m

/-- Zero of the given sign. -/
def zero (s : Bool) : W32 := ofSignMag s 0

/-- The magnitude bits of an infinity. -/
def infBits : Nat := 0x7F800000

/-- Infinity of the given sign. -/
def inf (s : Bool) : W32 := ofSignMag s infBits

/-- `n / 2^d` rounded to the nearest integer, ties to even. -/
def roundShift (n d : Nat) : Nat :=
  let q := n / 2 ^ d
  let r := n % 2 ^ d
  if 2 ^ d < 2 * r ∨ (2 * r = 2 ^ d ∧ q % 2 = 1) then q + 1 else q

/-- The magnitude bits of the number `n * 2^-(149 + k)` rounded to binary32, ties to even (R8): the last place kept is the
larger of 2^-149 and the place 23 below the leading bit; a significand that rounds up to 2^24 carries into the exponent, and
what exceeds the largest finite number is an infinity. -/
def roundBits (n k : Nat) : Nat :=
  let d := max (n.log2 - 23) k
  min ((d - k) * 2 ^ 23 + roundShift n d) infBits

/-- The word nearest to the number `± n * 2^-(149 + k)`. -/
def roundWord (s : Bool) (n k : Nat) : W32 := ofSignMag s (roundBits n k)

/-- A key that orders the words of numbers as their values, both zeros alike. -/
def key (a : W32) : Int := if sign a then -(magBits a : Int) else magBits a

/-- `fgt(a, b)`: ordered greater-than, false when either operand is a NaN (R8). -/
def fgt (a b : W32) : Bool := !isNaN a && !isNaN b && decide (key b < key a)

/-- A quiet NaN from its sign and its 22 payload bits (R8: "some quiet NaN"). -/
def quietNaN (d : BitVec 23) : W32 := d.extractLsb' 22 1 ++ (0x1FF : BitVec 9) ++ d.extractLsb' 0 22

end Sys2Proof.Machine.Binary32
end

