-- ==== Sys2Proof/Machine/Log10.lean ====
section
/-! DEFINITION. The base-10 logarithm of the record FP (00_scope.md R8) as a type: `Flog10` is a function on words together
with the three properties the spec names, and nothing else may be assumed of it. The type is inhabited: `floorLog10`, the
largest word whose value is at most the real logarithm, has them, so asking for them is not contradictory. That function is
no part of the model, which takes its logarithm from the free value `Config.flog10`. -/

namespace Sys2Proof.Machine.Binary32

/-- A finite word with a value above zero: the operands on which R8 says anything of `flog10`. -/
def PosFinite (a : W32) : Prop := isFinite a = true ∧ 0 < value a

/-- The number of words from the most negative finite one up to zero, zero not counted. -/
def maxMag : Nat := infBits - 1

/-- The finite words in the order of their values, numbered from the most negative one; index `maxMag` is +0.0. -/
def nthFinite (j : Nat) : W32 := if j < maxMag then ofSignMag true (maxMag - j) else ofSignMag false (j - maxMag)

/-- `10 ^ (n / K) ≤ v`, said without roots: `10 ^ n ≤ v ^ K`. -/
def tenPowLe (K : Nat) (n : Int) (v : Rat) : Bool := (10 : Rat) ^ n ≤ v ^ K

/-- The index of the largest finite word whose value is at most the real base-10 logarithm of a positive word. -/
def floorIdx (a : W32) : Nat :=
  Nat.findGreatest (fun j => tenPowLe (2 ^ 149) (sunits (nthFinite j)) (value a) = true) (2 * maxMag)

/-- The largest finite word whose value is at most the real base-10 logarithm of a positive word. -/
def floorLog10 (a : W32) : W32 := nthFinite (floorIdx a)

theorem magBits_ofSignMag (s : Bool) (m : Nat) (h : m < 2 ^ 31) : magBits (ofSignMag s m) = m := by
  have hs : (BitVec.ofBool s).toNat < 2 := (BitVec.ofBool s).isLt
  simp only [magBits, ofSignMag, BitVec.extractLsb'_toNat, BitVec.toNat_append, Nat.shiftLeft_eq, Nat.shiftRight_zero,
    BitVec.toNat_ofNat]
  rw [Nat.mod_eq_of_lt h, Nat.mul_comm, ← Nat.two_pow_add_eq_or_of_lt h]
  omega

theorem sign_ofSignMag (s : Bool) (m : Nat) : sign (ofSignMag s m) = s := by
  unfold sign ofSignMag; rw [BitVec.getLsbD_append]; cases s <;> rfl

theorem unitsOf_succ (m : Nat) : unitsOf (m + 1) = unitsOf m + 2 ^ ulpExp m := by
  unfold unitsOf ulpExp
  rcases Nat.lt_or_ge (m % 2 ^ 23 + 1) (2 ^ 23) with h | h
  · have hd : (m + 1) / 2 ^ 23 = m / 2 ^ 23 := by omega
    have hm : (m + 1) % 2 ^ 23 = m % 2 ^ 23 + 1 := by omega
    rw [hd, hm]
    split
    · rename_i h0; rw [h0]; rfl
    · ring
  · have hd : (m + 1) / 2 ^ 23 = m / 2 ^ 23 + 1 := by omega
    have hm : (m + 1) % 2 ^ 23 = 0 := by omega
    have hf : m % 2 ^ 23 = 2 ^ 23 - 1 := by omega
    rw [hd, hm, hf, if_neg (by omega)]
    split
    · rename_i h0; rw [h0]; rfl
    · rename_i h0
      obtain ⟨e, he⟩ : ∃ e, m / 2 ^ 23 = e + 1 := ⟨m / 2 ^ 23 - 1, by omega⟩
      rw [he]; simp only [Nat.add_sub_cancel, pow_succ]; ring_nf
      

theorem maxMag_lt : maxMag < 2 ^ 31 := by decide

theorem sunits_nthFinite (j : Nat) (h : j ≤ 2 * maxMag) :
    sunits (nthFinite j) = if j < maxMag then -(unitsOf (maxMag - j) : Int) else unitsOf (j - maxMag) := by
  have := maxMag_lt
  unfold nthFinite sunits units
  split
  · rw [sign_ofSignMag, magBits_ofSignMag _ _ (by omega)]; rfl
  · rw [sign_ofSignMag, magBits_ofSignMag _ _ (by omega)]; rfl

theorem unitsOf_zero : unitsOf 0 = 0 := by decide

theorem ulpExp_mono {m n : Nat} (h : m ≤ n) : ulpExp m ≤ ulpExp n :=
  Nat.sub_le_sub_right (Nat.div_le_div_right h) 1

theorem magBits_nthFinite (j : Nat) (h : j ≤ 2 * maxMag) :
    magBits (nthFinite j) = if j < maxMag then maxMag - j else j - maxMag := by
  have := maxMag_lt
  unfold nthFinite
  split <;> rw [magBits_ofSignMag _ _ (by omega)]

theorem sunits_next (j : Nat) (h : j < 2 * maxMag) :
    sunits (nthFinite j) < sunits (nthFinite (j + 1)) ∧
      sunits (nthFinite (j + 1)) ≤ sunits (nthFinite j) + 2 ^ ulpExp (magBits (nthFinite j)) := by
  rw [sunits_nthFinite j (by omega), sunits_nthFinite (j + 1) (by omega), magBits_nthFinite j (by omega)]
  rcases Nat.lt_trichotomy (j + 1) maxMag with hlt | heq | hgt
  · obtain ⟨m, hm⟩ : ∃ m, maxMag - j = m + 1 := ⟨maxMag - j - 1, by omega⟩
    have hm' : maxMag - (j + 1) = m := by omega
    rw [if_pos hlt, if_pos (by omega), if_pos (by omega), hm, hm', unitsOf_succ]
    have h1 : (2 : Int) ^ ulpExp m ≤ 2 ^ ulpExp (m + 1) :=
      pow_le_pow_right₀ (by norm_num) (ulpExp_mono (Nat.le_succ m))
    have h2 : (0 : Int) < 2 ^ ulpExp m := by positivity
    push_cast; constructor <;> linarith
  · have hm : maxMag - j = 1 := by omega
    have hm' : j + 1 - maxMag = 0 := by omega
    rw [if_pos (by omega), if_neg (by omega), if_pos (by omega), hm, hm']
    decide
  · rcases Nat.lt_or_ge j maxMag with h' | h'
    · omega
    obtain ⟨m, hm⟩ : ∃ m, j - maxMag = m := ⟨_, rfl⟩
    have hm' : j + 1 - maxMag = m + 1 := by omega
    rw [if_neg (by omega), if_neg (by omega), if_neg (by omega), hm, hm', unitsOf_succ]
    have h2 : (0 : Int) < 2 ^ ulpExp m := by positivity
    push_cast; constructor <;> linarith

theorem sunits_strictMono {i j : Nat} (hij : i < j) (hj : j ≤ 2 * maxMag) :
    sunits (nthFinite i) < sunits (nthFinite j) := by
  induction j with
  | zero => omega
  | succ j ih =>
    have h := (sunits_next j (by omega)).1
    rcases Nat.lt_or_ge i j with h' | h'
    · exact (ih h' (by omega)).trans h
    · have : i = j := by omega
      rw [this]; exact h

theorem tenPowLe_iff (K : Nat) (hK : 0 < K) (n : Int) (v : Rat) (hv : 0 < v) :
    tenPowLe K n v = true ↔ (n : ℝ) / K ≤ Real.logb 10 v := by
  have hv' : (0 : ℝ) < (v : ℝ) := by exact_mod_cast hv
  have hK' : (0 : ℝ) < (K : ℝ) := by exact_mod_cast hK
  unfold tenPowLe
  rw [decide_eq_true_iff]
  rw [div_le_iff₀ hK', mul_comm (Real.logb 10 (v : ℝ)) (K : ℝ), ← Real.logb_pow,
    Real.le_logb_iff_rpow_le (by norm_num) (pow_pos hv' K), Real.rpow_intCast]
  rw [← Rat.cast_le (K := ℝ)]
  push_cast
  rfl

theorem value_eq (a : W32) : ((value a : Rat) : ℝ) = (sunits a : ℝ) / ((2 ^ 149 : Nat) : ℝ) := by
  unfold value; push_cast; norm_num

theorem isFinite_nthFinite (j : Nat) (h : j ≤ 2 * maxMag) : isFinite (nthFinite j) = true := by
  have h1 : magBits (nthFinite j) ≤ maxMag := by
    rw [magBits_nthFinite j h]; split <;> omega
  have h2 : maxMag < 255 * 2 ^ 23 := by decide
  unfold isFinite expField
  simp only [bne_iff_ne, ne_eq]
  omega

theorem floorIdx_le (a : W32) : floorIdx a ≤ 2 * maxMag := Nat.findGreatest_le _

theorem below_iff (a : W32) (ha : 0 < value a) (j : Nat) :
    tenPowLe (2 ^ 149) (sunits (nthFinite j)) (value a) = true ↔ ((value (nthFinite j) : Rat) : ℝ) ≤ Real.logb 10 (value a) := by
  rw [value_eq, tenPowLe_iff _ (by positivity) _ _ ha]

/-- A positive finite word lies between 10^-45 and 10^39, so its logarithm is far inside the range of the words. -/
theorem logb_bounds (a : W32) (ha : PosFinite a) :
    ((value (nthFinite 0) : Rat) : ℝ) ≤ Real.logb 10 (value a) ∧
      Real.logb 10 (value a) < ((value (nthFinite (2 * maxMag)) : Rat) : ℝ) := by
  have hpos : (0 : ℝ) < (value a : Rat) := by exact_mod_cast ha.2
  have hs : sunits a = (units a : Int) := by
    have h := ha.2
    unfold value sunits at h
    unfold sunits
    split at h
    · exfalso
      have : ((-(units a : Int) : Int) : Rat) / 2 ^ 149 ≤ 0 := by
        apply div_nonpos_of_nonpos_of_nonneg _ (by positivity)
        push_cast; simp
      linarith
    · rename_i hsg; rw [if_neg hsg]
  have hu : units a < 2 ^ 128 * 2 ^ 149 := by
    have hm : magBits a < 2 ^ 31 := BitVec.isLt _
    unfold units unitsOf ulpExp
    split
    · have : magBits a % 2 ^ 23 < 2 ^ 23 := Nat.mod_lt _ (by decide)
      exact this.trans (by decide)
    · have hf := ha.1
      unfold isFinite expField at hf
      simp only [bne_iff_ne, ne_eq] at hf
      have h1 : magBits a / 2 ^ 23 - 1 ≤ 253 := by omega
      have h2 : 2 ^ 23 + magBits a % 2 ^ 23 < 2 ^ 24 := by omega
      calc (2 ^ 23 + magBits a % 2 ^ 23) * 2 ^ (magBits a / 2 ^ 23 - 1)
          < 2 ^ 24 * 2 ^ (magBits a / 2 ^ 23 - 1) := Nat.mul_lt_mul_of_pos_right h2 (by positivity)
        _ ≤ 2 ^ 24 * 2 ^ 253 := Nat.mul_le_mul_left _ (Nat.pow_le_pow_right (by decide) h1)
        _ = 2 ^ 128 * 2 ^ 149 := by rw [← pow_add, ← pow_add]
  have hu0 : 1 ≤ units a := by
    rcases Nat.eq_zero_or_pos (units a) with h | h
    · have h2 := ha.2; unfold value at h2; rw [hs, h] at h2; simp at h2
    · exact h
  have hv : ((value a : Rat) : ℝ) = (units a : ℝ) / 2 ^ 149 := by
    unfold value; rw [hs]; push_cast; rfl
  have hlo : sunits (nthFinite 0) = -(2 ^ 24 - 1) * 2 ^ 253 := by decide
  have hhi : sunits (nthFinite (2 * maxMag)) = (2 ^ 24 - 1) * 2 ^ 253 := by decide
  constructor
  · have h1 : ((value (nthFinite 0) : Rat) : ℝ) ≤ -149 := by
      unfold value; rw [hlo]; push_cast; norm_num
    refine h1.trans ?_
    rw [Real.le_logb_iff_rpow_le (by norm_num) hpos, hv]
    have h2 : ((10 : ℝ) ^ (-149 : ℝ)) ≤ 1 / 2 ^ 149 := by
      rw [Real.rpow_neg (by norm_num), ← one_div]
      apply one_div_le_one_div_of_le (by positivity)
      have : ((10 : ℝ) ^ (149 : ℝ)) = 10 ^ (149 : ℕ) := by rw [← Real.rpow_natCast]; norm_num
      rw [this]
      exact pow_le_pow_left₀ (by norm_num) (by norm_num) _
    refine h2.trans ?_
    apply div_le_div_of_nonneg_right _ (by positivity)
    exact_mod_cast hu0
  · have h1 : (128 : ℝ) < ((value (nthFinite (2 * maxMag)) : Rat) : ℝ) := by
      unfold value; rw [hhi]; push_cast; norm_num
    refine lt_of_lt_of_le ?_ h1.le
    rw [Real.logb_lt_iff_lt_rpow (by norm_num) hpos, hv]
    have h2 : ((10 : ℝ) ^ (128 : ℝ)) = 10 ^ (128 : ℕ) := by rw [← Real.rpow_natCast]; norm_num
    rw [h2, div_lt_iff₀ (by positivity)]
    have h3 : (units a : ℝ) < 2 ^ 128 * 2 ^ 149 := by exact_mod_cast hu
    refine h3.trans (mul_lt_mul_of_pos_right ?_ (by positivity))
    exact pow_lt_pow_left₀ (by norm_num) (by norm_num) (by norm_num)

theorem floorIdx_spec (a : W32) (ha : PosFinite a) :
    ((value (nthFinite (floorIdx a)) : Rat) : ℝ) ≤ Real.logb 10 (value a) := by
  rw [← below_iff a ha.2]
  unfold floorIdx
  exact @Nat.findGreatest_spec 0 (fun j => tenPowLe (2 ^ 149) (sunits (nthFinite j)) (value a) = true) _ (2 * maxMag)
    (Nat.zero_le _) ((below_iff a ha.2 0).mpr (logb_bounds a ha).1)

theorem floorIdx_next (a : W32) (ha : PosFinite a) (j : Nat) (h : floorIdx a < j) (hj : j ≤ 2 * maxMag) :
    Real.logb 10 (value a) < ((value (nthFinite j) : Rat) : ℝ) := by
  by_contra hc
  have hp := (below_iff a ha.2 j).mpr (not_lt.mp hc)
  unfold floorIdx at h
  exact @Nat.findGreatest_is_greatest j (fun j => tenPowLe (2 ^ 149) (sunits (nthFinite j)) (value a) = true) _ (2 * maxMag) h hj hp

theorem floorIdx_lt (a : W32) (ha : PosFinite a) : floorIdx a < 2 * maxMag := by
  rcases Nat.lt_or_ge (floorIdx a) (2 * maxMag) with h | h
  · exact h
  · have he : floorIdx a = 2 * maxMag := le_antisymm (floorIdx_le a) h
    have h1 := floorIdx_spec a ha
    rw [he] at h1
    exact absurd (logb_bounds a ha).2 (not_lt.mpr h1)

theorem floorLog10_eq (a : W32) : floorLog10 a = nthFinite (floorIdx a) := rfl

theorem floorLog10_finite (a : W32) : isFinite (floorLog10 a) = true := isFinite_nthFinite _ (floorIdx_le a)

theorem floorLog10_within (a : W32) (ha : PosFinite a) :
    |((value (floorLog10 a) : Rat) : ℝ) - Real.logb 10 (value a)| ≤ (ulp (floorLog10 a) : Rat) := by
  have h1 := floorIdx_spec a ha
  have h2 := floorIdx_next a ha (floorIdx a + 1) (Nat.lt_succ_self _) (floorIdx_lt a ha)
  have h3 := (sunits_next (floorIdx a) (floorIdx_lt a ha)).2
  rw [floorLog10_eq, abs_le]
  have h4 : ((value (nthFinite (floorIdx a + 1)) : Rat) : ℝ) ≤
      ((value (nthFinite (floorIdx a)) : Rat) : ℝ) + (ulp (nthFinite (floorIdx a)) : Rat) := by
    have : value (nthFinite (floorIdx a + 1)) ≤ value (nthFinite (floorIdx a)) + ulp (nthFinite (floorIdx a)) := by
      unfold value ulp
      rw [← add_div]
      apply div_le_div_of_nonneg_right _ (by positivity)
      exact_mod_cast h3
    exact_mod_cast this
  have h5 : (0 : ℝ) ≤ ((ulp (nthFinite (floorIdx a)) : Rat) : ℝ) := by
    have : (0 : Rat) ≤ ulp (nthFinite (floorIdx a)) := by unfold ulp; positivity
    exact_mod_cast this
  constructor <;> linarith

theorem value_mono {i j : Nat} (hij : i ≤ j) (hj : j ≤ 2 * maxMag) : value (nthFinite i) ≤ value (nthFinite j) := by
  rcases Nat.lt_or_eq_of_le hij with h | h
  · unfold value
    apply div_le_div_of_nonneg_right _ (by positivity)
    exact_mod_cast (sunits_strictMono h hj).le
  · rw [h]

theorem floorLog10_mono (a b : W32) (ha : PosFinite a) (hb : PosFinite b) (h : value a ≤ value b) :
    value (floorLog10 a) ≤ value (floorLog10 b) := by
  rw [floorLog10_eq, floorLog10_eq]
  refine value_mono ?_ (floorIdx_le b)
  by_contra hc
  have h1 := floorIdx_next b hb (floorIdx a) (not_le.mp hc) (floorIdx_le a)
  have h2 := floorIdx_spec a ha
  have h3 : Real.logb 10 (value a) ≤ Real.logb 10 (value b) := by
    apply Real.logb_le_logb_of_le (by norm_num)
    · exact_mod_cast ha.2
    · exact_mod_cast h
  linarith

theorem floorLog10_one : floorLog10 0x3F800000 = 0x00000000 := by
  have hv : value 0x3F800000 = 1 := by
    have : sunits 0x3F800000 = 2 ^ 149 := by decide
    unfold value; rw [this]; norm_num
  have ha : PosFinite 0x3F800000 := ⟨by decide, by rw [hv]; norm_num⟩
  have hl : Real.logb 10 ((value 0x3F800000 : Rat) : ℝ) = 0 := by rw [hv]; simp
  have hz : value (nthFinite maxMag) = 0 := by
    have : sunits (nthFinite maxMag) = 0 := by decide
    unfold value; rw [this]; norm_num
  have hi : floorIdx 0x3F800000 = maxMag := by
    have h1 := floorIdx_spec _ ha
    rw [hl] at h1
    rcases Nat.lt_trichotomy (floorIdx 0x3F800000) maxMag with h | h | h
    · have h2 := floorIdx_next _ ha maxMag h (by omega)
      rw [hl, hz] at h2
      simp at h2
    · exact h
    · have h2 := sunits_strictMono h (floorIdx_le _)
      have h3 : value (nthFinite maxMag) < value (nthFinite (floorIdx 0x3F800000)) := by
        unfold value
        apply div_lt_div_of_pos_right _ (by positivity)
        exact_mod_cast h2
      rw [hz] at h3
      have h4 : (0 : ℝ) < ((value (nthFinite (floorIdx 0x3F800000)) : Rat) : ℝ) := by exact_mod_cast h3
      linarith
  rw [floorLog10_eq, hi]; decide

/-- `flog10` of the record FP: a function on words with the three named properties of R8, of which a proof may use these and
no other. (The defaults show that such a function exists.) -/
structure Flog10 where
  /-- `flog10(a)`. -/
  fn : W32 → W32 := floorLog10
  /-- "`flog10(0x3F800000) = 0x00000000` (log of 1.0 is +0.0)". -/
  one : fn 0x3F800000 = 0x00000000 := by exact floorLog10_one
  /-- "for finite positive `a` the result is finite". -/
  finite : ∀ a, PosFinite a → isFinite (fn a) = true := by exact fun a _ => floorLog10_finite a
  /-- "and within 1 unit in the last place of the real `log10(a)`". -/
  within : ∀ a, PosFinite a → |((value (fn a) : Rat) : ℝ) - Real.logb 10 (value a)| ≤ (ulp (fn a) : Rat) := by
    exact floorLog10_within
  /-- "`flog10` is monotone non-decreasing on finite positive operands". -/
  mono : ∀ a b, PosFinite a → PosFinite b → value a ≤ value b → value (fn a) ≤ value (fn b) := by
    exact floorLog10_mono
  deriving Inhabited

end Sys2Proof.Machine.Binary32
end

