-- ==== Sys2Proof/Syntax.lean ====
section
/-! DEFINITION. The names of the block: its channels, its ports and its thirteen commands (spec/opcode_table.json, one
constructor of `Instr` per row). A command's operand words are not part of the syntax: they are separate words of the
port's stream that the sequencer takes one by one (30_encoding.md R91, R100); a constructor holds the header's fields. -/

namespace Sys2Proof

/-- The two channels; index 0 is left, index 1 is right (00_scope.md R6). -/
inductive Chan where
  | left
  | right
  deriving DecidableEq, Repr, Inhabited

/-- The two command ports, A in the audio clock domain and B in the analysis clock domain (30_encoding.md R90). -/
inductive Port where
  | a
  | b
  deriving DecidableEq, Repr, Inhabited

/-- Whose step comes next (00_scope.md R12, 60_exceptions.md R280): one of the two port sequencers, one of the four
synchronisers of 42_block_fifo.md R174, or the host at the reset input (70_reset_and_hazards.md R300), with the strap
`cfg_blklen` it holds when it releases `rst`. -/
inductive Turn where
  | port (p : Port)
  | syncW (c : Chan)
  | syncR (c : Chan)
  | reset (strap : BitVec 16)
  deriving DecidableEq, Repr, Inhabited

/-- The thirteen opcodes of 30_encoding.md R94, by name. -/
inductive Opcode where
  | nop | rdcsr | wrcsr
  | bqSetc | bqByp | bqCutupd | bqProc
  | afPushs | afAvail | afPull | mfAvail | mfPull | fgStep
  deriving DecidableEq, Repr

/-- A command as its header word gives it: the opcode and the header fields it uses (30_encoding.md R92, R94). A field may
hold a value outside its legal set (R96): such a term is ill-formed, and its meaning is the refusal `E_FIELD` (log 16). -/
inductive Instr where
  | nop
  | rdcsr (idx : BitVec 8)
  | wrcsr (idx : BitVec 8)
  | bqSetc (chm slot : BitVec 4)
  | bqByp (chm slot : BitVec 4) (v : BitVec 1)
  | bqCutupd (chm stg slope : BitVec 4)
  | bqProc (ch : BitVec 4) (n : BitVec 16)
  | afPushs (ch : BitVec 4) (n : BitVec 16)
  | afAvail (ch : BitVec 4)
  | afPull (ch : BitVec 4)
  | mfAvail (ch : BitVec 4)
  | mfPull (ch : BitVec 4)
  | fgStep (ch : BitVec 4)
  deriving DecidableEq, Repr

end Sys2Proof
end

