-- ==== Sys2Proof/Config.lean ====
section
/-! DEFINITION. What an instance of the block fixes (00_scope.md R6, R7): the document's constants, the parameters it leaves
open as a record of plain data, and the free values: constants with no body, of which nothing can be computed. -/

namespace Sys2Proof

/-- `CAP`: slots of every ring (R6). -/
def cap : Nat := 30

/-- `NCH`: channels (R6). -/
def nch : Nat := 2

/-- `NSLOT`: section slots per channel (R6). -/
def nslot : Nat := 9

/-- The parameters the document leaves open (R7), one record per instance: the FFT order `P`, `BLKMAX`, the window table `WIN`
and the factor `MAG_SCALE`. `N` and `NBINS` follow from `P`; the twiddle table follows from `P` too (43_fft_magnitude.md
R214); `BLKLEN` is latched state. -/
structure Params where
  p : Nat
  blkMax : Nat
  win : List W32
  magScale : W32
  deriving DecidableEq, Repr

/-- `N = 2^P`, the FFT size and the length of the sliding buffer (R7). -/
def Params.n (c : Params) : Nat := 2 ^ c.p

/-- `NBINS = N/2`, the length of a magnitude vector (R7, 90_conflicts.md C5). -/
def Params.nbins (c : Params) : Nat := c.n / 2

/-- The constraints of R7 on an instance. -/
def Params.valid (c : Params) : Bool :=
  1 ≤ c.p && c.p ≤ 16 && 1 ≤ c.blkMax && c.blkMax ≤ c.n && c.blkMax ≤ 65535 &&
  c.win.length == c.n && c.win.all Machine.Binary32.isFinite &&
  Machine.Binary32.isFinite c.magScale && Machine.Binary32.fgt c.magScale 0

/-- `TC8`, the small configuration the spec's test vectors use (R9). -/
def Params.tc8 : Params := { p := 3, blkMax := 4, win := List.replicate 8 0x3F800000, magScale := 0x3E800000 }

/-- `FLOOR_RESET`, -48.0 dB (R7). -/
def floorReset : W32 := 0xC2400000

/-- The operations of the record FP that can give a NaN (R8). -/
inductive FpOp where
  | add | sub | mul | sqrt
  deriving DecidableEq, Repr

/-- FREE VALUE (log 7): sign and payload of the quiet NaN an operation gives on these operands; "which one (sign and payload)
is left open and a model takes it as a draw", and "the record depends on its operands alone" (R8). -/
opaque Config.nanDraw : FpOp → W32 → W32 → BitVec 23

/-- FREE VALUE (log 8): the base-10 logarithm, of which only the properties named in R8 are known. -/
opaque Config.flog10 : Machine.Binary32.Flog10

/-- Weak fairness of the synchronisers in an infinite run with these turns: each "steps infinitely often" (42_block_fifo.md
R174). -/
def FairTurns (turns : Nat → Turn) : Prop :=
  ∀ (n : Nat) (c : Chan), (∃ m, n ≤ m ∧ turns m = .syncW c) ∧ ∃ m, n ≤ m ∧ turns m = .syncR c

/-- The six agents one after another; it only shows that a fair schedule exists. -/
def roundRobin (n : Nat) : Turn :=
  match n % 6 with
  | 0 => .port .a
  | 1 => .port .b
  | 2 => .syncW .left
  | 3 => .syncW .right
  | 4 => .syncR .left
  | _ => .syncR .right

theorem roundRobin_fair : FairTurns roundRobin := by
  have at_ (n k : Nat) (h : k < 6) : (6 * n + k) % 6 = k := by omega
  rintro n (_ | _)
  · exact ⟨⟨6 * n + 2, by omega, by simp [roundRobin, at_]⟩, ⟨6 * n + 4, by omega, by simp [roundRobin, at_]⟩⟩
  · exact ⟨⟨6 * n + 3, by omega, by simp [roundRobin, at_]⟩, ⟨6 * n + 5, by omega, by simp [roundRobin, at_]⟩⟩

/-- An order of the agents' steps: for each number of steps taken before, whose step comes next. Of it only weak fairness is
known (42_block_fifo.md R174, 20_memory.md R75 item 5; log 22). -/
structure Schedule where
  turn : Nat → Turn := roundRobin
  fair : FairTurns turn := by exact roundRobin_fair
  deriving Inhabited

/-- FREE VALUE (log 9): whose step comes next where the state does not say it; "which agent steps next is not determined"
(R12). -/
opaque Config.schedule : Schedule

end Sys2Proof
end

