-- ==== Sys2Proof/Machine/Fp.lean ====
section
/-! DEFINITION. The numerics record FP (00_scope.md R8): sum, difference, product and square root of binary32 words, each the
exact result rounded once, ties to even, with the zero signs, infinities and invalid operations of IEEE 754. A NaN result is
some quiet NaN: the free value `Config.nanDraw` says which (log 7). -/

namespace Sys2Proof.Machine

open Binary32

/-- The NaN an operation answers with. -/
def nanResult (op : FpOp) (a b : W32) : W32 := quietNaN (Config.nanDraw op a b)

/-- The sign bit inverted. -/
def fneg (a : W32) : W32 := a ^^^ 0x80000000

/-- The sum of two words, or none where it is a NaN: infinities first, then the exact sum of the two values in units of 2^-149,
rounded once. An exact zero sum is -0.0 only if both operands are negative. -/
def addNum (a b : W32) : Option W32 :=
  if isNaN a || isNaN b then none
  else if isInf a then (if isInf b && sign a != sign b then none else some a)
  else if isInf b then some b
  else
    let v := sunits a + sunits b
    if v = 0 then some (zero (sign a && sign b)) else some (roundWord (decide (v < 0)) v.natAbs 0)

/-- The product of two words, or none where it is a NaN (an operand is one, or zero times infinity). -/
def mulNum (a b : W32) : Option W32 :=
  let s := sign a != sign b
  if isNaN a || isNaN b then none
  else if isInf a || isInf b then (if units a = 0 || units b = 0 then none else some (inf s))
  else if units a * units b = 0 then some (zero s)
  else some (roundWord s (units a * units b) 149)

/-- The integer square root of `n`, one binary digit at a time: with `k` digits still to come, `r` holds those found. -/
def isqrtLoop (n : Nat) : Nat → Nat → Nat
  | 0, r => r
  | k + 1, r => isqrtLoop n k (if (r + 2 ^ k) * (r + 2 ^ k) ≤ n then r + 2 ^ k else r)

/-- The integer square root of a number below 2^(2k). -/
def isqrt (k n : Nat) : Nat := isqrtLoop n k 0

/-- The square root of a word, or none where it is a NaN (a NaN or a negative number; the root of -0.0 is -0.0). The exact
root is held with a sticky bit below an integer of more than 70 bits, and rounded once. -/
def sqrtNum (a : W32) : Option W32 :=
  if isNaN a then none
  else if magBits a = 0 then some a
  else if sign a then none
  else if isInf a then some a
  else
    let n := units a * 2 ^ 149
    let r := isqrt 214 n
    some (roundWord false (2 * r + if r * r = n then 0 else 1) 1)

/-- `fadd(a, b)` (R8). -/
def fadd (a b : W32) : W32 := (addNum a b).getD (nanResult .add a b)

/-- `fsub(a, b)` (R8): the sum of `a` and `b` with its sign inverted. -/
def fsub (a b : W32) : W32 := (addNum a (fneg b)).getD (nanResult .sub a b)

/-- `fmul(a, b)` (R8). -/
def fmul (a b : W32) : W32 := (mulNum a b).getD (nanResult .mul a b)

/-- `fsqrt(a)` (R8). -/
def fsqrt (a : W32) : W32 := (sqrtNum a).getD (nanResult .sqrt a 0)

/-- `flog10(a)` (R8): the free value; its value at 1.0, which R8 names, is written out so that it can be computed. -/
def flog10 (a : W32) : W32 := if a = 0x3F800000 then 0x00000000 else Config.flog10.fn a

end Sys2Proof.Machine
end

