-- ==== Sys2Proof/Decode.lean ====
section
/-! DEFINITION. Header words (30_encoding.md R92, R94, R95, R96, R102): the decoder, total on every 32-bit word and rejecting
by name, the encoder after it, the operand count, the legal values of the header fields, and the ports of an opcode. -/

namespace Sys2Proof

/-- The value of the `OPC` field, bits 31:24 (R94). -/
def Opcode.code : Opcode → BitVec 8
  | .nop => 0x00
  | .rdcsr => 0x01
  | .wrcsr => 0x02
  | .bqSetc => 0x10
  | .bqByp => 0x11
  | .bqCutupd => 0x12
  | .bqProc => 0x13
  | .afPushs => 0x20
  | .afAvail => 0x30
  | .afPull => 0x31
  | .mfAvail => 0x38
  | .mfPull => 0x39
  | .fgStep => 0x40

/-- The header bits that must be zero (R96). -/
def Opcode.mbz : Opcode → W32
  | .nop => 0x00FFFFFF
  | .rdcsr | .wrcsr => 0x00FFFF00
  | .bqSetc => 0x0000FFFF
  | .bqByp => 0x0000FFFE
  | .bqCutupd => 0x0000FFF0
  | .bqProc | .afPushs => 0x000F0000
  | .afAvail | .afPull | .mfAvail | .mfPull | .fgStep => 0x000FFFFF

/-- The ports an opcode exists on (R94, 60_exceptions.md R278); on the other port it is an illegal opcode. -/
def Opcode.onPort : Opcode → Port → Bool
  | .nop, _ | .rdcsr, _ | .wrcsr, _ => true
  | .bqSetc, p | .bqByp, p | .bqCutupd, p | .bqProc, p | .afPushs, p => p == .a
  | .afAvail, p | .afPull, p | .mfAvail, p | .mfPull, p | .fgStep, p => p == .b

/-- The opcode map read from bits to names; every value not listed is illegal on both ports (R94). -/
def Opcode.ofCode (c : BitVec 8) : Option Opcode :=
  match c.toNat with
  | 0x00 => some .nop
  | 0x01 => some .rdcsr
  | 0x02 => some .wrcsr
  | 0x10 => some .bqSetc
  | 0x11 => some .bqByp
  | 0x12 => some .bqCutupd
  | 0x13 => some .bqProc
  | 0x20 => some .afPushs
  | 0x30 => some .afAvail
  | 0x31 => some .afPull
  | 0x38 => some .mfAvail
  | 0x39 => some .mfPull
  | 0x40 => some .fgStep
  | _ => none

/-- `OPC`, bits 31:24 of a header (R92). -/
def Header.opc (w : W32) : BitVec 8 := w.extractLsb' 24 8

/-- `CH` or `CHM`, bits 23:20 of a header (R92). -/
def Header.ch (w : W32) : BitVec 4 := w.extractLsb' 20 4

/-- `SLOT` or `STG`, bits 19:16 of a header (R92). -/
def Header.slot (w : W32) : BitVec 4 := w.extractLsb' 16 4

/-- `IMM`, bits 15:0 of a header (R92). -/
def Header.imm (w : W32) : BitVec 16 := w.extractLsb' 0 16

/-- `IMM[7:0]`, a CSR index (R92). -/
def Header.idx (w : W32) : BitVec 8 := w.extractLsb' 0 8

/-- `IMM[3:0]`, a slope code (R92). -/
def Header.slope (w : W32) : BitVec 4 := w.extractLsb' 0 4

/-- `IMM[0]`, a bypass value (R92). -/
def Header.bit (w : W32) : BitVec 1 := w.extractLsb' 0 1

/-- The command an opcode makes of the fields of its header (R94, column "fields used"). -/
def Instr.ofHeader (op : Opcode) (w : W32) : Instr :=
  match op with
  | .nop => .nop
  | .rdcsr => .rdcsr (Header.idx w)
  | .wrcsr => .wrcsr (Header.idx w)
  | .bqSetc => .bqSetc (Header.ch w) (Header.slot w)
  | .bqByp => .bqByp (Header.ch w) (Header.slot w) (Header.bit w)
  | .bqCutupd => .bqCutupd (Header.ch w) (Header.slot w) (Header.slope w)
  | .bqProc => .bqProc (Header.ch w) (Header.imm w)
  | .afPushs => .afPushs (Header.ch w) (Header.imm w)
  | .afAvail => .afAvail (Header.ch w)
  | .afPull => .afPull (Header.ch w)
  | .mfAvail => .mfAvail (Header.ch w)
  | .mfPull => .mfPull (Header.ch w)
  | .fgStep => .fgStep (Header.ch w)

/-- Why a word is no command: its `OPC` is in no row of the map (R102 "Illegal"), or its opcode is known and a must-be-zero
bit is set (R102 "Malformed"). -/
inductive DecodeError where
  | illegalOpcode
  | mustBeZero (op : Opcode)
  deriving DecidableEq, Repr

/-- What a decoded header word is: a command, or a word rejected by name. -/
inductive Decoded where
  | command (i : Instr)
  | rejected (e : DecodeError)
  deriving DecidableEq, Repr

/-- The decoder, total on every word (R102: every header word has exactly one outcome). It does not know the port: an opcode
of the other port is refused by the command's meaning, before its fields are looked at (R107). -/
def decode (w : W32) : Decoded :=
  match Opcode.ofCode (Header.opc w) with
  | none => .rejected .illegalOpcode
  | some op => if w &&& op.mbz = 0 then .command (Instr.ofHeader op w) else .rejected (.mustBeZero op)

/-- The opcode of a command. -/
def Instr.opcode : Instr → Opcode
  | .nop => .nop
  | .rdcsr _ => .rdcsr
  | .wrcsr _ => .wrcsr
  | .bqSetc _ _ => .bqSetc
  | .bqByp _ _ _ => .bqByp
  | .bqCutupd _ _ _ => .bqCutupd
  | .bqProc _ _ => .bqProc
  | .afPushs _ _ => .afPushs
  | .afAvail _ => .afAvail
  | .afPull _ => .afPull
  | .mfAvail _ => .mfAvail
  | .mfPull _ => .mfPull
  | .fgStep _ => .fgStep

/-- A header word from its four fields (R92). -/
def Header.make (opc : BitVec 8) (ch slot : BitVec 4) (imm : BitVec 16) : W32 := opc ++ ch ++ slot ++ imm

/-- The encoder: the header word of a command, unused fields zero (R92, R94, R96). -/
def encode (i : Instr) : W32 :=
  let h := Header.make i.opcode.code
  match i with
  | .nop => h 0 0 0
  | .rdcsr idx | .wrcsr idx => h 0 0 (idx.setWidth 16)
  | .bqSetc chm slot => h chm slot 0
  | .bqByp chm slot v => h chm slot (v.setWidth 16)
  | .bqCutupd chm stg slope => h chm stg (slope.setWidth 16)
  | .bqProc ch n | .afPushs ch n => h ch 0 n
  | .afAvail ch | .afPull ch | .mfAvail ch | .mfPull ch | .fgStep ch => h ch 0 0

/-- Legal values of `CH`: 0 and 1 (R92, R96). -/
def legalCh (ch : BitVec 4) : Bool := ch.toNat ≤ 1

/-- Legal values of `CHM`: 1, 2 and 3 (R92, R96). -/
def legalChm (chm : BitVec 4) : Bool := 1 ≤ chm.toNat && chm.toNat ≤ 3

/-- Legal values of `SLOT`: 0 to 8 (R92, R96). -/
def legalSlot (slot : BitVec 4) : Bool := slot.toNat ≤ 8

/-- Legal values of `STG`: 0 (low-cut) and 2 (high-cut) (R92, R96). -/
def legalStg (stg : BitVec 4) : Bool := stg.toNat == 0 || stg.toNat == 2

/-- Every field the command uses is in its legal set (R96, last column). -/
def Instr.fieldsLegal : Instr → Bool
  | .nop | .rdcsr _ | .wrcsr _ => true
  | .bqSetc chm slot | .bqByp chm slot _ => legalChm chm && legalSlot slot
  | .bqCutupd chm stg _ => legalChm chm && legalStg stg
  | .bqProc ch _ | .afPushs ch _ => legalCh ch
  | .afAvail ch | .afPull ch | .mfAvail ch | .mfPull ch | .fgStep ch => legalCh ch

/-- Sections per slope code: `k + 1` for 0..3; a code that is no slope acts as the lowest order, 1
(41_biquad_cascade.md R141). -/
def nsec (slope : BitVec 4) : Nat := if slope.toNat ≤ 3 then slope.toNat + 1 else 1

/-- `nopnd`: how many operand words follow a header that passed its checks (R95). -/
def Instr.nopnd : Instr → Nat
  | .nop | .rdcsr _ | .bqByp _ _ _ => 0
  | .afAvail _ | .afPull _ | .mfAvail _ | .mfPull _ | .fgStep _ => 0
  | .wrcsr _ => 1
  | .bqSetc _ _ => 5
  | .bqCutupd _ _ slope => 5 * nsec slope
  | .bqProc _ n | .afPushs _ n => n.toNat

/-- The instruction the decoder reads from an opcode-table word: the header is the word itself, bit 0 its least significant
bit; a later word's bits are operand words, which the decoder does not look at (R91, R95). -/
def decodeTableWord (_nbits w : Nat) : Option Instr :=
  match decode (BitVec.ofNat 32 w) with
  | .command i => some i
  | .rejected _ => none

end Sys2Proof
end

