-- ==== Sys2Proof/Machine/State.lean ====
section
/-! DEFINITION. The state of the block as plain data (10_state.md R20 to R37), the reasons a step can stop, and the state right
after reset (R50). -/

namespace Sys2Proof.Machine

/-- One thing for each of the two channels. -/
structure PerChan (α : Type) where
  left : α
  right : α
  deriving DecidableEq, Repr

/-- The five coefficient registers of a section slot (R21); a0 is 1 by construction and not stored. -/
structure Coefs where
  b0 : W32
  b1 : W32
  b2 : W32
  a1 : W32
  a2 : W32
  deriving DecidableEq, Repr

/-- One section slot `x[c][s]`: coefficients (R21), bypass flag (R23), coefficients-valid flag (R24) and the four history
registers of a Direct Form I section (R25). -/
structure Section where
  coef : Coefs
  x1 : W32
  x2 : W32
  y1 : W32
  y2 : W32
  byp : Bool
  cv : Bool
  deriving DecidableEq, Repr

/-- The nine section slots of a channel in signal order: 0..3 low-cut, 4 peak, 5..8 high-cut (R22). -/
abbrev Slots := Vector Section 9

/-- A ring index, counted modulo `2*CAP = 60` (R28, R31). -/
abbrev RingIdx := Fin 60

/-- An internal memory (20_memory.md R60): (word index, word) pairs with strictly rising indices, none holding the word an
unlisted index reads as. The smallest unit of the block is the 32-bit word (R62), so a cell holds a word (log 1). -/
abbrev Memory := List (Nat × W32)

/-- Where a sequencer is in its word stream (R35): `hdr`, the next word is a header; `opnd`, it is an operand. -/
inductive Phase where
  | hdr
  | opnd
  deriving DecidableEq, Repr

/-- The command sequencer of a port (R35). `outs` is the list `out` of the pseudocode of `BQ.PROC` (41_biquad_cascade.md R146):
the output samples computed so far, which the response carries at the end (log 13). -/
structure Seq where
  phase : Phase
  hdr : W32
  left : Nat
  buf : List W32
  pushed : Nat
  dropped : Nat
  outs : List W32
  deriving DecidableEq, Repr

/-- A port: the words the host has offered and the port has not taken (`input`, first the next), every response word the port
has produced (`output`, in order) (30_encoding.md R90), the sequencer, and the sticky error flags (R37). -/
structure PortState where
  input : List W32
  output : List W32
  seq : Seq
  err : Bool
  ecode : BitVec 4
  deriving DecidableEq, Repr

/-- The state of the block (R20), with the streams of its ports (R90) and the model's own fields `inst`, `cur`, `sched` and
`ticks` (logs 5, 9, 14). -/
structure State where
  /-- The instance's constants (00_scope.md R7, R34): no step changes them (log 5). -/
  inst : Params
  /-- `x[c][s]`, the section register file (R21 to R25). -/
  x : PerChan Slots
  /-- `acc[c][i]`, the sample accumulators: space `ACC` (R26). -/
  acc : Memory
  /-- `fill[c]`, the fill cursors (R26). -/
  fill : PerChan Nat
  /-- `AFMEM[c][k][i]`, storage of the audio-block rings (R27). -/
  afmem : Memory
  /-- `wptr[c]`, pushes modulo 60 (R28). -/
  wptr : PerChan RingIdx
  /-- `rptr[c]`, pulls modulo 60 (R28). -/
  rptr : PerChan RingIdx
  /-- `wptr_seen[c]`, domain B's copy of `wptr[c]` (R29). -/
  wptrSeen : PerChan RingIdx
  /-- `rptr_seen[c]`, domain A's copy of `rptr[c]` (R29). -/
  rptrSeen : PerChan RingIdx
  /-- `slide[c][i]`, the sliding mono buffers (R30). -/
  slide : Memory
  /-- `MFMEM[c][k][i]`, storage of the magnitude rings (R31). -/
  mfmem : Memory
  /-- `mw[c]`, pushes into the magnitude ring modulo 60 (R31). -/
  mw : PerChan RingIdx
  /-- `mr[c]`, pulls from the magnitude ring modulo 60 (R31). -/
  mr : PerChan RingIdx
  /-- `FLOOR` (R32). -/
  floor : W32
  /-- `BLKLEN`, the latched 16-bit strap, valid or not (R33, 70_reset_and_hazards.md R300, R301). -/
  blklen : BitVec 16
  /-- Port A: streams, `seq[A]`, `ERR[A]`, `ECODE[A]`. -/
  portA : PortState
  /-- Port B: streams, `seq[B]`, `ERR[B]`, `ECODE[B]`. -/
  portB : PortState
  /-- The port whose word is being taken (the model's own: log 14). -/
  cur : Port
  /-- The turns fixed for the coming steps, first the next (the model's own: log 9). -/
  sched : List Turn
  /-- Steps taken; `Config.schedule` is applied to it when `sched` is empty (the model's own: log 9). -/
  ticks : Nat
  deriving DecidableEq, Repr

/-- Why the machine stops. The block itself never stops: its errors are responses (60_exceptions.md R265). -/
inductive Fault where
  /-- Raised by a port's step when the port is in its operand phase and its latched header is no command. Every run latches
  only headers that decoded (30_encoding.md R91), so no run raises it; safe (log 15). -/
  | sequencerCorrupt
  deriving DecidableEq, Repr

/-- Why an instruction has no meaning. -/
inductive Refusal where
  /-- Raised by an arm of `exec` whose instruction is not modelled; no arm is. Safe. -/
  | notModelled (mnemonic : String)
  deriving DecidableEq, Repr

/-- The outcome of a step of this machine. -/
abbrev Result := Host.Outcome State Fault Refusal

/-- A section slot after reset (R50): bypassed, no valid coefficients, history +0.0; the coefficient words, which R50 leaves
unspecified, are 0 (DESIGN CHOICE, log 3). -/
def Section.reset : Section :=
  { coef := { b0 := 0, b1 := 0, b2 := 0, a1 := 0, a2 := 0 }, x1 := 0, x2 := 0, y1 := 0, y2 := 0, byp := true, cv := false }

/-- A sequencer after reset (R50): the next word is a header; `hdr` and `buf` are unspecified there (DESIGN CHOICE, log 4). -/
def Seq.reset : Seq :=
  { phase := .hdr, hdr := 0, left := 0, buf := [], pushed := 0, dropped := 0, outs := [] }

/-- A port after reset (R50): no error yet; nothing offered and nothing answered. -/
def PortState.reset : PortState := { input := [], output := [], seq := Seq.reset, err := false, ecode := 0 }

/-- The same thing for both channels. -/
def PerChan.both {α : Type} (v : α) : PerChan α := { left := v, right := v }

/-- The block right after the release of `rst`, for any instance and any strap `cfg_blklen` (R50, 70_reset_and_hazards.md
R300). Memory that R50 leaves unspecified reads as 0 (DESIGN CHOICE, log 2). -/
def State.resetOf (inst : Params) (strap : BitVec 16) : State :=
  { inst := inst
    x := PerChan.both (Vector.replicate 9 Section.reset)
    acc := []
    fill := PerChan.both 0
    afmem := []
    wptr := PerChan.both 0
    rptr := PerChan.both 0
    wptrSeen := PerChan.both 0
    rptrSeen := PerChan.both 0
    slide := []
    mfmem := []
    mw := PerChan.both 0
    mr := PerChan.both 0
    floor := floorReset
    blklen := strap
    portA := PortState.reset
    portB := PortState.reset
    cur := .a
    sched := []
    ticks := 0 }

/-- The machine right after reset: the spec's named configuration `TC8` with its block length 4 as the strap (00_scope.md R9;
which instance it is, is a DESIGN CHOICE: log 5). -/
def State.reset : State := State.resetOf Params.tc8 4

end Sys2Proof.Machine
end

