-- ==== Sys2Proof/Machine/Ops.lean ====
section
/-! DEFINITION. The named operations over channels, memories, ports and sequencers (00_scope.md R11, 20_memory.md R60,
30_encoding.md R91, R93, R107), and the refusal of a command, the block's one kind of exception (60_exceptions.md R265). -/

namespace Sys2Proof

/-- Channel index 0 is left, index 1 is right (00_scope.md R6). -/
def Chan.index : Chan → Nat
  | .left => 0
  | .right => 1

namespace Machine

/-- The part of a pair that belongs to a channel. -/
def PerChan.get {α : Type} (v : PerChan α) : Chan → α
  | .left => v.left
  | .right => v.right

/-- The pair with the part of one channel replaced. -/
def PerChan.set {α : Type} (v : PerChan α) (c : Chan) (a : α) : PerChan α :=
  match c with
  | .left => { v with left := a }
  | .right => { v with right := a }

/-! ### Memories (20_memory.md R60) -/

/-- What a word index that no cell lists reads as: +0.0, the reset value of the sliding buffers; R50 leaves the reset contents
of the other memories unspecified (DESIGN CHOICE, log 2). -/
def Memory.unlisted : W32 := 0

/-- The word at a word index. -/
def Memory.read : Memory → Nat → W32
  | [], _ => Memory.unlisted
  | (k, v) :: r, a => if k = a then v else Memory.read r a

/-- The memory with one word replaced, in canonical form: cells stay sorted, and a word equal to `unlisted` has no cell. -/
def Memory.write : Memory → Nat → W32 → Memory
  | [], a, v => if v = Memory.unlisted then [] else [(a, v)]
  | (k, u) :: r, a, v =>
    if k < a then (k, u) :: Memory.write r a v
    else if k = a then (if v = Memory.unlisted then r else (a, v) :: r)
    else if v = Memory.unlisted then (k, u) :: r else (a, v) :: (k, u) :: r

/-- The canonical form from an index on: indices strictly rising and at least `lo`, no cell holding `unlisted`. -/
def Memory.wfFrom : Nat → Memory → Bool
  | _, [] => true
  | lo, (k, v) :: r => lo ≤ k && v != Memory.unlisted && Memory.wfFrom (k + 1) r

/-- The canonical form of a memory. -/
def Memory.wf (m : Memory) : Bool := Memory.wfFrom 0 m

/-- `MemRead(space, addr, n)`: `n` consecutive words, lowest index first (00_scope.md R11). -/
def Memory.readN (m : Memory) : Nat → Nat → List W32
  | _, 0 => []
  | a, n + 1 => m.read a :: Memory.readN m (a + 1) n

/-- `MemWrite(space, addr, n, v)`: the words of `v` from index `addr` on (00_scope.md R11). -/
def Memory.writeN : Memory → Nat → List W32 → Memory
  | m, _, [] => m
  | m, a, v :: vs => Memory.writeN (m.write a v) (a + 1) vs

/-- Word index of `acc[c][i]` in `ACC` (20_memory.md R60). -/
def accAddr (inst : Params) (c : Chan) (i : Nat) : Nat := c.index * inst.blkMax + i

/-- Word index of ring slot `k` of `AF[c]` in `AFMEM` (20_memory.md R60). -/
def afAddr (inst : Params) (c : Chan) (k : Nat) : Nat := (c.index * cap + k) * inst.blkMax

/-- Word index of `slide[c][i]` in `SLIDE` (20_memory.md R60). -/
def slideAddr (inst : Params) (c : Chan) (i : Nat) : Nat := c.index * inst.n + i

/-- Word index of ring slot `k` of `MF[c]` in `MFMEM` (20_memory.md R60). -/
def mfAddr (inst : Params) (c : Chan) (k : Nat) : Nat := (c.index * cap + k) * inst.nbins

/-! ### Ports -/

/-- The state of a port. -/
def State.port (s : State) : Port → PortState
  | .a => s.portA
  | .b => s.portB

/-- The state with one port replaced. -/
def State.setPort (s : State) (p : Port) (q : PortState) : State :=
  match p with
  | .a => { s with portA := q }
  | .b => { s with portB := q }

/-- The port whose word is being taken. -/
def State.here (s : State) : PortState := s.port s.cur

/-- The state with that port replaced. -/
def State.setHere (s : State) (q : PortState) : State := s.setPort s.cur q

/-- The sequencer of that port. -/
def State.seq (s : State) : Seq := s.here.seq

/-- The state with that sequencer replaced. -/
def State.setSeq (s : State) (q : Seq) : State := s.setHere { s.here with seq := q }

/-- The port takes the next word of its input stream: it is never taken again (30_encoding.md R90). -/
def State.takeWord (s : State) : State := s.setHere { s.here with input := s.here.input.tail }

/-! ### Responses (30_encoding.md R93) -/

/-- The `KIND` field of a response header. -/
inductive Kind where
  | ok
  | fail
  | err
  deriving DecidableEq, Repr

/-- The value of `KIND`: `0x0`, `0x1`, `0xE` (R93). -/
def Kind.bits : Kind → BitVec 4
  | .ok => 0x0
  | .fail => 0x1
  | .err => 0xE

/-- The response header word (R93). -/
def respHeader (k : Kind) (code : BitVec 4) (aux : BitVec 16) : W32 := k.bits ++ code ++ (0 : BitVec 8) ++ aux

/-- `respond(kind, code, aux, data)`: one response header and the data words, appended to the port's response stream
(00_scope.md R11). -/
def State.respond (s : State) (k : Kind) (code : BitVec 4) (aux : BitVec 16) (data : List W32) : State :=
  s.setHere { s.here with output := s.here.output ++ respHeader k code aux :: data }

/-- `respond(OK, 0, n, data)`. -/
def State.respondOk (s : State) (n : Nat) (data : List W32) : State := s.respond .ok 0 (BitVec.ofNat 16 n) data

/-- `respond(FAIL, 1, 0, [])`, FAIL/EMPTY: `0x11000000` (R93). -/
def State.respondEmpty (s : State) : State := s.respond .fail 1 0 []

/-! ### Errors (60_exceptions.md R265, R266) -/

/-- The four error causes of R266. -/
inductive ErrCode where
  | illop
  | field
  | nocoef
  | csr
  deriving DecidableEq, Repr

/-- The code of an error (R266). -/
def ErrCode.bits : ErrCode → BitVec 4
  | .illop => 1
  | .field => 2
  | .nocoef => 3
  | .csr => 4

/-- The sticky flags after an error: `ERR` set, `ECODE` kept from the first error (R265, 10_state.md R37). -/
def PortState.raise (q : PortState) (e : ErrCode) : PortState :=
  { q with err := true, ecode := if q.err then q.ecode else e.bits }

/-- A command is refused (R265): the flags of its port, one response word, nothing else. Control is transferred nowhere and
nothing is saved. -/
def State.refuse (s : State) (e : ErrCode) : State := (s.setHere (s.here.raise e)).respond .err e.bits 0 []

/-! ### The sequencer (30_encoding.md R91) -/

/-- The latched strap is a block length: `1 .. BLKMAX` (10_state.md R33, 70_reset_and_hazards.md R301). -/
def State.strapOk (s : State) : Bool := 1 ≤ s.blklen.toNat && s.blklen.toNat ≤ s.inst.blkMax

/-- The header checks of R107 in their order, the first that fails: strap, opcode of this port, fields; then `late`, the checks
4 and 5, which only some commands have. -/
def headerCheck (i : Instr) (late : State → Option ErrCode) (s : State) : Option ErrCode :=
  if !s.strapOk then some .field
  else if !i.opcode.onPort s.cur then some .illop
  else if !i.fieldsLegal then some .field
  else late s

/-- No check of a command beyond the first three of R107. -/
def noLateCheck (_ : State) : Option ErrCode := none

/-- `seq[p].hdr <- w ; seq[p].left <- nopnd(w)`, and the operand buffer emptied for the command that begins (R91; log 25). -/
def State.latch (s : State) (w : W32) (n : Nat) : State := s.setSeq { s.seq with hdr := w, left := n, buf := [] }

/-- The phase of the sequencer replaced. -/
def State.setPhase (s : State) (p : Phase) : State := s.setSeq { s.seq with phase := p }

/-- `seq[p].left <- seq[p].left - 1`. -/
def State.countDown (s : State) : State := s.setSeq { s.seq with left := s.seq.left - 1 }

/-- An operand word appended to `seq[p].buf`. -/
def State.keepOperand (w : W32) (s : State) : State := s.setSeq { s.seq with buf := s.seq.buf ++ [w] }

/-- No header-time effect: only `BQ.PROC` and `AF.PUSHS` have any (R91). -/
def noStart (s : State) : State := s

/-- One word of a command at the port whose turn it is, as R91 says: in phase `hdr` the word is the command's header: it is
checked, and refused or latched, the header-time effect `start` happens, and a command without operands finishes at once;
in phase `opnd` the word is an operand: `operand` takes it, and after the last one the command finishes. A port with no word
offered waits. -/
def runWord (i : Instr) (late : State → Option ErrCode) (start : State → State) (operand : W32 → State → State)
    (finish : State → State) (s : State) : Result :=
  match s.here.input with
  | [] => .next s
  | w :: _ =>
    match s.seq.phase with
    | .hdr =>
      match headerCheck i late s with
      | some e => .next (s.takeWord.refuse e)
      | none =>
        let s1 := start (s.takeWord.latch w i.nopnd)
        if i.nopnd = 0 then .next (finish s1) else .next (s1.setPhase .opnd)
    | .opnd =>
      let s1 := (operand w s.takeWord).countDown
      if s1.seq.left = 0 then .next ((finish s1).setPhase .hdr) else .next s1

end Machine

end Sys2Proof
end

