-- ==== Sys2Proof/Machine/Operands.lean ====
section
/-! DEFINITION. What the header fields and the operand words of a command stand for (30_encoding.md R92, R100, R101, 10_state.md
R22): channels, channel masks, section slots, stages and coefficient sets; and the registers they name. A field outside its
legal set never gets here, because the header check refuses it first (R107); on such a value these functions answer with some
channel or slot (log 16). -/

namespace Sys2Proof.Machine

/-- The channel a legal `CH` field names: 0 left, 1 right (R92). -/
def chanOf (ch : BitVec 4) : Chan := if ch = 0 then .left else .right

/-- `CHM[c]`: header bit 20, the mask's bit 0, selects channel 0, and bit 21 channel 1 (R92). -/
def selects (chm : BitVec 4) : Chan → Bool
  | .left => chm.getLsbD 0
  | .right => chm.getLsbD 1

/-- The section slot a legal `SLOT` field names (R92, 10_state.md R22). -/
def slotOf (slot : BitVec 4) : Fin 9 := Fin.ofNat 9 slot.toNat

/-- Slot `base(stage) + i` for section `i` of a cut stage: `base` is 0 for stage 0 and 5 for stage 2 (10_state.md R22). -/
def cutSlot (stg : BitVec 4) (i : Fin 4) : Fin 9 := if stg = 0 then ⟨i, by omega⟩ else ⟨5 + i, by omega⟩

/-- The coefficient set whose words start at word `5*i` of an operand list, in the order `b0, b1, b2, a1, a2` (R101). -/
def coefsAt (ws : List W32) (i : Nat) : Coefs :=
  { b0 := ws.getD (5 * i) 0, b1 := ws.getD (5 * i + 1) 0, b2 := ws.getD (5 * i + 2) 0,
    a1 := ws.getD (5 * i + 3) 0, a2 := ws.getD (5 * i + 4) 0 }

/-- `x[c][s]`, one section slot (00_scope.md R11). -/
def State.slot (s : State) (c : Chan) (i : Fin 9) : Section := (s.x.get c)[i]

/-- The nine slots of one channel replaced. -/
def State.setSlots (s : State) (c : Chan) (v : Slots) : State := { s with x := s.x.set c v }

/-- A change made to the slots of every selected channel and of no other (41_biquad_cascade.md R148). -/
def State.onSelected (s : State) (chm : BitVec 4) (f : Slots → Slots) : State :=
  { s with x := { left := if selects chm .left then f s.x.left else s.x.left,
                  right := if selects chm .right then f s.x.right else s.x.right } }

end Sys2Proof.Machine
end

