-- ==== Sys2Proof/Machine/Biquad.lean ====
section
/-! DEFINITION. The biquad cascade (41_biquad_cascade.md R140 to R153): one section, one chain, and the commands BQ.SETC,
BQ.BYP, BQ.CUTUPD and BQ.PROC. -/

namespace Sys2Proof.Machine

/-- The output of an active section: Direct Form I, products and sums in the order of R142, each rounded once. -/
def sectionOut (r : Section) (xin : W32) : W32 :=
  fsub (fsub (fadd (fadd (fmul r.coef.b0 xin) (fmul r.coef.b1 r.x1)) (fmul r.coef.b2 r.x2)) (fmul r.coef.a1 r.y1))
    (fmul r.coef.a2 r.y2)

/-- `sec_step` (R142): a bypassed section returns its input and stays as it is; an active one computes its output and shifts
its history. -/
def secStep (r : Section) (xin : W32) : W32 × Section :=
  if r.byp then (xin, r)
  else
    let y := sectionOut r xin
    (y, { r with x2 := r.x1, x1 := xin, y2 := r.y1, y1 := y })

/-- The slots in signal order (R147, 10_state.md R22). -/
def slotOrder : List (Fin 9) := [0, 1, 2, 3, 4, 5, 6, 7, 8]

/-- One slot of a chain: the value passes through it and the slot is updated. -/
def chainSlot (a : W32 × Slots) (i : Fin 9) : W32 × Slots :=
  let r := secStep a.2[i] a.1
  (r.1, a.2.set i r.2)

/-- `chain_step` (R147): one sample through the nine slots in slot order. -/
def chainStep (v : Slots) (xin : W32) : W32 × Slots := slotOrder.foldl chainSlot (xin, v)

/-- `BQ.SETC` on the slots of one channel (R143): coefficients and `cv`, nothing else. -/
def installCoefs (i : Fin 9) (k : Coefs) (v : Slots) : Slots := v.set i { v[i] with coef := k, cv := true }

/-- The effect of `BQ.SETC` (R143), when the fifth operand word has arrived. -/
def finishSetc (chm slot : BitVec 4) (s : State) : State :=
  (s.onSelected chm (installCoefs (slotOf slot) (coefsAt s.seq.buf 0))).respondOk 0 []

/-- `BQ.SETC` (R143). -/
def execBqSetc (chm slot : BitVec 4) (s : State) : Result :=
  runWord (.bqSetc chm slot) noLateCheck noStart State.keepOperand (finishSetc chm slot) s

/-- Check 5 of 30_encoding.md R107: `BQ.BYP` may not make a slot active whose coefficients were never written on some selected
channel (R144). -/
def bypCheck (chm slot : BitVec 4) (v : BitVec 1) (s : State) : Option ErrCode :=
  if v = 0 && ((selects chm .left && !(s.slot .left (slotOf slot)).cv) ||
      (selects chm .right && !(s.slot .right (slotOf slot)).cv)) then some .nocoef
  else none

/-- `BQ.BYP` on the slots of one channel (R144): the bypass flag, nothing else. -/
def setByp (i : Fin 9) (b : Bool) (v : Slots) : Slots := v.set i { v[i] with byp := b }

/-- The effect of `BQ.BYP` (R144). -/
def finishByp (chm slot : BitVec 4) (v : BitVec 1) (s : State) : State :=
  (s.onSelected chm (setByp (slotOf slot) (v == 1))).respondOk 0 []

/-- `BQ.BYP` (R144). -/
def execBqByp (chm slot : BitVec 4) (v : BitVec 1) (s : State) : Result :=
  runWord (.bqByp chm slot v) (bypCheck chm slot v) noStart State.keepOperand (finishByp chm slot v) s

/-- The sections of a cut stage in increasing index order (R145). -/
def cutSections : List (Fin 4) := [0, 1, 2, 3]

/-- "First force all 4 sections to bypassed" (R145). -/
def disableAll (stg : BitVec 4) (v : Slots) : Slots :=
  cutSections.foldl (fun v i => setByp (cutSlot stg i) true v) v

/-- Section `i` enabled with its coefficient set installed (R145). -/
def enableSection (stg : BitVec 4) (ws : List W32) (v : Slots) (i : Fin 4) : Slots :=
  setByp (cutSlot stg i) false (installCoefs (cutSlot stg i) (coefsAt ws i) v)

/-- `BQ.CUTUPD` on the slots of one channel (R145): disable all, then enable sections `0 .. m - 1`, section 0 first. -/
def cutUpdate (stg : BitVec 4) (m : Nat) (ws : List W32) (v : Slots) : Slots :=
  (cutSections.filter (fun i => i.val < m)).foldl (enableSection stg ws) (disableAll stg v)

/-- The effect of `BQ.CUTUPD` (R145), when the last operand word has arrived. -/
def finishCutupd (chm stg slope : BitVec 4) (s : State) : State :=
  (s.onSelected chm (cutUpdate stg (nsec slope) s.seq.buf)).respondOk (nsec slope) []

/-- `BQ.CUTUPD` (R145). -/
def execBqCutupd (chm stg slope : BitVec 4) (s : State) : Result :=
  runWord (.bqCutupd chm stg slope) noLateCheck noStart State.keepOperand (finishCutupd chm stg slope) s

/-- The header-time effect of `BQ.PROC`: `out = []` (R146). -/
def startProc (s : State) : State := s.setSeq { s.seq with outs := [] }

/-- One operand word of `BQ.PROC` (R146): the sample goes through the chain of the channel, the output is kept for the
response. -/
def procSample (ch : BitVec 4) (w : W32) (s : State) : State :=
  let r := chainStep (s.x.get (chanOf ch)) w
  let s1 := s.setSlots (chanOf ch) r.2
  s1.setSeq { s1.seq with outs := s1.seq.outs ++ [r.1] }

/-- `respond(OK, 0, N, out)` (R146). -/
def finishProc (n : BitVec 16) (s : State) : State := s.respondOk n.toNat s.seq.outs

/-- `BQ.PROC` (R146). -/
def execBqProc (ch : BitVec 4) (n : BitVec 16) (s : State) : Result :=
  runWord (.bqProc ch n) noLateCheck startProc (procSample ch) (finishProc n) s

end Sys2Proof.Machine
end

