-- ==== Sys2Proof/Machine/Ring.lean ====
section
/-! DEFINITION. The rings (42_block_fifo.md R170 to R176): counts, push and pull on the audio-block rings `AF[c]` and the
magnitude rings `MF[c]`, the sample accumulator, the synchronisers, and the Gray code an index crosses the domains in. -/

namespace Sys2Proof.Machine

/-- The ring slot an index points at: `index mod CAP` (10_state.md R28). -/
def ringSlot (q : RingIdx) : Nat := q.val % cap

/-- `(write index - read index) mod 60`: subtraction of indices counted modulo 60 (R170). -/
def ringCount (w r : RingIdx) : Nat := (w - r).val

/-- `occ[c]`, the true count, which no command reads (R175). -/
def State.occ (s : State) (c : Chan) : Nat := ringCount (s.wptr.get c) (s.rptr.get c)

/-- `occ_A[c]`, the producer view (R175). -/
def State.occA (s : State) (c : Chan) : Nat := ringCount (s.wptr.get c) (s.rptrSeen.get c)

/-- `avail_B[c]`, the consumer view (R175). -/
def State.availB (s : State) (c : Chan) : Nat := ringCount (s.wptrSeen.get c) (s.rptr.get c)

/-- `mocc[c]`, the count of the magnitude ring (10_state.md R31). -/
def State.mocc (s : State) (c : Chan) : Nat := ringCount (s.mw.get c) (s.mr.get c)

/-- `BLKLEN` as a number (10_state.md R33). -/
def State.blkLen (s : State) : Nat := s.blklen.toNat

/-- `push(AF[c], item)` (R172): none where it fails, full in the producer's view, and then nothing changes. -/
def State.afPush (s : State) (c : Chan) (item : List W32) : Option State :=
  if s.occA c = cap then none
  else some { s with
    afmem := s.afmem.writeN (afAddr s.inst c (ringSlot (s.wptr.get c))) item
    wptr := s.wptr.set c (s.wptr.get c + 1) }

/-- `push(MF[c], item)` (R172). -/
def State.mfPush (s : State) (c : Chan) (item : List W32) : Option State :=
  if s.mocc c = cap then none
  else some { s with
    mfmem := s.mfmem.writeN (mfAddr s.inst c (ringSlot (s.mw.get c))) item
    mw := s.mw.set c (s.mw.get c + 1) }

/-- The words of the item `AF[c]` hands out next: ring slot `rptr[c] mod 30` (R173). -/
def State.afHead (s : State) (c : Chan) : List W32 :=
  s.afmem.readN (afAddr s.inst c (ringSlot (s.rptr.get c))) s.blkLen

/-- The words of the item `MF[c]` hands out next (R173). -/
def State.mfHead (s : State) (c : Chan) : List W32 :=
  s.mfmem.readN (mfAddr s.inst c (ringSlot (s.mr.get c))) s.inst.nbins

/-- `pull(AF[c])` (R173): none where it fails, empty in the consumer's view, and then nothing changes. -/
def State.afPull (s : State) (c : Chan) : Option (List W32 × State) :=
  if s.availB c = 0 then none
  else some (s.afHead c, { s with rptr := s.rptr.set c (s.rptr.get c + 1) })

/-- `pull(MF[c])` (R173). -/
def State.mfPull (s : State) (c : Chan) : Option (List W32 × State) :=
  if s.mocc c = 0 then none
  else some (s.mfHead c, { s with mr := s.mr.set c (s.mr.get c + 1) })

/-- What `feed` returns (R176). -/
inductive Fed where
  | none
  | pushed
  | dropped
  deriving DecidableEq, Repr

/-- `feed(c, w)`: one sample into the accumulator of a channel; a completed block is pushed, or dropped whole when the ring is
full, and the cursor starts again (R176). -/
def State.feed (s : State) (c : Chan) (w : W32) : Fed × State :=
  let acc' := s.acc.write (accAddr s.inst c (s.fill.get c)) w
  let f := s.fill.get c + 1
  if f < s.blkLen then (.none, { s with acc := acc', fill := s.fill.set c f })
  else
    let s1 : State := { s with acc := acc', fill := s.fill.set c 0 }
    match s1.afPush c (acc'.readN (accAddr s.inst c 0) s.blkLen) with
    | some s2 => (.pushed, s2)
    | Option.none => (.dropped, s1)

/-! ### The crossing between the domains (R171, R174) -/

/-- `SYNC_W[c]`: domain B learns of pushes (R174). -/
def State.syncW (s : State) (c : Chan) : State := { s with wptrSeen := s.wptrSeen.set c (s.wptr.get c) }

/-- `SYNC_R[c]`: domain A learns of pulls (R174). -/
def State.syncR (s : State) (c : Chan) : State := { s with rptrSeen := s.rptrSeen.set c (s.rptr.get c) }

/-- `gray(q)`, the 6-bit code an index crosses in: `v xor (v >> 1)` with `v = q + 2` (R171). -/
def gray (q : RingIdx) : BitVec 6 :=
  let v := BitVec.ofNat 6 (q.val + 2)
  v ^^^ (v >>> 1)

/-- `ungray(g)` (R171), as a number; on a code that occurs it is an index. -/
def ungray (g : BitVec 6) : Nat :=
  (g ^^^ (g >>> 1) ^^^ (g >>> 2) ^^^ (g >>> 3) ^^^ (g >>> 4) ^^^ (g >>> 5)).toNat - 2

/-- `wgray[c]`, the register that carries `wptr[c]` to domain B: always the code of the index (10_state.md R29; log 19). -/
def State.wgray (s : State) (c : Chan) : BitVec 6 := gray (s.wptr.get c)

/-- `rgray[c]`, the register that carries `rptr[c]` to domain A: always the code of the index (10_state.md R29; log 19). -/
def State.rgray (s : State) (c : Chan) : BitVec 6 := gray (s.rptr.get c)

end Sys2Proof.Machine
end

