-- ==== Sys2Proof/Machine/Fifo.lean ====
section
/-! DEFINITION. The audio-block FIFO commands AF.PUSHS, AF.AVAIL, AF.PULL and the consumer side of the magnitude ring, MF.AVAIL,
MF.PULL (42_block_fifo.md R177 to R182). -/

namespace Sys2Proof.Machine

/-- The header-time effect of `AF.PUSHS`: both counters zero (R177). -/
def startPushs (s : State) : State := s.setSeq { s.seq with pushed := 0, dropped := 0 }

/-- A sequencer that has counted what `feed` returned (R177). -/
def Seq.count (q : Seq) : Fed → Seq
  | .none => q
  | .pushed => { q with pushed := q.pushed + 1 }
  | .dropped => { q with dropped := q.dropped + 1 }

/-- One operand word of `AF.PUSHS`: the sample is fed and the result counted (R177). -/
def pushSample (ch : BitVec 4) (w : W32) (s : State) : State :=
  let r := s.feed (chanOf ch) w
  r.2.setSeq (r.2.seq.count r.1)

/-- The data word of the response: blocks dropped in 31:16, blocks pushed in 15:0 (R177). -/
def pushReport (q : Seq) : W32 := BitVec.ofNat 16 q.dropped ++ BitVec.ofNat 16 q.pushed

/-- `respond(OK, 0, N, [report])` (R177). -/
def finishPushs (n : BitVec 16) (s : State) : State := s.respondOk n.toNat [pushReport s.seq]

/-- `AF.PUSHS` (R177). -/
def execAfPushs (ch : BitVec 4) (n : BitVec 16) (s : State) : Result :=
  runWord (.afPushs ch n) noLateCheck startPushs (pushSample ch) (finishPushs n) s

/-- `respond(OK, 0, avail_B[CH], [])` (R178). -/
def finishAfAvail (ch : BitVec 4) (s : State) : State := s.respondOk (s.availB (chanOf ch)) []

/-- `AF.AVAIL` (R178). -/
def execAfAvail (ch : BitVec 4) (s : State) : Result :=
  runWord (.afAvail ch) noLateCheck noStart State.keepOperand (finishAfAvail ch) s

/-- The effect of `AF.PULL` (R179): the oldest ready block, or FAIL/EMPTY. -/
def finishAfPull (ch : BitVec 4) (s : State) : State :=
  match s.afPull (chanOf ch) with
  | none => s.respondEmpty
  | some (item, s1) => s1.respondOk s.blkLen item

/-- `AF.PULL` (R179). -/
def execAfPull (ch : BitVec 4) (s : State) : Result :=
  runWord (.afPull ch) noLateCheck noStart State.keepOperand (finishAfPull ch) s

/-- `respond(OK, 0, mocc[CH], [])` (R181). -/
def finishMfAvail (ch : BitVec 4) (s : State) : State := s.respondOk (s.mocc (chanOf ch)) []

/-- `MF.AVAIL` (R181). -/
def execMfAvail (ch : BitVec 4) (s : State) : Result :=
  runWord (.mfAvail ch) noLateCheck noStart State.keepOperand (finishMfAvail ch) s

/-- The effect of `MF.PULL` (R182): the oldest magnitude vector, or FAIL/EMPTY. -/
def finishMfPull (ch : BitVec 4) (s : State) : State :=
  match s.mfPull (chanOf ch) with
  | none => s.respondEmpty
  | some (item, s1) => s1.respondOk s.inst.nbins item

/-- `MF.PULL` (R182). -/
def execMfPull (ch : BitVec 4) (s : State) : Result :=
  runWord (.mfPull ch) noLateCheck noStart State.keepOperand (finishMfPull ch) s

end Sys2Proof.Machine
end

