-- ==== Sys2Proof/Machine/Fft.lean ====
section
/-! DEFINITION. The transform of the FFT magnitude extractor (43_fft_magnitude.md R212 to R218): window, bit reversal, twiddle
table, butterfly, stages, magnitude, decibels. -/

namespace Sys2Proof.Machine

open Binary32

/-- A pair (real part, imaginary part) of binary32 words. -/
structure Cplx where
  re : W32
  im : W32
  deriving DecidableEq, Repr

/-- The pair of zeros, which stands where a list has no entry; no rule reads one. -/
def Cplx.zero : Cplx := { re := 0, im := 0 }

/-- `bitrev(i)` for `p` bits: bit `j` of the result is bit `p - 1 - j` of `i` (R213). -/
def bitrev : Nat → Nat → Nat
  | 0, _ => 0
  | p + 1, i => i % 2 * 2 ^ p + bitrev p (i / 2)

/-- The permutation step: "after which `work[i]` holds what `work[bitrev(i)]` held before" (R213). -/
def permute (p : Nat) (work : List Cplx) : List Cplx :=
  (List.range (2 ^ p)).map fun i => work.getD (bitrev p i) Cplx.zero

/-! ### Twiddle factors (R214), computed with 200 binary digits after the point (log 17) -/

/-- π in units of 2^-200, rounded down. -/
def piFixed : Nat := 5048344754617993871973410141242436836214643421488662971535368

/-- The angle `2*pi*k/N` in units of 2^-200, rounded down. -/
def angleFixed (p k : Nat) : Nat := 2 * piFixed * k / 2 ^ p

/-- The sum of a power series with alternating signs and terms `t, t*a²/(c(c+1)), ...`, `fuel` terms, in units of 2^-200: the
cosine of the angle from `t = 2^200`, `c = 1`, the sine from `t` the angle, `c = 2`. -/
def seriesFixed (a : Nat) : Nat → Nat → Nat → Int
  | 0, _, _ => 0
  | fuel + 1, t, c => (t : Int) - seriesFixed a fuel (t * (a * a / 2 ^ 200) / 2 ^ 200 / (c * (c + 1))) (c + 2)

/-- The binary32 word nearest to a number given in units of 2^-200. -/
def nearestWord (v : Int) : W32 := if v = 0 then zero false else roundWord (decide (v < 0)) v.natAbs 51

/-- `TW[k]` for `N = 2^p` (R214): the words nearest to `cos(2*pi*k/N)` and `-sin(2*pi*k/N)`; entries 0 and `N/4` exact by
definition. -/
def twiddle (p k : Nat) : Cplx :=
  if k = 0 then { re := 0x3F800000, im := 0x00000000 }
  else if 4 * k = 2 ^ p then { re := 0x00000000, im := 0xBF800000 }
  else
    let a := angleFixed p k
    { re := nearestWord (seriesFixed a 40 (2 ^ 200) 1), im := nearestWord (-seriesFixed a 40 a 2) }

/-! ### Butterflies and stages -/

/-- `t = w * l`, the complex product: four products, one difference, one sum, each rounded once (R215). -/
def twiddleMul (w l : Cplx) : Cplx :=
  { re := fsub (fmul w.re l.re) (fmul w.im l.im), im := fadd (fmul w.re l.im) (fmul w.im l.re) }

/-- `upper'` of the butterfly (R215). -/
def butterflyUpper (w u l : Cplx) : Cplx :=
  let t := twiddleMul w l
  { re := fadd u.re t.re, im := fadd u.im t.im }

/-- `lower'` of the butterfly (R215). -/
def butterflyLower (w u l : Cplx) : Cplx :=
  let t := twiddleMul w l
  { re := fsub u.re t.re, im := fsub u.im t.im }

/-- One entry after stage `st` (R216): with `m = 2^st`, `h = m/2` and `j = i mod m`, entry `i` is the upper one of the pair
`(i, i + h)` if `j < h`, and the lower one of the pair `(i - h, i)` otherwise; the twiddle is `TW[j * (N/m)]` for the
pair's upper `j`. -/
def stageEntry (p st : Nat) (work : List Cplx) (i : Nat) : Cplx :=
  let m := 2 ^ st
  let h := 2 ^ (st - 1)
  let j := i % m
  if j < h then
    butterflyUpper (twiddle p (j * (2 ^ p / m))) (work.getD i Cplx.zero) (work.getD (i + h) Cplx.zero)
  else
    butterflyLower (twiddle p ((j - h) * (2 ^ p / m))) (work.getD (i - h) Cplx.zero) (work.getD i Cplx.zero)

/-- Stage `st` of the transform (R216); "within a stage the butterflies touch disjoint pairs, so their order does not matter". -/
def stage (p st : Nat) (work : List Cplx) : List Cplx := (List.range (2 ^ p)).map (stageEntry p st work)

/-- `fft(work)` (R216): bit reversal, then stages `1 .. P`; no scaling. -/
def fft (p : Nat) (work : List Cplx) : List Cplx :=
  (List.range p).foldl (fun w k => stage p (k + 1) w) (permute p work)

/-- The windowed copy of the sliding buffer (R212). -/
def windowed (win samples : List W32) : List Cplx :=
  List.zipWith (fun x w => { re := fmul x w, im := 0x00000000 }) samples win

/-- `mag(k)` of an entry (R217). -/
def magnitude (z : Cplx) : W32 := fsqrt (fadd (fmul z.re z.re) (fmul z.im z.im))

/-- `to_db(m)` (R218): decibels, with `FLOOR` for what is not finite, not above zero, or not above `FLOOR`. -/
def toDb (scale floor m : W32) : W32 :=
  let v := fmul m scale
  if !isFinite v then floor
  else if !fgt v 0x00000000 then floor
  else
    let d := fmul 0x41A00000 (flog10 v)
    if fgt d floor then d else floor

/-- The magnitude vector of a window of samples (R219, its middle lines). -/
def magVector (inst : Params) (floor : W32) (samples : List W32) : List W32 :=
  ((fft inst.p (windowed inst.win samples)).take inst.nbins).map fun z => toDb inst.magScale floor (magnitude z)

end Sys2Proof.Machine
end

