-- ==== Sys2Proof/Machine/Magnitude.lean ====
section
/-! DEFINITION. The FFT magnitude extractor's command FG.STEP (43_fft_magnitude.md R211, R219). -/

namespace Sys2Proof.Machine

/-- The sliding buffer of a channel, oldest sample first (10_state.md R30). -/
def State.slideBuf (s : State) (c : Chan) : List W32 := s.slide.readN (slideAddr s.inst c 0) s.inst.n

/-- `slide_in(c, blk)` (R211): left-shift by the block length, the new samples at the tail. -/
def State.slideIn (s : State) (c : Chan) (blk : List W32) : State :=
  { s with slide := s.slide.writeN (slideAddr s.inst c 0) ((s.slideBuf c).drop s.blkLen ++ blk) }

/-- The effect of `FG.STEP` once a block is pulled (R219): slide it in, transform, push the vector or drop it. -/
def State.extract (s : State) (c : Chan) (blk : List W32) : State :=
  let s1 := s.slideIn c blk
  match s1.mfPush c (magVector s1.inst s1.floor (s1.slideBuf c)) with
  | some s2 => s2.respondOk 1 []
  | none => s1.respondOk 0 []

/-- The effect of `FG.STEP` (R219): FAIL/EMPTY where no block is ready. -/
def finishFgStep (ch : BitVec 4) (s : State) : State :=
  match s.afPull (chanOf ch) with
  | none => s.respondEmpty
  | some (item, s1) => s1.extract (chanOf ch) item

/-- `FG.STEP` (R219). -/
def execFgStep (ch : BitVec 4) (s : State) : Result :=
  runWord (.fgStep ch) noLateCheck noStart State.keepOperand (finishFgStep ch) s

end Sys2Proof.Machine
end

