-- ==== Sys2Proof/Machine/Flags.lean ====
section
/-! DEFINITION. The flags of the block as words (10_state.md R23, R24, R37, R44, R49): the status word of a port, and the bypass
and coefficients-valid flags of a channel. The block has no condition codes (R37). -/

namespace Sys2Proof.Machine

/-- The value of CSR `STATUS` read from a port: bit 0 `ERR`, bits 7:4 `ECODE` (R44). -/
def statusWord (q : PortState) : W32 := (0 : BitVec 24) ++ q.ecode ++ (0 : BitVec 3) ++ BitVec.ofBool q.err

/-- One flag of each of the nine slots, slot `s` at bit `s`. -/
def slotBits (f : Section → Bool) (v : Slots) : BitVec 9 := BitVec.ofFnLE (fun i : Fin 9 => f v[i])

/-- The value of CSR `BYPV[c]`: bit `s` is `x[c][s].byp`, bit `16 + s` is `x[c][s].cv` (R49). -/
def bypvWord (v : Slots) : W32 :=
  (0 : BitVec 7) ++ slotBits Section.cv v ++ (0 : BitVec 7) ++ slotBits Section.byp v

end Sys2Proof.Machine
end

