-- ==== Sys2Proof/Machine/Csr.lean ====
section
/-! DEFINITION. The control and status registers (10_state.md R40 to R49): which exist on which port, what each reads, and the
one that can be written. -/

namespace Sys2Proof.Machine

/-- `ID` (R41). -/
def idWord : W32 := 0x43455131

/-- `CAPS` (R42): `CAP` in 7:0, `NCH` in 11:8, `NSLOT` in 15:12, `P` in 20:16. -/
def capsWord (inst : Params) : W32 :=
  (0 : BitVec 11) ++ BitVec.ofNat 5 inst.p ++ BitVec.ofNat 4 nslot ++ BitVec.ofNat 4 nch ++ BitVec.ofNat 8 cap

/-- `BLKLEN` (R43). -/
def blklenWord (s : State) : W32 := (0 : BitVec 16) ++ s.blklen

/-- `AFPROD[c]` (R46): `fill[c]` in 15:0, the producer view in 23:16. -/
def afprodWord (s : State) (c : Chan) : W32 :=
  (0 : BitVec 8) ++ BitVec.ofNat 8 (s.occA c) ++ BitVec.ofNat 16 (s.fill.get c)

/-- `AFCONS[c]` (R47): the consumer view in 7:0. -/
def afconsWord (s : State) (c : Chan) : W32 := (0 : BitVec 24) ++ BitVec.ofNat 8 (s.availB c)

/-- `MFSTAT[c]` (R48): `mocc[c]` in 7:0. -/
def mfstatWord (s : State) (c : Chan) : W32 := (0 : BitVec 24) ++ BitVec.ofNat 8 (s.mocc c)

/-- `csr[p][idx]` (R40): the value read from a port, or none where the index is unimplemented or not on that port. -/
def csrRead (p : Port) (idx : BitVec 8) (s : State) : Option W32 :=
  match idx.toNat, p with
  | 0x00, _ => some idWord
  | 0x01, _ => some (capsWord s.inst)
  | 0x02, _ => some (blklenWord s)
  | 0x03, _ => some (statusWord (s.port p))
  | 0x04, .b => some s.floor
  | 0x10, .a => some (afprodWord s .left)
  | 0x11, .a => some (afprodWord s .right)
  | 0x18, .b => some (afconsWord s .left)
  | 0x19, .b => some (afconsWord s .right)
  | 0x20, .b => some (mfstatWord s .left)
  | 0x21, .b => some (mfstatWord s .right)
  | 0x28, .a => some (bypvWord s.x.left)
  | 0x29, .a => some (bypvWord s.x.right)
  | _, _ => none

/-- The one writable CSR is `FLOOR`, index `0x04`, on port B (R40, 44_system_commands.md R252). -/
def csrWritable (p : Port) (idx : BitVec 8) : Bool := p == .b && idx == 0x04

/-- `csr[p][idx] <- w`, for the one legal case (44_system_commands.md R252). -/
def csrWrite (p : Port) (idx : BitVec 8) (w : W32) (s : State) : State :=
  if csrWritable p idx then { s with floor := w } else s

end Sys2Proof.Machine
end

