-- ==== Sys2Proof/Machine/System.lean ====
section
/-! DEFINITION. The system commands NOP, RDCSR and WRCSR (44_system_commands.md R250 to R252). -/

namespace Sys2Proof.Machine

/-- `NOP` (R250): only its response. -/
def execNop (s : State) : Result :=
  runWord .nop noLateCheck noStart State.keepOperand (fun s => s.respondOk 0 []) s

/-- Check 4 of 30_encoding.md R107 for `RDCSR`: the CSR exists on this port. -/
def rdcsrCheck (idx : BitVec 8) (s : State) : Option ErrCode :=
  if (csrRead s.cur idx s).isSome then none else some .csr

/-- The effect of `RDCSR` (R251): the value at the moment of the command, as a data word. -/
def finishRdcsr (idx : BitVec 8) (s : State) : State := s.respondOk 0 [(csrRead s.cur idx s).getD 0]

/-- `RDCSR` (R251). -/
def execRdcsr (idx : BitVec 8) (s : State) : Result :=
  runWord (.rdcsr idx) (rdcsrCheck idx) noStart State.keepOperand (finishRdcsr idx) s

/-- Check 4 of 30_encoding.md R107 for `WRCSR`: the CSR exists on this port and can be written. -/
def wrcsrCheck (idx : BitVec 8) (s : State) : Option ErrCode :=
  if csrWritable s.cur idx then none else some .csr

/-- The effect of `WRCSR` (R252), when its operand word has arrived. -/
def finishWrcsr (idx : BitVec 8) (s : State) : State :=
  (csrWrite s.cur idx (s.seq.buf.getD 0 0) s).respondOk 0 []

/-- `WRCSR` (R252). -/
def execWrcsr (idx : BitVec 8) (s : State) : Result :=
  runWord (.wrcsr idx) (wrcsrCheck idx) noStart State.keepOperand (finishWrcsr idx) s

end Sys2Proof.Machine
end

