-- ==== Sys2Proof/Machine/Dispatch.lean ====
section
/-! DEFINITION. The meaning of every command, one arm per constructor of `Instr`: what the port whose turn it is does with its
next word as part of that command (30_encoding.md R91). -/

namespace Sys2Proof.Machine

def exec (i : Instr) (s : State) : Host.Outcome State Fault Refusal :=
  match i with
  | .nop => Sys2Proof.Machine.execNop s
  | .rdcsr idx => Sys2Proof.Machine.execRdcsr idx s
  | .wrcsr idx => Sys2Proof.Machine.execWrcsr idx s
  | .bqSetc chm slot => Sys2Proof.Machine.execBqSetc chm slot s
  | .bqByp chm slot v => Sys2Proof.Machine.execBqByp chm slot v s
  | .bqCutupd chm stg slope => Sys2Proof.Machine.execBqCutupd chm stg slope s
  | .bqProc ch n => Sys2Proof.Machine.execBqProc ch n s
  | .afPushs ch n => Sys2Proof.Machine.execAfPushs ch n s
  | .afAvail ch => Sys2Proof.Machine.execAfAvail ch s
  | .afPull ch => Sys2Proof.Machine.execAfPull ch s
  | .mfAvail ch => Sys2Proof.Machine.execMfAvail ch s
  | .mfPull ch => Sys2Proof.Machine.execMfPull ch s
  | .fgStep ch => Sys2Proof.Machine.execFgStep ch s

end Sys2Proof.Machine
end

