-- ==== Sys2Proof/Machine/Agents.lean ====
section
/-! DEFINITION. The agents (00_scope.md R12, 60_exceptions.md R280): whose turn it is, a port taking its next word
(30_encoding.md R91), and the reset input (70_reset_and_hazards.md R300); and how a host puts a command at the head of a
port's stream (log 14). -/

namespace Sys2Proof.Machine

/-- Whose step comes next: the state's list of turns says it while it lasts, after it the free value does (R12; log 9). -/
def State.nextTurn (s : State) : Turn :=
  match s.sched with
  | t :: _ => t
  | [] => Config.schedule.turn s.ticks

/-- The turn is used up. -/
def State.passTurn (s : State) : State := { s with sched := s.sched.tail, ticks := s.ticks + 1 }

/-- A header word that is no command is refused (30_encoding.md R107): a bad strap first, then an opcode that is not of this
port, then a must-be-zero bit. -/
def State.rejectWord (s : State) (e : DecodeError) : State :=
  s.takeWord.refuse
    (if !s.strapOk then .field
     else match e with
      | .illegalOpcode => .illop
      | .mustBeZero op => if op.onPort s.cur then .field else .illop)

/-- A port's step (R91): it takes the next word the host has offered, as a header or as an operand of the command in progress.
A port with no word offered waits, and the block holds its state (60_exceptions.md R279). -/
def State.portStep (s : State) (p : Port) : Result :=
  let s := { s with cur := p }
  match s.here.input with
  | [] => .next s
  | w :: _ =>
    match s.seq.phase with
    | .hdr =>
      match decode w with
      | .command i => exec i s
      | .rejected e => .next (s.rejectWord e)
    | .opnd =>
      match decode s.seq.hdr with
      | .command i => exec i s
      | .rejected _ => .fault .sequencerCorrupt

/-- A port after a reset: its streams are the host's and stay (log 12); everything else as R50 says. -/
def PortState.afterReset (q : PortState) : PortState := { PortState.reset with input := q.input, output := q.output }

/-- The release of `rst` with the strap `cfg_blklen` (R300): every piece of state at its value after reset. The model's own
fields go on. -/
def State.resetWith (s : State) (strap : BitVec 16) : State :=
  { State.resetOf s.inst strap with
    portA := s.portA.afterReset
    portB := s.portB.afterReset
    cur := s.cur
    sched := s.sched
    ticks := s.ticks }

/-- The words of a command placed as a number: the header, bit 0 its least significant bit, and then as many operand words as
it takes, each of the next 32 bits. -/
def commandWords (w : Nat) : List W32 :=
  let h := BitVec.ofNat 32 w
  match decode h with
  | .command i => h :: (List.range i.nopnd).map fun k => BitVec.ofNat 32 (w >>> (32 * (k + 1)))
  | .rejected _ => [h]

/-- A port on which the command of a header exists (30_encoding.md R94); port B for `WRCSR`, whose one writable register is
there, and port A for a word that is no command. -/
def portFor (w : Nat) : Port :=
  match decode (BitVec.ofNat 32 w) with
  | .command (.wrcsr _) => .b
  | .command i => if i.opcode.onPort .a then .a else .b
  | .rejected _ => .a

/-- The host offers a command's words before anything else on that port, the port is between commands, and its turn is next. -/
def State.offer (s : State) (w : Nat) : State :=
  let p := portFor w
  let q := s.port p
  { s.setPort p { q with input := commandWords w ++ q.input, seq := { q.seq with phase := .hdr } } with
    sched := .port p :: s.sched }

end Sys2Proof.Machine
end

