-- ==== Sys2Proof/Machine/Step.lean ====
section
/-! DEFINITION. One step of the machine: one atomic change of state by one agent (00_scope.md R12). -/

namespace Sys2Proof.Machine

/-- One step: the agent whose turn it is acts. -/
def step (s : State) : Host.Outcome State Fault Refusal :=
  match s.nextTurn with
  | .port p => s.passTurn.portStep p
  | .syncW c => .next (s.passTurn.syncW c)
  | .syncR c => .next (s.passTurn.syncR c)
  | .reset strap => .next (s.passTurn.resetWith strap)

/-- The state with the command whose header is `w` offered at a port it exists on, so that the next step takes that header
(log 14). -/
def State.withFetchWord (s : State) (_nbits w : Nat) : State := s.offer w

end Sys2Proof.Machine
end

