-- ==== Sys2Proof/Machine/Rounding.lean ====
section
/-! DEFINITION. What it is for a word to be a real number rounded to binary32 (00_scope.md R8, 40_coefficient_factory.md R127),
and that every real number has such a word. -/

namespace Sys2Proof.Machine

open Binary32

/-- `r` is the real number `v` rounded to binary32, ties to even: a finite word no other finite word is nearer than, even where
another is as near; from half a unit beyond the largest finite number on, the infinity of the number's sign. -/
def RoundsTo (v : ℝ) (r : W32) : Prop :=
  if |v| < 2 ^ 128 - 2 ^ 103 then
    Binary32.isFinite r = true ∧ ∀ w, Binary32.isFinite w = true →
      |(Binary32.value r : ℝ) - v| < |(Binary32.value w : ℝ) - v| ∨
        (|(Binary32.value r : ℝ) - v| = |(Binary32.value w : ℝ) - v| ∧
          (Binary32.value w = Binary32.value r ∨ Binary32.magBits r % 2 = 0))
  else (0 < v → r = 0x7F800000) ∧ (v < 0 → r = 0xFF800000)

/-- The distance of a real number from the finite word numbered `j`. -/
noncomputable def distAt (v : ℝ) (j : Nat) : ℝ := |((value (nthFinite j) : Rat) : ℝ) - v|

/-- Every finite word has the value of a numbered one. -/
theorem exists_nthFinite {w : W32} (h : isFinite w = true) : ∃ j ≤ 2 * maxMag, value (nthFinite j) = value w := by
  have hm : magBits w ≤ maxMag := by
    have h31 : magBits w < 2 ^ 31 := BitVec.isLt _
    unfold isFinite expField at h
    simp only [bne_iff_ne, ne_eq] at h
    have : maxMag = 255 * 2 ^ 23 - 1 := by decide
    omega
  have key : ∀ j ≤ 2 * maxMag, sunits (nthFinite j) = sunits w → ∃ j ≤ 2 * maxMag, value (nthFinite j) = value w :=
    fun j hj e => ⟨j, hj, by unfold value; rw [e]⟩
  by_cases hs : sign w = true
  · refine key (maxMag - magBits w) (by omega) ?_
    rw [sunits_nthFinite _ (by omega)]
    unfold sunits units
    rw [if_pos hs]
    rcases Nat.eq_zero_or_pos (magBits w) with h0 | h0
    · rw [h0, if_neg (by omega)]; simp [unitsOf_zero]
    · rw [if_pos (by omega), show maxMag - (maxMag - magBits w) = magBits w by omega]
  · refine key (maxMag + magBits w) (by omega) ?_
    rw [sunits_nthFinite _ (by omega), if_neg (by omega), show maxMag + magBits w - maxMag = magBits w by omega]
    unfold sunits units
    rw [if_neg hs]

theorem value_strictMono {i j : Nat} (hij : i < j) (hj : j ≤ 2 * maxMag) :
    ((value (nthFinite i) : Rat) : ℝ) < ((value (nthFinite j) : Rat) : ℝ) := by
  have : value (nthFinite i) < value (nthFinite j) := by
    unfold value
    apply div_lt_div_of_pos_right _ (by positivity)
    exact_mod_cast sunits_strictMono hij hj
  exact_mod_cast this

/-- Two nearest numbered words are neighbours, so one of them is even. -/
theorem nearest_even_or_only {v : ℝ} {i j : Nat} (hi : ∀ k ≤ 2 * maxMag, distAt v i ≤ distAt v k)
    (hj : ∀ k ≤ 2 * maxMag, distAt v j ≤ distAt v k) (hij : i < j) (hb : j ≤ 2 * maxMag) :
    magBits (nthFinite i) % 2 = 0 ∨ magBits (nthFinite j) % 2 = 0 := by
  have he : j = i + 1 := by
    by_contra hne
    have h1 := value_strictMono (show i < i + 1 by omega) (by omega)
    have h2 := value_strictMono (show i + 1 < j by omega) hb
    have a1 := hi (i + 1) (by omega)
    have a2 := hj (i + 1) (by omega)
    unfold distAt at a1 a2
    rcases le_total ((value (nthFinite (i + 1)) : Rat) : ℝ) v with h | h
    · rw [abs_of_nonpos (by linarith), abs_of_nonpos (by linarith)] at a1; linarith
    · rw [abs_of_nonneg (by linarith), abs_of_nonneg (by linarith)] at a2; linarith
  subst he
  rw [magBits_nthFinite i (by omega), magBits_nthFinite (i + 1) hb]
  split <;> split <;> omega

/-- Every real number rounds to some word. -/
theorem exists_roundsTo (v : ℝ) : ∃ r, RoundsTo v r := by
  by_cases hv : |v| < 2 ^ 128 - 2 ^ 103
  · unfold RoundsTo
    simp only [if_pos hv]
    obtain ⟨i, hmem, hmin⟩ := Finset.exists_min_image (Finset.range (2 * maxMag + 1)) (distAt v) ⟨0, by simp⟩
    have hi : i ≤ 2 * maxMag := by rw [Finset.mem_range] at hmem; omega
    have hmin' : ∀ k ≤ 2 * maxMag, distAt v i ≤ distAt v k := fun k hk => hmin k (by rw [Finset.mem_range]; omega)
    by_cases hev : ∃ r ≤ 2 * maxMag, distAt v r = distAt v i ∧ magBits (nthFinite r) % 2 = 0
    · obtain ⟨r, hr, hd, he⟩ := hev
      refine ⟨nthFinite r, isFinite_nthFinite r hr, fun w hw => ?_⟩
      obtain ⟨k, hk, hkv⟩ := exists_nthFinite hw
      rw [← hkv]
      rcases lt_or_eq_of_le (hd ▸ hmin' k hk) with h | h
      · exact .inl h
      · exact .inr ⟨h, .inr he⟩
    · refine ⟨nthFinite i, isFinite_nthFinite i hi, fun w hw => ?_⟩
      obtain ⟨k, hk, hkv⟩ := exists_nthFinite hw
      rw [← hkv]
      rcases lt_or_eq_of_le (hmin' k hk) with h | h
      · exact .inl h
      · refine .inr ⟨h, .inl ?_⟩
        have hmink : ∀ l ≤ 2 * maxMag, distAt v k ≤ distAt v l := fun l hl => h ▸ hmin' l hl
        have no : ∀ r ≤ 2 * maxMag, distAt v r = distAt v i → magBits (nthFinite r) % 2 ≠ 0 :=
          fun r hr hd he => hev ⟨r, hr, hd, he⟩
        rcases Nat.lt_trichotomy i k with hlt | heq | hgt
        · rcases nearest_even_or_only hmin' hmink hlt hk with e | e
          · exact absurd e (no i hi rfl)
          · exact absurd e (no k hk h.symm)
        · rw [heq]
        · rcases nearest_even_or_only hmink hmin' hgt hi with e | e
          · exact absurd e (no k hk h.symm)
          · exact absurd e (no i hi rfl)
  · rcases lt_or_ge 0 v with h | h
    · exact ⟨0x7F800000, by unfold RoundsTo; rw [if_neg hv]; exact ⟨fun _ => rfl, fun h' => absurd h (not_lt.mpr h'.le)⟩⟩
    · exact ⟨0xFF800000, by unfold RoundsTo; rw [if_neg hv]; exact ⟨fun h' => absurd h' (not_lt.mpr h), fun _ => rfl⟩⟩

end Sys2Proof.Machine
end

