-- ==== Sys2Proof/Machine/ReferenceDesign.lean ====
section
/-! DEFINITION. Filter designs in real numbers: the division by a0 (40_coefficient_factory.md R127), the magnitude response of
sections and chains (R128), and the reference design formulas (R129, R130), which are from general knowledge and not normative
(93_implementation_defined.md G1, G2). No step of the block uses any of it. The theorems show that the reference cut filters
are a high-pass and a low-pass, so that a factory with the contract of R122 to R127 exists. -/

namespace Sys2Proof.Machine

/-- A section with real coefficients, a0 = 1 (R127, R128). -/
structure RealSection where
  b0 : ℝ
  b1 : ℝ
  b2 : ℝ
  a1 : ℝ
  a2 : ℝ

/-- The six numbers a design formula yields, a0 still among them (R127). -/
structure RawSection where
  b0 : ℝ
  b1 : ℝ
  b2 : ℝ
  a0 : ℝ
  a1 : ℝ
  a2 : ℝ

/-- "a design that yields an a0 other than 1 divides all six numbers by it and drops it" (R127). -/
noncomputable def RawSection.normalize (r : RawSection) : RealSection :=
  { b0 := r.b0 / r.a0, b1 := r.b1 / r.a0, b2 := r.b2 / r.a0, a1 := r.a1 / r.a0, a2 := r.a2 / r.a0 }

/-- A design that yields an a0 of 1. -/
def RealSection.raw (k : RealSection) : RawSection :=
  { b0 := k.b0, b1 := k.b1, b2 := k.b2, a0 := 1, a1 := k.a1, a2 := k.a2 }

@[simp] theorem RealSection.normalize_raw (k : RealSection) : k.raw.normalize = k := by
  cases k; simp [RealSection.raw, RawSection.normalize]

/-! ### The magnitude response (R128) -/

/-- `z1 = exp(-i*2*pi*f/fs)` (R128). -/
noncomputable def unitDelay (f fs : ℝ) : ℂ := Complex.exp (-(Complex.I * (2 * Real.pi * f / fs)))

/-- The numerator of the transfer function (R128). -/
noncomputable def RealSection.numerator (k : RealSection) (f fs : ℝ) : ℂ :=
  k.b0 + k.b1 * unitDelay f fs + k.b2 * unitDelay f fs ^ 2

/-- The denominator of the transfer function (R128). -/
noncomputable def RealSection.denominator (k : RealSection) (f fs : ℝ) : ℂ :=
  1 + k.a1 * unitDelay f fs + k.a2 * unitDelay f fs ^ 2

/-- The magnitude response of a section (R128); at a pole on the unit circle, where the rule's quotient has no value, Lean's
quotient is 0 (DESIGN CHOICE, log 30). -/
noncomputable def RealSection.response (k : RealSection) (f fs : ℝ) : ℝ :=
  ‖k.numerator f fs / k.denominator f fs‖

/-- The response of sections in series: the product of theirs (R128). -/
noncomputable def cascadeResponse (l : List RealSection) (f fs : ℝ) : ℝ := (l.map fun k => k.response f fs).prod

open Classical in
/-- A response in decibels: `20*log10` (R128); of a response of 0, for which the rule states none, minus infinity (DESIGN
CHOICE, log 30). -/
noncomputable def decibels (r : ℝ) : EReal := if r = 0 then ⊥ else ((20 * Real.logb 10 r : ℝ) : EReal)

/-- FREE VALUE (log 31): the real number an infinity or a NaN stands for in a response. R128 speaks of real coefficients only. -/
noncomputable opaque Config.nonFiniteCoef : W32 → ℝ

/-- A coefficient word as a real number: its value where it is finite; an infinity or a NaN has none, and counts as a free
value (DESIGN CHOICE, log 31). -/
noncomputable def coefReal (w : W32) : ℝ := if Binary32.isFinite w then (Binary32.value w : ℝ) else Config.nonFiniteCoef w

/-- The coefficient words of a slot as real numbers (R128: "a section with real coefficients"); what infinite and NaN words
count as is open (log 31). -/
noncomputable def Coefs.toReal (k : Coefs) : RealSection :=
  { b0 := coefReal k.b0, b1 := coefReal k.b1, b2 := coefReal k.b2, a1 := coefReal k.a1, a2 := coefReal k.a2 }

/-- The response of a chain: "product of magnitude responses of every active, non-bypassed section across all three stages"
(R128). -/
noncomputable def chainResponse (v : Slots) (f fs : ℝ) : ℝ :=
  cascadeResponse ((v.toList.filter fun r => !r.byp).map fun r => r.coef.toReal) f fs

/-- The response of a chain in decibels (R128). -/
noncomputable def chainResponseDb (v : Slots) (f fs : ℝ) : EReal := decibels (chainResponse v f fs)

/-- Sections in series attenuate below a corner: each frequency below it has a smaller response than Nyquist, the far end of
the passband (R124 "attenuates below its corner (high-pass)"; against which frequency is the model's reading: DESIGN CHOICE,
log 27). -/
def AttenuatesBelow (l : List RealSection) (corner fs : ℝ) : Prop :=
  ∀ f, 0 ≤ f → f < corner → cascadeResponse l f fs < cascadeResponse l (fs / 2) fs

/-- Sections in series attenuate above a corner: each frequency above it, up to Nyquist, has a smaller response than frequency
0, the far end of the passband (R124 "attenuates above its corner (low-pass)"; log 27). -/
def AttenuatesAbove (l : List RealSection) (corner fs : ℝ) : Prop :=
  ∀ f, corner < f → f ≤ fs / 2 → cascadeResponse l f fs < cascadeResponse l 0 fs

/-! ### The reference formulas (R129, R130) -/

/-- The linear gain of a peak, `gain = 10^(dB/20)` (R123). -/
noncomputable def linearGain (gainDb : ℝ) : ℝ := (10 : ℝ) ^ (gainDb / 20)

/-- The peaking-EQ section, before the division by a0 (R129). -/
noncomputable def peakDesign (freq quality gain fs : ℝ) : RawSection :=
  let A := Real.sqrt gain
  let w := 2 * Real.pi * max freq 2 / fs
  let alpha := Real.sin w / (2 * quality)
  { b0 := 1 + alpha * A, b1 := -2 * Real.cos w, b2 := 1 - alpha * A
    a0 := 1 + alpha / A, a1 := -2 * Real.cos w, a2 := 1 - alpha / A }

/-- A section that passes every sample. -/
def unitySection : RealSection := { b0 := 1, b1 := 0, b2 := 0, a1 := 0, a2 := 0 }

/-- The quality of section `i` of an order-`n` Butterworth filter (R130). -/
noncomputable def butterworthQ (n i : Nat) : ℝ := 1 / (2 * Real.cos ((2 * i + 1) * Real.pi / (2 * n)))

/-- A high-pass section for `t = tan(pi*fc/fs)` and a quality (R130). -/
noncomputable def highPassSection (t q : ℝ) : RealSection :=
  let c := 1 / (1 + t / q + t ^ 2)
  { b0 := c, b1 := -2 * c, b2 := c, a1 := 2 * c * (t ^ 2 - 1), a2 := c * (1 - t / q + t ^ 2) }

/-- A low-pass section for `u = 1/t` and a quality (R130). -/
noncomputable def lowPassSection (u q : ℝ) : RealSection :=
  let c := 1 / (1 + u / q + u ^ 2)
  { b0 := c, b1 := 2 * c, b2 := c, a1 := 2 * c * (1 - u ^ 2), a2 := c * (1 - u / q + u ^ 2) }

/-- The order-`n` high-pass design, the low-cut: sections `0 .. n/2 - 1` (R130). -/
noncomputable def highPassDesign (n : Nat) (fc fs : ℝ) : List RealSection :=
  (List.range (n / 2)).map fun i => highPassSection (Real.tan (Real.pi * fc / fs)) (butterworthQ n i)

/-- The order-`n` low-pass design, the high-cut: sections `0 .. n/2 - 1` (R130). -/
noncomputable def lowPassDesign (n : Nat) (fc fs : ℝ) : List RealSection :=
  (List.range (n / 2)).map fun i => lowPassSection (1 / Real.tan (Real.pi * fc / fs)) (butterworthQ n i)

/-! ### The reference cut filters are a high-pass and a low-pass -/

/-- Half the angle of a frequency: the response depends on its sine and cosine. -/
noncomputable def halfAngle (f fs : ℝ) : ℝ := Real.pi * f / fs

/-- `sin²` of half the angle. -/
noncomputable def sinSq (f fs : ℝ) : ℝ := Real.sin (halfAngle f fs) ^ 2

/-- `cos²` of half the angle. -/
noncomputable def cosSq (f fs : ℝ) : ℝ := Real.cos (halfAngle f fs) ^ 2

theorem cosSq_add_sinSq (f fs : ℝ) : cosSq f fs + sinSq f fs = 1 := by
  unfold cosSq sinSq; exact Real.cos_sq_add_sin_sq _

theorem unitDelay_eq (f fs : ℝ) :
    unitDelay f fs = ((Real.cos (halfAngle f fs) : ℂ) - Real.sin (halfAngle f fs) * Complex.I) ^ 2 := by
  have h : -(Complex.I * (2 * Real.pi * f / fs)) = ((2 : ℕ) : ℂ) * (-(halfAngle f fs : ℂ) * Complex.I) := by
    unfold halfAngle; push_cast; ring
  unfold unitDelay
  rw [h, Complex.exp_nat_mul, Complex.exp_mul_I, Complex.cos_neg, Complex.sin_neg, Complex.ofReal_cos, Complex.ofReal_sin]
  ring

/-- The squared magnitude of a real quadratic in the unit delay. -/
theorem normSq_quadratic (p q r f fs : ℝ) :
    ‖(p : ℂ) + q * unitDelay f fs + r * unitDelay f fs ^ 2‖ ^ 2 =
      ((p + r) * (cosSq f fs - sinSq f fs) + q) ^ 2 + 4 * (p - r) ^ 2 * (sinSq f fs * cosSq f fs) := by
  set c := Real.cos (halfAngle f fs) with hc
  set s := Real.sin (halfAngle f fs) with hs
  have h1 : c ^ 2 + s ^ 2 = 1 := Real.cos_sq_add_sin_sq _
  have hz : unitDelay f fs = ((c ^ 2 - s ^ 2 : ℝ) : ℂ) + ((-(2 * s * c) : ℝ) : ℂ) * Complex.I := by
    rw [unitDelay_eq, ← hc, ← hs]
    push_cast
    linear_combination (s : ℂ) ^ 2 * Complex.I_sq
  have hw : (p : ℂ) + q * unitDelay f fs + r * unitDelay f fs ^ 2 =
      ((p + q * (c ^ 2 - s ^ 2) + r * ((c ^ 2 - s ^ 2) ^ 2 - (2 * s * c) ^ 2) : ℝ) : ℂ) +
        ((q * -(2 * s * c) + r * (2 * (c ^ 2 - s ^ 2) * -(2 * s * c)) : ℝ) : ℂ) * Complex.I := by
    rw [hz]; push_cast
    linear_combination (r : ℂ) * (2 * s * c) ^ 2 * Complex.I_sq
  rw [hw, Complex.sq_norm, Complex.normSq_add_mul_I]
  unfold cosSq sinSq
  rw [← hc, ← hs]
  have hS : s ^ 2 = 1 - c ^ 2 := by linarith
  have e1 : (2 * s * c) ^ 2 = 4 * c ^ 2 * (1 - c ^ 2) := by rw [mul_pow, mul_pow, hS]; ring
  have e2 : (q * -(2 * s * c) + r * (2 * (c ^ 2 - s ^ 2) * -(2 * s * c))) ^ 2 =
      (2 * s * c) ^ 2 * (q + 2 * r * (c ^ 2 - s ^ 2)) ^ 2 := by ring
  rw [e2, e1, hS]
  ring

/-- A section's squared response. -/
theorem response_sq (k : RealSection) (f fs : ℝ) :
    k.response f fs ^ 2 =
      (((k.b0 + k.b2) * (cosSq f fs - sinSq f fs) + k.b1) ^ 2 + 4 * (k.b0 - k.b2) ^ 2 * (sinSq f fs * cosSq f fs)) /
      (((1 + k.a2) * (cosSq f fs - sinSq f fs) + k.a1) ^ 2 + 4 * (1 - k.a2) ^ 2 * (sinSq f fs * cosSq f fs)) := by
  have hn := normSq_quadratic k.b0 k.b1 k.b2 f fs
  have hd := normSq_quadratic 1 k.a1 k.a2 f fs
  unfold RealSection.response RealSection.numerator RealSection.denominator
  rw [norm_div, div_pow, hn]
  rw [Complex.ofReal_one] at hd
  rw [hd]

/-- The squared response of a Butterworth section in `A` and `B`: the two shares of the signal that pass and that are cut. -/
noncomputable def butterworthShare (q A B : ℝ) : ℝ := A ^ 2 / (A ^ 2 + ((1 / q) ^ 2 - 2) * (A * B) + B ^ 2)

/-- The sum and the difference of 1 and a2, for both kinds of section. -/
theorem one_add_a2 {x q D : ℝ} (hD : D ≠ 0) (h : D = 1 + x / q + x ^ 2) :
    1 + 1 / D * (1 - x / q + x ^ 2) = 1 / D * (2 * (1 + x ^ 2)) ∧
      1 - 1 / D * (1 - x / q + x ^ 2) = 1 / D * (2 * x * (1 / q)) := by
  have e : 1 / D * D = 1 := one_div_mul_cancel hD
  constructor
  · linear_combination (-1 : ℝ) * e + 1 / D * h
  · linear_combination (-1 : ℝ) * e + 1 / D * h

theorem highPassSection_sq {t q : ℝ} (ht : 0 < t) (hq : 0 < q) (f fs : ℝ) :
    (highPassSection t q).response f fs ^ 2 = butterworthShare q (sinSq f fs) (t ^ 2 * cosSq f fs) := by
  have hD : (0 : ℝ) < 1 + t / q + t ^ 2 := by positivity
  have h1 := cosSq_add_sinSq f fs
  rw [response_sq]
  unfold highPassSection butterworthShare
  generalize cosSq f fs = C at *
  generalize sinSq f fs = S at *
  obtain ⟨e2, e3⟩ := one_add_a2 hD.ne' rfl
  generalize 1 + t / q + t ^ 2 = D at *
  simp only
  have e1 : (1 / D + 1 / D) * (C - S) + -2 * (1 / D) = 1 / D * (-4 * S) := by linear_combination 2 * (1 / D) * h1
  have e4 : 1 / D * (2 * (1 + t ^ 2)) * (C - S) + 2 * (1 / D) * (t ^ 2 - 1) = 1 / D * (4 * (t ^ 2 * C - S)) := by
    linear_combination (-(2 * (1 / D) * (t ^ 2 - 1))) * h1
  rw [e1, e2, e3, e4]
  rw [show (1 / D * (4 * (t ^ 2 * C - S))) ^ 2 + 4 * (1 / D * (2 * t * (1 / q))) ^ 2 * (S * C) =
    (16 / D ^ 2) * (S ^ 2 + ((1 / q) ^ 2 - 2) * (S * (t ^ 2 * C)) + (t ^ 2 * C) ^ 2) by ring,
    show (1 / D * (-4 * S)) ^ 2 + 4 * (1 / D - 1 / D) ^ 2 * (S * C) = (16 / D ^ 2) * S ^ 2 by ring]
  exact mul_div_mul_left _ _ (by positivity)

theorem lowPassSection_sq {u q : ℝ} (hu : 0 < u) (hq : 0 < q) (f fs : ℝ) :
    (lowPassSection u q).response f fs ^ 2 = butterworthShare q (cosSq f fs) (u ^ 2 * sinSq f fs) := by
  have hD : (0 : ℝ) < 1 + u / q + u ^ 2 := by positivity
  have h1 := cosSq_add_sinSq f fs
  rw [response_sq]
  unfold lowPassSection butterworthShare
  generalize cosSq f fs = C at *
  generalize sinSq f fs = S at *
  obtain ⟨e2, e3⟩ := one_add_a2 hD.ne' rfl
  generalize 1 + u / q + u ^ 2 = D at *
  simp only
  have e1 : (1 / D + 1 / D) * (C - S) + 2 * (1 / D) = 1 / D * (4 * C) := by linear_combination -2 * (1 / D) * h1
  have e4 : 1 / D * (2 * (1 + u ^ 2)) * (C - S) + 2 * (1 / D) * (1 - u ^ 2) = 1 / D * (4 * (C - u ^ 2 * S)) := by
    linear_combination (-(2 * (1 / D) * (1 - u ^ 2))) * h1
  rw [e1, e2, e3, e4]
  rw [show (1 / D * (4 * (C - u ^ 2 * S))) ^ 2 + 4 * (1 / D * (2 * u * (1 / q))) ^ 2 * (S * C) =
    (16 / D ^ 2) * (C ^ 2 + ((1 / q) ^ 2 - 2) * (C * (u ^ 2 * S)) + (u ^ 2 * S) ^ 2) by ring,
    show (1 / D * (4 * C)) ^ 2 + 4 * (1 / D - 1 / D) ^ 2 * (S * C) = (16 / D ^ 2) * C ^ 2 by ring]
  exact mul_div_mul_left _ _ (by positivity)

/-- The shares of the sections of an order-`n` filter in series. -/
noncomputable def butterworthProduct (n : Nat) (A B : ℝ) : ℝ :=
  ((List.range (n / 2)).map fun i => butterworthShare (butterworthQ n i) A B).prod

theorem cos_butterworth_pos {n i : Nat} (h : i < n / 2) : 0 < Real.cos ((2 * i + 1) * Real.pi / (2 * n)) := by
  have hn : (0 : ℝ) < n := by exact_mod_cast (by omega : 0 < n)
  have hi : (2 * (i : ℝ) + 1) < n := by exact_mod_cast (by omega : 2 * i + 1 < n)
  apply Real.cos_pos_of_mem_Ioo
  have hp := Real.pi_pos
  constructor
  · have : (0 : ℝ) ≤ (2 * i + 1) * Real.pi / (2 * n) := by positivity
    linarith
  · rw [div_lt_div_iff₀ (by positivity) (by norm_num)]
    nlinarith

theorem butterworthQ_pos {n i : Nat} (h : i < n / 2) : 0 < butterworthQ n i := by
  have := cos_butterworth_pos h
  unfold butterworthQ
  positivity

/-- A section's middle term: `(1/Q)^2 - 2 = 2*cos` of twice the pole angle. -/
theorem inv_butterworthQ_sq (n i : Nat) :
    (1 / butterworthQ n i) ^ 2 - 2 = 2 * Real.cos ((2 * i + 1) * Real.pi / n) := by
  unfold butterworthQ
  rw [one_div_one_div, show (2 * (i : ℝ) + 1) * Real.pi / n = 2 * ((2 * i + 1) * Real.pi / (2 * n)) by
    rcases eq_or_ne (n : ℝ) 0 with h | h
    · simp [h]
    · field_simp, Real.cos_two_mul]
  ring

/-- The denominators multiply out: the sections of an order-`n` filter in series are maximally flat. -/
theorem butterworthProduct_eq (k : Nat) (hk : k < 4) (A B : ℝ) :
    butterworthProduct (2 * (k + 1)) A B = A ^ (2 * (k + 1)) / (A ^ (2 * (k + 1)) + B ^ (2 * (k + 1))) := by
  have mirror (x : ℝ) : Real.cos (Real.pi - x) = -Real.cos x := Real.cos_pi_sub x
  obtain rfl | rfl | rfl | rfl : k = 0 ∨ k = 1 ∨ k = 2 ∨ k = 3 := by omega
  all_goals
    simp only [butterworthProduct, butterworthShare, inv_butterworthQ_sq, List.range, List.range.loop, List.map,
      List.prod_cons, List.prod_nil, Nat.reduceAdd, Nat.reduceMul, Nat.reduceDiv, Nat.cast_ofNat, Nat.cast_zero, Nat.cast_one]
  · rw [show ((2 : ℝ) * 0 + 1) * Real.pi / 2 = Real.pi / 2 by ring, Real.cos_pi_div_two]
    ring_nf
  · have a : Real.cos (Real.pi / 4) ^ 2 = 1 / 2 := by
      rw [Real.cos_pi_div_four, div_pow, Real.sq_sqrt (by norm_num)]; norm_num
    rw [show ((2 : ℝ) * 0 + 1) * Real.pi / 4 = Real.pi / 4 by ring,
      show ((2 : ℝ) * 1 + 1) * Real.pi / 4 = Real.pi - Real.pi / 4 by ring, mirror]
    generalize Real.cos (Real.pi / 4) = x at *
    rw [mul_one, div_mul_div_comm, show A ^ 4 = A ^ 2 * A ^ 2 by ring]
    congr 1
    linear_combination (-(4 : ℝ) * A ^ 2 * B ^ 2) * a
  · have a : Real.cos (Real.pi / 6) ^ 2 = 3 / 4 := by
      rw [Real.cos_pi_div_six, div_pow, Real.sq_sqrt (by norm_num)]; norm_num
    rw [show ((2 : ℝ) * 0 + 1) * Real.pi / 6 = Real.pi / 6 by ring,
      show ((2 : ℝ) * 1 + 1) * Real.pi / 6 = Real.pi / 2 by ring,
      show ((2 : ℝ) * 2 + 1) * Real.pi / 6 = Real.pi - Real.pi / 6 by ring, mirror, Real.cos_pi_div_two]
    generalize Real.cos (Real.pi / 6) = x at *
    rw [mul_one, div_mul_div_comm, div_mul_div_comm, show A ^ 6 = A ^ 2 * (A ^ 2 * A ^ 2) by ring]
    congr 1
    linear_combination (-(4 : ℝ) * A ^ 2 * B ^ 2 * (A ^ 2 + B ^ 2)) * a
  · have h3 : Real.cos (3 * Real.pi / 8) = Real.sin (Real.pi / 8) := by
      rw [← Real.cos_pi_div_two_sub]; congr 1; ring
    have a := Real.cos_sq_add_sin_sq (Real.pi / 8)
    have b : 4 * Real.sin (Real.pi / 8) ^ 2 * Real.cos (Real.pi / 8) ^ 2 = 1 / 2 := by
      have h := Real.sin_two_mul (Real.pi / 8)
      rw [show 2 * (Real.pi / 8) = Real.pi / 4 by ring, Real.sin_pi_div_four] at h
      have h' : (Real.sqrt 2 / 2) ^ 2 = 1 / 2 := by rw [div_pow, Real.sq_sqrt (by norm_num)]; norm_num
      rw [h] at h'
      linear_combination h'
    rw [show ((2 : ℝ) * 0 + 1) * Real.pi / 8 = Real.pi / 8 by ring,
      show ((2 : ℝ) * 1 + 1) * Real.pi / 8 = 3 * Real.pi / 8 by ring,
      show ((2 : ℝ) * 2 + 1) * Real.pi / 8 = Real.pi - 3 * Real.pi / 8 by ring,
      show ((2 : ℝ) * 3 + 1) * Real.pi / 8 = Real.pi - Real.pi / 8 by ring, mirror, mirror, h3]
    generalize Real.cos (Real.pi / 8) = x at *
    generalize Real.sin (Real.pi / 8) = y at *
    rw [mul_one, div_mul_div_comm, div_mul_div_comm, div_mul_div_comm, show A ^ 8 = A ^ 2 * (A ^ 2 * (A ^ 2 * A ^ 2)) by ring]
    congr 1
    linear_combination (-(4 : ℝ) * A ^ 2 * B ^ 2 * (A ^ 2 + B ^ 2) ^ 2) * a + (4 * A ^ 4 * B ^ 4) * b

theorem butterworthProduct_lt_one {k : Nat} (hk : k < 4) {A B : ℝ} (hB : 0 < B) :
    butterworthProduct (2 * (k + 1)) A B < 1 := by
  rw [butterworthProduct_eq k hk, pow_mul]
  have ha : (0 : ℝ) ≤ (A ^ 2) ^ (k + 1) := by positivity
  have hb : (0 : ℝ) < B ^ (2 * (k + 1)) := by positivity
  rw [div_lt_one (by positivity)]
  linarith

theorem butterworthProduct_one_zero {k : Nat} (hk : k < 4) : butterworthProduct (2 * (k + 1)) 1 0 = 1 := by
  rw [butterworthProduct_eq k hk]
  simp

theorem RealSection.response_nonneg (k : RealSection) (f fs : ℝ) : 0 ≤ k.response f fs := norm_nonneg _

theorem cascadeResponse_nonneg (l : List RealSection) (f fs : ℝ) : 0 ≤ cascadeResponse l f fs :=
  List.prod_nonneg fun _ h => by
    obtain ⟨k, -, rfl⟩ := List.mem_map.mp h
    exact k.response_nonneg f fs

/-- The squared response of sections in series is the product of theirs. -/
theorem cascadeResponse_sq (l : List RealSection) (f fs : ℝ) :
    cascadeResponse l f fs ^ 2 = (l.map fun k => k.response f fs ^ 2).prod := by
  unfold cascadeResponse
  induction l with
  | nil => simp
  | cons k l ih => simp only [List.map_cons, List.prod_cons, mul_pow, ih]

theorem highPassDesign_sq {n : Nat} {fc fs : ℝ} (ht : 0 < Real.tan (Real.pi * fc / fs)) (f : ℝ) :
    cascadeResponse (highPassDesign n fc fs) f fs ^ 2 =
      butterworthProduct n (sinSq f fs) (Real.tan (Real.pi * fc / fs) ^ 2 * cosSq f fs) := by
  rw [cascadeResponse_sq, highPassDesign, List.map_map, butterworthProduct]
  congr 1
  exact List.map_congr_left fun i hi => highPassSection_sq ht (butterworthQ_pos (List.mem_range.mp hi)) f fs

theorem lowPassDesign_sq {n : Nat} {fc fs : ℝ} (ht : 0 < Real.tan (Real.pi * fc / fs)) (f : ℝ) :
    cascadeResponse (lowPassDesign n fc fs) f fs ^ 2 =
      butterworthProduct n (cosSq f fs) ((1 / Real.tan (Real.pi * fc / fs)) ^ 2 * sinSq f fs) := by
  rw [cascadeResponse_sq, lowPassDesign, List.map_map, butterworthProduct]
  congr 1
  exact List.map_congr_left fun i hi => lowPassSection_sq (one_div_pos.mpr ht) (butterworthQ_pos (List.mem_range.mp hi)) f fs

theorem tan_pos_of_valid {fc fs : ℝ} (h0 : 0 < fc) (h1 : 2 * fc < fs) : 0 < Real.tan (Real.pi * fc / fs) := by
  have hp := Real.pi_pos
  apply Real.tan_pos_of_pos_of_lt_pi_div_two (by have : 0 < fs := by linarith
                                                 positivity)
  rw [div_lt_div_iff₀ (by linarith) (by norm_num)]
  nlinarith

theorem cosSq_pos {f fs : ℝ} (h0 : 0 ≤ f) (h1 : 2 * f < fs) : 0 < cosSq f fs := by
  have hp := Real.pi_pos
  apply pow_pos
  apply Real.cos_pos_of_mem_Ioo
  unfold halfAngle
  constructor
  · have : 0 ≤ Real.pi * f / fs := div_nonneg (by positivity) (by linarith)
    linarith
  · rw [div_lt_div_iff₀ (by linarith) (by norm_num)]
    nlinarith

theorem sinSq_pos {f fs : ℝ} (h0 : 0 < f) (h1 : 2 * f ≤ fs) : 0 < sinSq f fs := by
  have hp := Real.pi_pos
  apply pow_pos
  apply Real.sin_pos_of_pos_of_lt_pi
  · unfold halfAngle
    have : 0 < fs := by linarith
    positivity
  · unfold halfAngle
    rw [div_lt_iff₀ (by linarith)]
    nlinarith

/-- The reference low-cut is a high-pass (R124, R130). -/
theorem highPassDesign_attenuates {k : Nat} (hk : k < 4) {fc fs : ℝ} (h0 : 0 < fc) (h1 : 2 * fc < fs) :
    AttenuatesBelow (highPassDesign (2 * (k + 1)) fc fs) fc fs := by
  intro f hf hfc
  have ht := tan_pos_of_valid h0 h1
  have hs : fs ≠ 0 := by linarith
  apply lt_of_pow_lt_pow_left₀ 2 (cascadeResponse_nonneg _ _ _)
  rw [highPassDesign_sq ht, highPassDesign_sq ht]
  have hh : halfAngle (fs / 2) fs = Real.pi / 2 := by unfold halfAngle; field_simp
  have hn : sinSq (fs / 2) fs = 1 ∧ cosSq (fs / 2) fs = 0 := by
    unfold sinSq cosSq
    rw [hh, Real.sin_pi_div_two, Real.cos_pi_div_two]
    norm_num
  rw [hn.1, hn.2, mul_zero, butterworthProduct_one_zero hk]
  exact butterworthProduct_lt_one hk (mul_pos (pow_pos ht 2) (cosSq_pos hf (by linarith)))

/-- The reference high-cut is a low-pass (R124, R130). -/
theorem lowPassDesign_attenuates {k : Nat} (hk : k < 4) {fc fs : ℝ} (h0 : 0 < fc) (h1 : 2 * fc < fs) :
    AttenuatesAbove (lowPassDesign (2 * (k + 1)) fc fs) fc fs := by
  intro f hf hfs
  have ht := tan_pos_of_valid h0 h1
  apply lt_of_pow_lt_pow_left₀ 2 (cascadeResponse_nonneg _ _ _)
  rw [lowPassDesign_sq ht, lowPassDesign_sq ht]
  have hn : sinSq 0 fs = 0 ∧ cosSq 0 fs = 1 := by simp [sinSq, cosSq, halfAngle]
  rw [hn.1, hn.2, mul_zero, butterworthProduct_one_zero hk]
  exact butterworthProduct_lt_one hk (mul_pos (pow_pos (one_div_pos.mpr ht) 2) (sinSq_pos (by linarith) (by linarith)))

end Sys2Proof.Machine
end

