-- ==== Sys2Proof/Machine/Factory.lean ====
section
/-! DEFINITION. The host's side of the interface: the contract of the Coefficient Factory (40_coefficient_factory.md R120 to
R127) and the pseudo-instructions a host sends (30_encoding.md R109). No step of the block uses any of it: the block receives
coefficient words (R120). -/

namespace Sys2Proof.Machine

open Binary32

/-- The slope enumeration (R121, R122). -/
inductive Slope where
  | db12
  | db24
  | db36
  | db48
  deriving DecidableEq, Repr

/-- The slope index (R122), which is the slope code of `BQ.CUTUPD`. -/
def Slope.index : Slope → Nat
  | .db12 => 0
  | .db24 => 1
  | .db36 => 2
  | .db48 => 3

/-- The filter order, `2*(slope index + 1)` (R122). -/
def Slope.order (k : Slope) : Nat := 2 * (k.index + 1)

/-- The slope code a host puts in the header of `BQ.CUTUPD` (R122). -/
def Slope.code (k : Slope) : BitVec 4 := BitVec.ofNat 4 k.index

/-- ChainSettings (R121); that each float is a binary32 word is the model's choice (DESIGN CHOICE, log 28). -/
structure ChainSettings where
  peakFreq : W32
  peakGainDb : W32
  peakQuality : W32
  lowCutFreq : W32
  highCutFreq : W32
  lowCutSlope : Slope
  highCutSlope : Slope
  deriving DecidableEq, Repr

/-! ### Preconditions (R125)

The sample rate is "in Hz and greater than zero" (R121), and the spec gives it no number format: that it is a binary32 word is
the model's choice (DESIGN CHOICE, log 28). -/

/-- A frequency inside (0, Nyquist), Nyquist being half the sample rate (R125). -/
def freqOk (rate f : W32) : Prop := isFinite f = true ∧ 0 < value f ∧ 2 * value f < value rate

/-- A frequency outside (0, Nyquist) (R125): not above 0, or at or above half of a finite rate. A NaN is outside (log 28). -/
def freqOutside (rate f : W32) : Prop := fgt f 0 = false ∨ (isFinite rate = true ∧ ¬ freqOk rate f)

/-- A quality that is not above 0 (R125); a NaN is not meant (log 28). -/
def qualityTooLow (q : W32) : Prop := isNaN q = false ∧ fgt q 0 = false

/-- The factory's failure: "if frequency is outside (0, Nyquist) or quality ≤ 0" (R125). -/
def ChainSettings.Fails (k : ChainSettings) (rate : W32) : Prop :=
  freqOutside rate k.peakFreq ∨ freqOutside rate k.lowCutFreq ∨ freqOutside rate k.highCutFreq ∨ qualityTooLow k.peakQuality

/-- Settings inside the preconditions (R125) whose numbers are all finite. R125 says nothing about a gain, a quality or a rate
that is infinite or NaN; such settings neither fail nor are valid here, and what the factory gives for them is left free
(DESIGN CHOICE, log 28). -/
def ChainSettings.Valid (k : ChainSettings) (rate : W32) : Prop :=
  isFinite rate = true ∧ freqOk rate k.peakFreq ∧ freqOk rate k.lowCutFreq ∧ freqOk rate k.highCutFreq ∧
    isFinite k.peakQuality = true ∧ 0 < value k.peakQuality ∧ isFinite k.peakGainDb = true

/-! ### The contract -/

/-- What the factory produces: the peak section and the two cut-stage coefficient sets, section 0 first (R123, R124). -/
structure Design where
  peak : Coefs
  lowCut : List Coefs
  highCut : List Coefs
  deriving DecidableEq, Repr

/-- A cut-filter design's contract: for every slope and every corner inside (0, Nyquist) it yields `order/2` sections (R122,
R124), each of which can be divided by its a0 (R127), and the sections in series attenuate on the named side of the corner
(R124). -/
structure CutContract (design : Nat → ℝ → ℝ → List RawSection) (attenuates : List RealSection → ℝ → ℝ → Prop) : Prop where
  sections : ∀ (k : Slope) (freq rate : ℝ), 0 < freq → 2 * freq < rate → (design k.order freq rate).length = k.order / 2
  divisible : ∀ (k : Slope) (freq rate : ℝ), 0 < freq → 2 * freq < rate → ∀ r ∈ design k.order freq rate, r.a0 ≠ 0
  cuts : ∀ (k : Slope) (freq rate : ℝ), 0 < freq → 2 * freq < rate →
    attenuates ((design k.order freq rate).map RawSection.normalize) freq rate

/-- The slopes' orders are 2, 4, 6 and 8 (R122). -/
theorem Slope.order_eq (k : Slope) : ∃ j < 4, k.order = 2 * (j + 1) :=
  ⟨k.index, by cases k <;> decide, rfl⟩

/-- The reference designs meet the contract (R130): what is assumed of a factory can be met. -/
theorem highPassDesign_contract :
    CutContract (fun n freq rate => (highPassDesign n freq rate).map RealSection.raw) AttenuatesBelow where
  sections := by simp [highPassDesign]
  divisible := by simp [RealSection.raw]
  cuts k freq rate h0 h1 := by
    obtain ⟨j, hj, e⟩ := k.order_eq
    rw [List.map_map, List.map_congr_left (g := id) (fun r _ => r.normalize_raw), List.map_id, e]
    exact highPassDesign_attenuates hj h0 h1

theorem lowPassDesign_contract :
    CutContract (fun n freq rate => (lowPassDesign n freq rate).map RealSection.raw) AttenuatesAbove where
  sections := by simp [lowPassDesign]
  divisible := by simp [RealSection.raw]
  cuts k freq rate h0 h1 := by
    obtain ⟨j, hj, e⟩ := k.order_eq
    rw [List.map_map, List.map_congr_left (g := id) (fun r _ => r.normalize_raw), List.map_id, e]
    exact lowPassDesign_attenuates hj h0 h1

/-- Five operand words are a section's numbers, each rounded (R127). -/
def Coefs.Rounds (w : Coefs) (r : RealSection) : Prop :=
  RoundsTo r.b0 w.b0 ∧ RoundsTo r.b1 w.b1 ∧ RoundsTo r.b2 w.b2 ∧ RoundsTo r.a1 w.a1 ∧ RoundsTo r.a2 w.a2

noncomputable section

open Classical in
/-- The reference peak section, and a section that passes every sample where it has no a0 to divide by. -/
def referencePeak (freq quality gain rate : ℝ) : RawSection :=
  if (peakDesign freq quality gain rate).a0 = 0 then unitySection.raw else peakDesign freq quality gain rate

theorem referencePeak_divisible (freq quality gain rate : ℝ) : (referencePeak freq quality gain rate).a0 ≠ 0 := by
  unfold referencePeak
  split
  · exact one_ne_zero
  · assumption

/-- The Coefficient Factory: design formulas in real numbers, of which only the properties named in R122 to R127 are assumed
(R120, R129). The types say on what each stage depends: the peak on its frequency, its quality, its linear gain and the rate
(R123); a cut stage on its order, its own frequency and the rate (R124). The values given here are the reference formulas;
they only show that the contract can be met. -/
structure Factory where
  /-- The parametric-EQ formula (R123): frequency, quality, linear gain, sample rate. -/
  peak : ℝ → ℝ → ℝ → ℝ → RawSection := referencePeak
  /-- The low-cut's formula (R124): filter order, corner frequency, sample rate; section 0 first. -/
  lowCut : Nat → ℝ → ℝ → List RawSection := fun n freq rate => (highPassDesign n freq rate).map RealSection.raw
  /-- The high-cut's formula (R124). -/
  highCut : Nat → ℝ → ℝ → List RawSection := fun n freq rate => (lowPassDesign n freq rate).map RealSection.raw
  /-- The rounding of a number to its operand word (R127); the sign of a zero is left open (log 20). -/
  round : ℝ → W32 := fun v => (exists_roundsTo v).choose
  /-- The result for settings that neither fail nor are valid (log 28). -/
  undecided : ChainSettings → W32 → Option Design := fun _ _ => none
  peak_divisible : ∀ freq quality gain rate, 0 < freq → 2 * freq < rate → 0 < quality → 0 < gain →
      (peak freq quality gain rate).a0 ≠ 0 := by
    exact fun freq quality gain rate _ _ _ _ => referencePeak_divisible freq quality gain rate
  lowCut_contract : CutContract lowCut AttenuatesBelow := by exact highPassDesign_contract
  highCut_contract : CutContract highCut AttenuatesAbove := by exact lowPassDesign_contract
  rounds : ∀ v, RoundsTo v (round v) := by exact fun v => (exists_roundsTo v).choose_spec
  deriving Inhabited

/-- FREE VALUE (log 20): the host's factory; "in a model the factory is a configuration field" (R120). -/
opaque Config.factory : Factory

/-- The five operand words of a section: divided by a0, a0 dropped, each number rounded (R127). -/
def Factory.words (φ : Factory) (r : RawSection) : Coefs :=
  { b0 := φ.round r.normalize.b0, b1 := φ.round r.normalize.b1, b2 := φ.round r.normalize.b2
    a1 := φ.round r.normalize.a1, a2 := φ.round r.normalize.a2 }

/-- The peak stage's formula at the settings' values, with gain `10^(peakGainDb/20)` (R123). -/
def Factory.peakOf (φ : Factory) (k : ChainSettings) (rate : W32) : RawSection :=
  φ.peak (value k.peakFreq) (value k.peakQuality) (linearGain (value k.peakGainDb)) (value rate)

/-- The low-cut's formula at `lowCutFreq` with `lowCutSlope` (R124). -/
def Factory.lowCutOf (φ : Factory) (k : ChainSettings) (rate : W32) : List RawSection :=
  φ.lowCut k.lowCutSlope.order (value k.lowCutFreq) (value rate)

/-- The high-cut's formula at `highCutFreq` with `highCutSlope` (R124). -/
def Factory.highCutOf (φ : Factory) (k : ChainSettings) (rate : W32) : List RawSection :=
  φ.highCut k.highCutSlope.order (value k.highCutFreq) (value rate)

open Classical in
/-- The factory's result (R120): none where it fails (R125), the rounded sections where the settings are valid (R122 to
R127). -/
def Factory.design (φ : Factory) (k : ChainSettings) (rate : W32) : Option Design :=
  if k.Fails rate then none
  else if k.Valid rate then
    some { peak := φ.words (φ.peakOf k rate)
           lowCut := (φ.lowCutOf k rate).map φ.words
           highCut := (φ.highCutOf k rate).map φ.words }
  else φ.undecided k rate

end

/-! ### Command lines (30_encoding.md R108) -/

/-- A command line of the spec's assembler syntax as data: the port it is sent to, the command its `key=value` fields make, and
its operand words (R108). -/
structure CommandLine where
  port : Port
  command : Instr
  operands : List W32
  deriving DecidableEq, Repr

/-- The mnemonic a command line begins with (R108). -/
def asmName : Instr → String
  | .nop => "nop"
  | .rdcsr _ => "rdcsr"
  | .wrcsr _ => "wrcsr"
  | .bqSetc _ _ => "bq.setc"
  | .bqByp _ _ _ => "bq.byp"
  | .bqCutupd _ _ _ => "bq.cutupd"
  | .bqProc _ _ => "bq.proc"
  | .afPushs _ _ => "af.pushs"
  | .afAvail _ => "af.avail"
  | .afPull _ => "af.pull"
  | .mfAvail _ => "mf.avail"
  | .mfPull _ => "mf.pull"
  | .fgStep _ => "fg.step"

/-- The line has as many operand words as its command takes (R95). -/
def CommandLine.complete (l : CommandLine) : Bool := l.operands.length == l.command.nopnd

/-- The words a line sends. -/
def CommandLine.words (l : CommandLine) : List W32 := encode l.command :: l.operands

/-- `.rept K` ... `.endr` (R108). -/
def rept (k : Nat) (lines : List CommandLine) : List CommandLine := (List.replicate k lines).flatten

/-- The host sends a line: its words come after those already offered at the port (60_exceptions.md R279: any words, at any
time). -/
def State.send (s : State) (l : CommandLine) : State :=
  match l.port with
  | .a => { s with portA := { s.portA with input := s.portA.input ++ l.words } }
  | .b => { s with portB := { s.portB with input := s.portB.input ++ l.words } }

/-! ### Pseudo-instructions (30_encoding.md R109) -/

/-- The operand words of one coefficient set, `b0, b1, b2, a1, a2` (30_encoding.md R101). -/
def Coefs.words (k : Coefs) : List W32 := [k.b0, k.b1, k.b2, k.a1, k.a2]

/-- `bq.peakupd chm=M, ...`: `bq.setc` and `bq.byp ..., 0` on slot 4 (R109). -/
def peakUpdate (chm : BitVec 4) (k : Coefs) : List W32 :=
  encode (.bqSetc chm 4) :: k.words ++ [encode (.bqByp chm 4 0)]

/-- `bq.cutupd` with the sets of one stage (41_biquad_cascade.md R145). -/
def cutUpdateWords (chm stg : BitVec 4) (slope : Slope) (sets : List Coefs) : List W32 :=
  encode (.bqCutupd chm stg slope.code) :: sets.flatMap Coefs.words

/-- `bq.update chm=3, ...`: peak, low-cut, high-cut, on both channels alike (R109, 40_coefficient_factory.md R126). -/
def blockUpdate (k : ChainSettings) (d : Design) : List W32 :=
  peakUpdate 3 d.peak ++ cutUpdateWords 3 0 k.lowCutSlope d.lowCut ++ cutUpdateWords 3 2 k.highCutSlope d.highCut

/-- The update a host sends for a factory's result: "a host that gets no result sends no update" (93_implementation_defined.md
U3). -/
def hostUpdate (k : ChainSettings) : Option Design → List W32
  | none => []
  | some d => blockUpdate k d

/-- The samples of one channel as `BQ.PROC` commands. One command counts at most 65535 samples (41_biquad_cascade.md R146), and
the spec does not say how a host sends a longer block: that it goes in further commands of the same channel, full ones first,
is the model's choice (DESIGN CHOICE, log 29). `more` is how many further commands may follow. -/
def procWords (ch : BitVec 4) : Nat → List W32 → List W32
  | 0, xs => encode (.bqProc ch (BitVec.ofNat 16 xs.length)) :: xs
  | more + 1, xs =>
    if xs.length ≤ 65535 then encode (.bqProc ch (BitVec.ofNat 16 xs.length)) :: xs
    else encode (.bqProc ch 65535) :: xs.take 65535 ++ procWords ch more (xs.drop 65535)

/-- The per-block protocol on port A: the update, then the samples of both channels (41_biquad_cascade.md R151). A host whose
factory gave no result sends its samples all the same (log 29). -/
def blockProtocol (k : ChainSettings) (d : Option Design) (left right : List W32) : List W32 :=
  hostUpdate k d ++ procWords 0 (left.length / 65535) left ++ procWords 1 (right.length / 65535) right

/-- `fg.drain` and `mf.drain`: the command again, until its response is FAIL/EMPTY (R109); none when the drain is over. -/
def drainNext (i : Instr) (lastResponse : W32) : Option W32 :=
  if lastResponse = 0x11000000 then none else some (encode i)

end Sys2Proof.Machine
end

