-- ==== Sys2Proof/Safety.lean ====
section
/-! DEFINITION. What holds in every state a run reaches: the canonical form of the memories, the bracket of the ring counts
(42_block_fifo.md R170, R175), the cursor bounds (10_state.md R26), coefficients behind every active section (R24), and what a
sequencer in mid-command holds (30_encoding.md R91). And the words the claims are said in: the contents of a ring as a list,
a port before and after a word, and which command writes what. What a correctly rounded result is stands in Rounding.lean. -/

namespace Sys2Proof.Machine

/-- Every memory is in its canonical form. -/
def State.memoryCanonical (s : State) : Bool := s.acc.wf && s.afmem.wf && s.slide.wf && s.mfmem.wf

/-- `avail_B[c] <= occ[c] <= occ_A[c] <= 30` (42_block_fifo.md R175) and `mocc[c] <= 30` (10_state.md R31). -/
def State.ringsOk (s : State) (c : Chan) : Prop :=
  s.availB c ≤ s.occ c ∧ s.occ c ≤ s.occA c ∧ s.occA c ≤ cap ∧ s.mocc c ≤ cap

/-- `0 <= fill[c] < BLKLEN` (10_state.md R26), where the strap is a block length. -/
def State.cursorOk (s : State) (c : Chan) : Prop := s.strapOk = true → s.fill.get c < s.blkLen

/-- No section is active with coefficients nothing has written (10_state.md R24). -/
def State.activeHaveCoefs (s : State) : Prop := ∀ c i, (s.slot c i).byp = false → (s.slot c i).cv = true

/-- The error code is one of the four while `ERR` is set, and 0 while it is not (10_state.md R37, 60_exceptions.md R266). -/
def PortState.flagsOk (q : PortState) : Prop := q.ecode.toNat ≤ 4 ∧ (q.err = false ↔ q.ecode = 0)

/-- What the sequencer of a port holds for a command in progress: a streaming command has counted or answered the operands
taken so far, another one has them in its buffer; `WRCSR` has passed its check. -/
def Seq.holds (q : Seq) (p : Port) : Instr → Prop
  | .bqProc _ n => q.outs.length + q.left = n.toNat
  | .afPushs _ n => q.pushed + q.dropped + q.left ≤ n.toNat
  | .wrcsr idx => q.buf.length + q.left = 1 ∧ csrWritable p idx = true
  | i => q.buf.length + q.left = i.nopnd

/-- The sequencer of a port is in a state R91 can bring it to: between commands nothing is left to come; in mid-command its
header is a command of this port that passed the checks, and operands are still to come. -/
def State.seqOk (s : State) (p : Port) : Prop :=
  match (s.port p).seq.phase with
  | .hdr => (s.port p).seq.left = 0
  | .opnd => s.strapOk = true ∧ ∃ i, decode (s.port p).seq.hdr = .command i ∧ i.opcode.onPort p = true ∧
      i.fieldsLegal = true ∧ 1 ≤ (s.port p).seq.left ∧ (s.port p).seq.left ≤ i.nopnd ∧ (s.port p).seq.holds p i

/-- The invariant of the machine. -/
structure State.Inv (s : State) : Prop where
  inst : s.inst.valid = true
  memory : s.memoryCanonical = true
  rings : ∀ c, s.ringsOk c
  cursors : ∀ c, s.cursorOk c
  active : s.activeHaveCoefs
  flags : ∀ p, (s.port p).flagsOk
  seqs : ∀ p, s.seqOk p

/-- Item `j` of `AF[c]`, counted from the oldest: ring slot `(read index + j) mod 30` (42_block_fifo.md R170, I2). -/
def State.afItem (s : State) (c : Chan) (j : Nat) : List W32 :=
  s.afmem.readN (afAddr s.inst c (((s.rptr.get c).val + j) % cap)) s.blkLen

/-- The items in `AF[c]`, oldest first (R170, I2). -/
def State.afItems (s : State) (c : Chan) : List (List W32) := (List.range (s.occ c)).map (s.afItem c)

/-- Item `j` of `MF[c]`, counted from the oldest (R170, I2). -/
def State.mfItem (s : State) (c : Chan) (j : Nat) : List W32 :=
  s.mfmem.readN (mfAddr s.inst c (((s.mr.get c).val + j) % cap)) s.inst.nbins

/-- The items in `MF[c]`, oldest first (R170, I2). -/
def State.mfItems (s : State) (c : Chan) : List (List W32) := (List.range (s.mocc c)).map (s.mfItem c)

/-- The first check of 30_encoding.md R107 that a header word fails at a port, the five in the order of R107 and R267: strap,
opcode of this port, must-be-zero bits and fields, CSR, coefficients. -/
def State.wordError (s : State) (p : Port) (w : W32) : Option ErrCode :=
  if s.strapOk = false then some .field
  else match Opcode.ofCode (Header.opc w) with
    | none => some .illop
    | some op =>
      if op.onPort p = false then some .illop
      else if w &&& op.mbz ≠ 0 ∨ (Instr.ofHeader op w).fieldsLegal = false then some .field
      else match Instr.ofHeader op w with
        | .rdcsr idx => if csrRead p idx s = none then some .csr else none
        | .wrcsr idx => if p = .b ∧ idx = 0x04 then none else some .csr
        | .bqByp chm slot v =>
          if v = 0 ∧ (selects chm .left = true ∧ (s.slot .left (slotOf slot)).cv = false ∨
              selects chm .right = true ∧ (s.slot .right (slotOf slot)).cv = false) then some .nocoef
          else none
        | _ => none

/-! ### A port before and after a word -/

/-- The port whose word is being taken is between commands, and the next word offered is `w`. -/
def State.AtHeader (s : State) (w : W32) (rest : List W32) : Prop :=
  s.seq.phase = .hdr ∧ s.here.input = w :: rest

/-- The port whose word is being taken is in a command with `n + 1` operand words to come, `ws` kept so far, and the next word
offered is `w`. -/
def State.AtOperand (s : State) (n : Nat) (ws : List W32) (w : W32) (rest : List W32) : Prop :=
  s.seq.phase = .opnd ∧ s.seq.left = n + 1 ∧ s.seq.buf = ws ∧ s.here.input = w :: rest

/-- It is port `p`'s turn, the port is between commands, and the next word offered to it is `w`. -/
def State.HeaderNext (s : State) (p : Port) (w : W32) (rest : List W32) : Prop :=
  s.nextTurn = .port p ∧ (s.port p).seq.phase = .hdr ∧ (s.port p).input = w :: rest

/-- The state in which port `p` takes its word: its turn is used up, and it is the port whose word is being taken. -/
def State.turnOf (s : State) (p : Port) : State := { s.passTurn with cur := p }

/-- A port after the header word of a command without operands: the word taken and latched, the response words answered. -/
def PortState.afterHeader (q : PortState) (w : W32) (rest resp : List W32) : PortState :=
  { q with input := rest, output := q.output ++ resp, seq := { q.seq with hdr := w, left := 0, buf := [] } }

/-- A port after the last operand word of a command that keeps its operands. -/
def PortState.afterLast (q : PortState) (rest ws resp : List W32) : PortState :=
  { q with input := rest, output := q.output ++ resp, seq := { q.seq with phase := .hdr, left := 0, buf := ws } }

/-- A sequencer after an accepted header word of a command with operands (30_encoding.md R91): latched, counting, with an
empty buffer; `BQ.PROC` and `AF.PUSHS` begin with an empty list and zero counts. -/
def Seq.begun (q : Seq) (w : W32) (i : Instr) : Seq :=
  let q1 : Seq := { q with phase := .opnd, hdr := w, left := i.nopnd, buf := [] }
  match i with
  | .bqProc _ _ => { q1 with outs := [] }
  | .afPushs _ _ => { q1 with pushed := 0, dropped := 0 }
  | _ => q1

/-- A port after a refused header word (60_exceptions.md R265): the word taken, one response word with the code in bits 27:24,
`ERR` set, `ECODE` the first error's code. -/
def PortState.afterRefusal (q : PortState) (rest : List W32) (code : BitVec 4) : PortState :=
  { q with
    input := rest
    output := q.output ++ [(0xE : BitVec 4) ++ code ++ (0 : BitVec 24)]
    err := true
    ecode := if q.err = true then q.ecode else code }

/-- A port after an operand word of `AF.PUSHS` with `k` still to come: the counters, and after the last word the response. -/
def PortState.afterSample (q : PortState) (rest : List W32) (k pushed dropped : Nat) (n : BitVec 16) : PortState :=
  { q with
    input := rest
    output := q.output ++
      if k = 0 then [(0 : BitVec 16) ++ n, BitVec.ofNat 16 dropped ++ BitVec.ofNat 16 pushed] else []
    seq := { q.seq with left := k, pushed := pushed, dropped := dropped, phase := if k = 0 then .hdr else .opnd } }

/-- A port after an operand word of `BQ.PROC` with `k` still to come: the output sample `y` kept, and after the last word the
response. -/
def PortState.afterProc (q : PortState) (rest : List W32) (k : Nat) (y : W32) (n : BitVec 16) : PortState :=
  { q with
    input := rest
    output := q.output ++ if k = 0 then ((0 : BitVec 16) ++ n) :: (q.seq.outs ++ [y]) else []
    seq := { q.seq with left := k, outs := q.seq.outs ++ [y], phase := if k = 0 then .hdr else .opnd } }

/-! ### Runs of one operation -/

/-- A run of samples through a chain: the outputs in order, and the slots after the last (41_biquad_cascade.md R146). -/
def chainRun : Slots → List W32 → List W32 × Slots
  | v, [] => ([], v)
  | v, w :: ws =>
    let r := chainStep v w
    let q := chainRun r.2 ws
    (r.1 :: q.1, q.2)

/-- Blocks offered to `AF[c]` one after another; one that finds the ring full is lost (42_block_fifo.md R176, R184). -/
def State.pushAll (s : State) (c : Chan) (items : List (List W32)) : State :=
  items.foldl (fun s item => (s.afPush c item).getD s) s

/-! ### Which command writes what (10_state.md R20, columns "written by") -/

/-- The commands that write coefficients and `cv`. -/
def Writers.coefs : Instr → Bool
  | .bqSetc _ _ | .bqCutupd _ _ _ => true
  | _ => false

/-- The commands that write bypass flags. -/
def Writers.byp : Instr → Bool
  | .bqByp _ _ _ | .bqCutupd _ _ _ => true
  | _ => false

/-- The command that writes histories. -/
def Writers.history : Instr → Bool
  | .bqProc _ _ => true
  | _ => false

/-! ### Isolation of the two domains -/

/-- Two states that port A cannot tell apart: everything domain A holds or sees is the same (20_memory.md R61, R71). -/
def AgreeForA (s t : State) : Prop :=
  s.inst = t.inst ∧ s.x = t.x ∧ s.acc = t.acc ∧ s.fill = t.fill ∧ s.afmem = t.afmem ∧ s.wptr = t.wptr ∧
    s.rptrSeen = t.rptrSeen ∧ s.blklen = t.blklen ∧ s.portA = t.portA

/-- Two states that port B cannot tell apart: everything domain B holds or sees is the same (20_memory.md R61, R71). -/
def AgreeForB (s t : State) : Prop :=
  s.inst = t.inst ∧ s.afmem = t.afmem ∧ s.rptr = t.rptr ∧ s.wptrSeen = t.wptrSeen ∧ s.slide = t.slide ∧
    s.mfmem = t.mfmem ∧ s.mw = t.mw ∧ s.mr = t.mr ∧ s.floor = t.floor ∧ s.blklen = t.blklen ∧ s.portB = t.portB

end Sys2Proof.Machine
end

