-- ==== Sys2Proof/WellFormed.lean ====
section
/-! DEFINITION. Which commands are well formed: those whose header fields hold legal values (30_encoding.md R96). The
must-be-zero bits need no condition: a command has no place for them. -/

namespace Sys2Proof

/-- The command's fields are all in their legal sets (R96). -/
abbrev Instr.WellFormed (i : Instr) : Prop := i.fieldsLegal = true

end Sys2Proof
end

