-- ==== Sys2Proof/Certificates/Slice0/Obligations.lean ====
section
/-! DEFINITION. The statements for the provers, in the order of OBLIGATIONS.json: encodings, the sequencer and its errors,
steps and reset, each command's effect with its frame, arithmetic, rings, invariants, isolation. A frame is said by an
equation: the state after is the state before with the fields named replaced. -/

open Sys2Proof Sys2Proof.Machine

/-! ### Encodings -/

/-- Every command, with every field at every value its bits can hold, decodes from its own encoding (30_encoding.md R92,
R94). -/
def Obligations.DecodeOfEncode : Prop := ∀ i : Instr, decode (encode i) = .command i

/-- A word that decodes to a command is that command's encoding: no two words mean one command, and no bit is ignored (R92,
R96). -/
def Obligations.EncodeOfDecode : Prop := ∀ (w : W32) (i : Instr), decode w = .command i → encode i = w

/-- The worked encodings of R110: each word decodes to its command, and the operand counts are those named. -/
def Obligations.WorkedEncodings : Prop :=
  decode 0x10340000 = .command (.bqSetc 3 4) ∧
  decode 0x11340000 = .command (.bqByp 3 4 0) ∧
  decode 0x11340001 = .command (.bqByp 3 4 1) ∧
  decode 0x12300003 = .command (.bqCutupd 3 0 3) ∧ (Instr.bqCutupd 3 0 3).nopnd = 20 ∧
  decode 0x12120000 = .command (.bqCutupd 1 2 0) ∧ (Instr.bqCutupd 1 2 0).nopnd = 5 ∧
  decode 0x13100004 = .command (.bqProc 1 4) ∧
  decode 0x20000004 = .command (.afPushs 0 4) ∧
  decode 0x30100000 = .command (.afAvail 1) ∧
  decode 0x31000000 = .command (.afPull 0) ∧
  decode 0x38000000 = .command (.mfAvail 0) ∧
  decode 0x39100000 = .command (.mfPull 1) ∧
  decode 0x40000000 = .command (.fgStep 0) ∧
  decode 0x01000028 = .command (.rdcsr 0x28) ∧
  decode 0x02000004 = .command (.wrcsr 0x04) ∧ (Instr.wrcsr 0x04).nopnd = 1 ∧
  decode 0x00000000 = .command .nop

/-- The operand count of every opcode from the header word `h` alone (R95, 41_biquad_cascade.md R141). -/
def Obligations.OperandCounts : Prop :=
  ∀ h : W32,
    (Instr.ofHeader .nop h).nopnd = 0 ∧ (Instr.ofHeader .rdcsr h).nopnd = 0 ∧ (Instr.ofHeader .bqByp h).nopnd = 0 ∧
    (Instr.ofHeader .afAvail h).nopnd = 0 ∧ (Instr.ofHeader .afPull h).nopnd = 0 ∧
    (Instr.ofHeader .mfAvail h).nopnd = 0 ∧ (Instr.ofHeader .mfPull h).nopnd = 0 ∧ (Instr.ofHeader .fgStep h).nopnd = 0 ∧
    (Instr.ofHeader .wrcsr h).nopnd = 1 ∧
    (Instr.ofHeader .bqSetc h).nopnd = 5 ∧
    (Instr.ofHeader .bqCutupd h).nopnd =
      5 * (if (h.extractLsb' 0 4).toNat ≤ 3 then (h.extractLsb' 0 4).toNat + 1 else 1) ∧
    (Instr.ofHeader .bqProc h).nopnd = (h.extractLsb' 0 16).toNat ∧
    (Instr.ofHeader .afPushs h).nopnd = (h.extractLsb' 0 16).toNat

/-! ### The sequencer and its errors -/

/-- A header word that fails a check is refused (60_exceptions.md R265, R107): it alone is consumed, one response word
carries the code, `ERR` is set, `ECODE` keeps the first code, and nothing else changes. -/
def Obligations.RefusedHeader : Prop :=
  ∀ (s : State) (p : Port) (w : W32) (rest : List W32) (e : ErrCode),
    s.HeaderNext p w rest → s.wordError p w = some e →
      step s = .next ((s.turnOf p).setPort p ((s.port p).afterRefusal rest e.bits))

/-- The must-be-zero masks and the legal field values of R96: at a port where the opcode exists, a header word that breaks
either is refused with `E_FIELD`. -/
def Obligations.IllegalFieldsRefused : Prop :=
  ∀ (s : State) (p : Port) (w : W32) (rest : List W32),
    s.HeaderNext p w rest → s.strapOk = true →
    (let opc := (w.extractLsb' 24 8).toNat
     let ch := (w.extractLsb' 20 4).toNat
     let slot := (w.extractLsb' 16 4).toNat
     let bad (mask : W32) : Prop := w &&& mask ≠ 0
     let badChm : Prop := ch = 0 ∨ 4 ≤ ch
     (opc = 0x00 ∧ bad 0x00FFFFFF) ∨
     ((opc = 0x01 ∨ opc = 0x02) ∧ bad 0x00FFFF00) ∨
     (p = .a ∧ opc = 0x10 ∧ (bad 0x0000FFFF ∨ badChm ∨ 9 ≤ slot)) ∨
     (p = .a ∧ opc = 0x11 ∧ (bad 0x0000FFFE ∨ badChm ∨ 9 ≤ slot)) ∨
     (p = .a ∧ opc = 0x12 ∧ (bad 0x0000FFF0 ∨ badChm ∨ (slot ≠ 0 ∧ slot ≠ 2))) ∨
     (p = .a ∧ (opc = 0x13 ∨ opc = 0x20) ∧ (bad 0x000F0000 ∨ 2 ≤ ch)) ∨
     (p = .b ∧ (opc = 0x30 ∨ opc = 0x31 ∨ opc = 0x38 ∨ opc = 0x39 ∨ opc = 0x40) ∧ (bad 0x000FFFFF ∨ 2 ≤ ch))) →
      step s = .next ((s.turnOf p).setPort p ((s.port p).afterRefusal rest 2))

/-- The opcodes of each port (R94, 60_exceptions.md R278): a header word with any other opcode is refused with `E_ILLOP`,
whatever its other bits are. -/
def Obligations.IllegalOpcodeRefused : Prop :=
  ∀ (s : State) (p : Port) (w : W32) (rest : List W32),
    s.HeaderNext p w rest → s.strapOk = true →
    (w.extractLsb' 24 8).toNat ∉ [0x00, 0x01, 0x02] ++
      (match p with
       | .a => [0x10, 0x11, 0x12, 0x13, 0x20]
       | .b => [0x30, 0x31, 0x38, 0x39, 0x40]) →
      step s = .next ((s.turnOf p).setPort p ((s.port p).afterRefusal rest 1))

/-- With a strap that is no block length every header word on either port is refused with `E_FIELD`, and no other state
changes (70_reset_and_hazards.md R301); a strap that is one is at most `N` on a valid instance. -/
def Obligations.BadStrapRefusesEveryHeader : Prop :=
  (∀ (s : State) (p : Port) (w : W32) (rest : List W32),
    s.HeaderNext p w rest → (s.blklen.toNat = 0 ∨ s.inst.blkMax < s.blklen.toNat) →
      step s = .next ((s.turnOf p).setPort p ((s.port p).afterRefusal rest 2))) ∧
  ∀ s : State, s.inst.valid = true → ¬ (s.blklen.toNat = 0 ∨ s.inst.blkMax < s.blklen.toNat) → s.blklen.toNat ≤ s.inst.n

/-- Checks 4 and 5 of R107: `RDCSR` of an index that is not on the port, `WRCSR` of anything but `FLOOR` on port B, and
`BQ.BYP` to active of a slot without coefficients on some selected channel are refused at the header and change nothing else
(44_system_commands.md R251, R252, 41_biquad_cascade.md R144). -/
def Obligations.LateErrors : Prop :=
  ∀ (s : State) (w : W32) (rest : List W32), s.strapOk = true → s.AtHeader w rest →
    (∀ idx, csrRead s.cur idx s = none →
      exec (.rdcsr idx) s = .next (s.setPort s.cur (s.here.afterRefusal rest 4))) ∧
    (∀ idx : BitVec 8, ¬ (s.cur = .b ∧ idx = 0x04) →
      exec (.wrcsr idx) s = .next (s.setPort s.cur (s.here.afterRefusal rest 4))) ∧
    (∀ (chm slot : BitVec 4) (c : Chan) (k : Fin 9), s.cur = .a → (Instr.bqByp chm slot 0).WellFormed →
      chm.getLsbD c.index = true → k.val = slot.toNat → (s.slot c k).cv = false →
      exec (.bqByp chm slot 0) s = .next (s.setPort s.cur (s.here.afterRefusal rest 3)))

/-- The error flags are sticky: `ERR` and the code of the first error stay until a reset, whatever happens (10_state.md R37),
and a step sets them only by refusing a header of that port. -/
def Obligations.ErrorsAreSticky : Prop :=
  ∀ (s t : State) (p : Port), (∀ strap, s.nextTurn ≠ .reset strap) → step s = .next t →
    ((s.port p).err = true → (t.port p).err = true ∧ (t.port p).ecode = (s.port p).ecode) ∧
    ((s.port p).err = false → (t.port p).err = true →
      ∃ w rest e, s.HeaderNext p w rest ∧ s.wordError p w = some e ∧ (t.port p).ecode = e.bits)

/-- A header word that passes the checks is a command and is latched (R91, R107): with operands to come, only the port's
sequencer changes; without, the command finishes at once, with no error. That latching leaves an empty operand buffer is the
model's reading: 10_state.md R35 gives the buffer and R91 does not write that line (log 25, DEDUCED). -/
def Obligations.AcceptedHeader : Prop :=
  ∀ (s : State) (p : Port) (w : W32) (rest : List W32),
    s.HeaderNext p w rest → s.wordError p w = none →
      ∃ i, decode w = .command i ∧
        (i.nopnd ≠ 0 → step s = .next ((s.turnOf p).setPort p
          { s.port p with input := rest, seq := (s.port p).seq.begun w i })) ∧
        (i.nopnd = 0 → ∃ t, step s = .next t ∧ (t.port p).input = rest ∧ (t.port p).seq.phase = .hdr ∧
          (t.port p).seq.hdr = w ∧ (t.port p).seq.left = 0 ∧ (t.port p).err = (s.port p).err ∧
          (t.port p).ecode = (s.port p).ecode)

/-- An operand word that is not the last of a command that keeps its operands goes into the buffer, and nothing else happens
(R91); operand words are not examined (R100). -/
def Obligations.OperandKept : Prop :=
  ∀ (s : State) (n : Nat) (ws : List W32) (w : W32) (rest : List W32) (chm slot stg slope : BitVec 4),
    s.AtOperand (n + 1) ws w rest →
      let t := s.setPort s.cur { s.here with
        input := rest, seq := { s.here.seq with left := n + 1, buf := ws ++ [w] } }
      exec (.bqSetc chm slot) s = .next t ∧ exec (.bqCutupd chm stg slope) s = .next t

/-! ### Steps and reset -/

/-- A step of a port runs the command its words decode to: the one of the next word between commands, the one of the latched
header while operands are to come (R91); a port with no word offered waits (60_exceptions.md R279). Whose turn it is, is the
model's field or its free value (log 9). -/
def Obligations.StepRunsDecoded : Prop :=
  ∀ (s : State) (p : Port), s.nextTurn = .port p →
    (∀ w rest i, (s.port p).seq.phase = .hdr → (s.port p).input = w :: rest → decode w = .command i →
      step s = exec i (s.turnOf p)) ∧
    (∀ w rest i, (s.port p).seq.phase = .opnd → (s.port p).input = w :: rest →
      decode (s.port p).seq.hdr = .command i → step s = exec i (s.turnOf p)) ∧
    ((s.port p).input = [] → step s = .next (s.turnOf p))

/-- The synchronisers (42_block_fifo.md R174): each copies its index across and does nothing else, and what it copies is what
the Gray code register of the sending domain decodes to (10_state.md R29); nothing but a reset writes the copies otherwise. Each
is weakly fair (R174, 20_memory.md R75 item 5, 70_reset_and_hazards.md R315): from any state whose sequencers are in order, the
machine's own run comes after finitely many steps to a step of it, after which that side's count is the true one. Weak fairness
is a property of the free value that orders the steps, and the only one (log 22). -/
def Obligations.SynchroniserSteps : Prop :=
  ∀ (s : State) (c : Chan),
    (s.nextTurn = .syncW c →
      step s = .next { s.passTurn with wptrSeen := s.wptrSeen.set c (s.wptr.get c) } ∧
      (s.wptr.get c).val = ungray (s.wgray c)) ∧
    (s.nextTurn = .syncR c →
      step s = .next { s.passTurn with rptrSeen := s.rptrSeen.set c (s.rptr.get c) } ∧
      (s.rptr.get c).val = ungray (s.rgray c)) ∧
    (∀ t, step s = .next t → (∀ strap, s.nextTurn ≠ .reset strap) →
      (s.nextTurn ≠ .syncW c → t.wptrSeen.get c = s.wptrSeen.get c) ∧
      (s.nextTurn ≠ .syncR c → t.rptrSeen.get c = s.rptrSeen.get c)) ∧
    ((∀ p, s.seqOk p) →
      (∃ (n : Nat) (t u : State), core.run n s = .next t ∧ t.nextTurn = .syncW c ∧ step t = .next u ∧ u.availB c = u.occ c) ∧
      (∃ (n : Nat) (t u : State), core.run n s = .next t ∧ t.nextTurn = .syncR c ∧ step t = .next u ∧ u.occA c = u.occ c))

/-- The release of reset gives every piece of state that 10_state.md R50 gives a value that value. -/
def Obligations.ResetStep : Prop :=
  ∀ (s : State) (strap : BitVec 16), s.nextTurn = .reset strap →
    ∃ t, step s = .next t ∧
      (∀ c k, (t.slot c k).cv = false ∧ (t.slot c k).byp = true ∧ (t.slot c k).x1 = 0 ∧ (t.slot c k).x2 = 0 ∧
        (t.slot c k).y1 = 0 ∧ (t.slot c k).y2 = 0) ∧
      (∀ c, t.fill.get c = 0 ∧ t.wptr.get c = 0 ∧ t.rptr.get c = 0 ∧ t.wptrSeen.get c = 0 ∧ t.rptrSeen.get c = 0 ∧
        t.wgray c = 0b000011 ∧ t.rgray c = 0b000011 ∧ t.mw.get c = 0 ∧ t.mr.get c = 0) ∧
      (∀ a, t.slide.read a = 0x00000000) ∧
      t.floor = 0xC2400000 ∧ t.blklen = strap ∧
      (∀ p, (t.port p).seq.phase = .hdr ∧ (t.port p).seq.left = 0 ∧ (t.port p).seq.pushed = 0 ∧
        (t.port p).seq.dropped = 0 ∧ (t.port p).err = false ∧ (t.port p).ecode = 0)

/-- The machine just after reset as the commands see it (70_reset_and_hazards.md R303), for every instance and every strap
that is a block length. -/
def Obligations.AfterReset : Prop :=
  ∀ (inst : Params) (strap : BitVec 16), 1 ≤ strap.toNat → strap.toNat ≤ inst.blkMax →
    let s := State.resetOf inst strap
    (∀ c xin, chainStep (s.x.get c) xin = (xin, s.x.get c)) ∧
    csrRead .a 0x28 s = some 0x000001FF ∧ csrRead .a 0x29 s = some 0x000001FF ∧
    csrRead .a 0x10 s = some 0 ∧ csrRead .a 0x11 s = some 0 ∧ csrRead .b 0x18 s = some 0 ∧ csrRead .b 0x19 s = some 0 ∧
    csrRead .b 0x20 s = some 0 ∧ csrRead .b 0x21 s = some 0 ∧ csrRead .a 0x03 s = some 0 ∧ csrRead .b 0x03 s = some 0 ∧
    csrRead .b 0x04 s = some 0xC2400000 ∧
    ∀ (ch : BitVec 4) (w : W32) (rest : List W32), ch.toNat ≤ 1 →
      let r : State := { s with cur := .b, portB := { s.portB with input := w :: rest } }
      let answers (word : W32) : State := { r with portB := r.portB.afterHeader w rest [word] }
      exec (.afAvail ch) r = .next (answers 0x00000000) ∧ exec (.mfAvail ch) r = .next (answers 0x00000000) ∧
      exec (.afPull ch) r = .next (answers 0x11000000) ∧ exec (.mfPull ch) r = .next (answers 0x11000000) ∧
      exec (.fgStep ch) r = .next (answers 0x11000000)

/-- The block never stops: whoever steps next, in a state whose sequencers are in order, there is a next state (20_memory.md
R79). -/
def Obligations.EveryStepCompletes : Prop :=
  ∀ s : State, (∀ p, s.seqOk p) → ∃ t, step s = .next t

/-- Which command writes which state (10_state.md R20, column "written by"; R21, R23, R24, R25, R32, R33). -/
def Obligations.WritersOfState : Prop :=
  ∀ (i : Instr) (s t : State), exec i s = .next t →
    (Writers.coefs i = false → ∀ c k, (t.slot c k).coef = (s.slot c k).coef ∧ (t.slot c k).cv = (s.slot c k).cv) ∧
    (Writers.byp i = false → ∀ c k, (t.slot c k).byp = (s.slot c k).byp) ∧
    (∀ c k, Writers.history i = false ∨ (s.slot c k).byp = true →
      (t.slot c k).x1 = (s.slot c k).x1 ∧ (t.slot c k).x2 = (s.slot c k).x2 ∧ (t.slot c k).y1 = (s.slot c k).y1 ∧
      (t.slot c k).y2 = (s.slot c k).y2) ∧
    ((∀ ch n, i ≠ .afPushs ch n) →
      t.acc = s.acc ∧ t.fill = s.fill ∧ t.afmem = s.afmem ∧ t.wptr = s.wptr) ∧
    ((∀ ch, i ≠ .afPull ch) → (∀ ch, i ≠ .fgStep ch) → t.rptr = s.rptr) ∧
    ((∀ ch, i ≠ .fgStep ch) → t.slide = s.slide ∧ t.mfmem = s.mfmem ∧ t.mw = s.mw) ∧
    ((∀ ch, i ≠ .mfPull ch) → t.mr = s.mr) ∧
    (¬ (i = .wrcsr 0x04 ∧ s.cur = .b) → t.floor = s.floor) ∧
    t.wptrSeen = s.wptrSeen ∧ t.rptrSeen = s.rptrSeen ∧ t.blklen = s.blklen ∧ t.inst = s.inst ∧
    (∀ p, p ≠ s.cur → t.port p = s.port p) ∧ t.cur = s.cur ∧ t.sched = s.sched ∧ t.ticks = s.ticks

/-! ### System commands -/

/-- `NOP` (44_system_commands.md R250): its response, and nothing else. -/
def Obligations.NopResponds : Prop :=
  ∀ (s : State) (w : W32) (rest : List W32), s.strapOk = true → s.AtHeader w rest →
    exec .nop s = .next (s.setPort s.cur (s.here.afterHeader w rest [0x00000000]))

/-- `RDCSR` (R251) of a CSR that is on the port: the value as the one data word, and nothing else (20_memory.md R65). -/
def Obligations.RdcsrAnswers : Prop :=
  ∀ (s : State) (w : W32) (rest : List W32) (idx : BitVec 8) (v : W32), s.strapOk = true → s.AtHeader w rest →
    csrRead s.cur idx s = some v →
    exec (.rdcsr idx) s = .next (s.setPort s.cur (s.here.afterHeader w rest [0x00000000, v]))

/-- What each CSR reads (10_state.md R40 to R49): the index, the ports it is on, the fields; no other index on either port;
only `FLOOR` on port B can be written, and what is written is what is read. Each field is asked to fit its bits. -/
def Obligations.CsrReadings : Prop :=
  (∀ (s : State) (p : Port),
    csrRead p 0x00 s = some 0x43455131 ∧
    (s.inst.p < 32 → csrRead p 0x01 s = some (BitVec.ofNat 32 (30 + 2 * 2 ^ 8 + 9 * 2 ^ 12 + s.inst.p * 2 ^ 16))) ∧
    csrRead p 0x02 s = some (BitVec.ofNat 32 s.blklen.toNat) ∧
    csrRead p 0x03 s = some (BitVec.ofNat 32 ((s.port p).err.toNat + (s.port p).ecode.toNat * 2 ^ 4)) ∧
    csrRead .b 0x04 s = some s.floor ∧
    (∀ c : Chan, s.fill.get c < 2 ^ 16 →
      csrRead .a (BitVec.ofNat 8 (0x10 + c.index)) s = some (BitVec.ofNat 32 (s.fill.get c + s.occA c * 2 ^ 16))) ∧
    (∀ c : Chan, csrRead .b (BitVec.ofNat 8 (0x18 + c.index)) s = some (BitVec.ofNat 32 (s.availB c))) ∧
    (∀ c : Chan, csrRead .b (BitVec.ofNat 8 (0x20 + c.index)) s = some (BitVec.ofNat 32 (s.mocc c))) ∧
    (∀ c : Chan, ∃ v, csrRead .a (BitVec.ofNat 8 (0x28 + c.index)) s = some v ∧
      (∀ k : Fin 9, v.getLsbD k = (s.slot c k).byp ∧ v.getLsbD (16 + k) = (s.slot c k).cv) ∧
      (∀ b : Nat, (9 ≤ b ∧ b ≤ 15) ∨ 25 ≤ b → v.getLsbD b = false))) ∧
  (∀ (s : State) (idx : BitVec 8), idx.toNat ∉ [0x00, 0x01, 0x02, 0x03, 0x10, 0x11, 0x28, 0x29] → csrRead .a idx s = none) ∧
  (∀ (s : State) (idx : BitVec 8),
    idx.toNat ∉ [0x00, 0x01, 0x02, 0x03, 0x04, 0x18, 0x19, 0x20, 0x21] → csrRead .b idx s = none) ∧
  ∀ (s : State) (idx : BitVec 8) (w : W32),
    wrcsrCheck idx s = (if s.cur = .b ∧ idx = 0x04 then none else some .csr) ∧
    csrRead .b 0x04 (csrWrite .b 0x04 w s) = some w

/-- `WRCSR` of `FLOOR` on port B (R252), at its operand word: the word is the floor, whatever word it is. -/
def Obligations.WrcsrSetsFloor : Prop :=
  ∀ (s : State) (w : W32) (rest : List W32), s.cur = .b → s.AtOperand 0 [] w rest →
    exec (.wrcsr 0x04) s = .next { s with floor := w, portB := s.portB.afterLast rest [w] [0x00000000] }

/-! ### The biquad cascade -/

/-- `BQ.SETC` (41_biquad_cascade.md R143, R148), at its fifth operand word: the five words and `cv` in the slot of every
selected channel; nothing else. -/
def Obligations.SetcInstalls : Prop :=
  ∀ (s : State) (chm slot : BitVec 4) (b0 b1 b2 a1 a2 : W32) (rest : List W32),
    (Instr.bqSetc chm slot).WellFormed → s.cur = .a → s.AtOperand 0 [b0, b1, b2, a1] a2 rest →
    ∃ t, exec (.bqSetc chm slot) s = .next t ∧
      t = { s with x := t.x, portA := s.portA.afterLast rest [b0, b1, b2, a1, a2] [0x00000000] } ∧
      ∀ c (k : Fin 9), t.slot c k =
        if chm.getLsbD c.index = true ∧ k.val = slot.toNat then
          { s.slot c k with coef := { b0 := b0, b1 := b1, b2 := b2, a1 := a1, a2 := a2 }, cv := true }
        else s.slot c k

/-- `BQ.BYP` (R144, R148): the bypass flag of the slot of every selected channel; nothing else. It may always bypass, and make
active where every selected channel has coefficients. -/
def Obligations.BypSetsFlag : Prop :=
  ∀ (s : State) (chm slot : BitVec 4) (v : BitVec 1) (w : W32) (rest : List W32),
    (Instr.bqByp chm slot v).WellFormed → s.cur = .a → s.strapOk = true → s.AtHeader w rest →
    (v = 1 ∨ ∀ c (k : Fin 9), chm.getLsbD c.index = true → k.val = slot.toNat → (s.slot c k).cv = true) →
    ∃ t, exec (.bqByp chm slot v) s = .next t ∧
      t = { s with x := t.x, portA := s.portA.afterHeader w rest [0x00000000] } ∧
      ∀ c (k : Fin 9), t.slot c k =
        if chm.getLsbD c.index = true ∧ k.val = slot.toNat then { s.slot c k with byp := v == 1 } else s.slot c k

/-- `BQ.CUTUPD` (R145, R149), at its last operand word, whatever the state before: on every selected channel the first `nsec`
slots of the stage are active and hold the operand sets in order, the others of the stage are bypassed, and nothing else
changes; the response's `AUX` is `nsec`. -/
def Obligations.CutupdUpdates : Prop :=
  ∀ (s : State) (chm stg slope : BitVec 4) (ws : List W32) (w : W32) (rest : List W32),
    (Instr.bqCutupd chm stg slope).WellFormed → s.cur = .a → s.AtOperand 0 ws w rest →
    let m := if slope.toNat ≤ 3 then slope.toNat + 1 else 1
    let base := if stg = 0 then 0 else 5
    ws.length + 1 = 5 * m →
    ∃ t, exec (.bqCutupd chm stg slope) s = .next t ∧
      t = { s with x := t.x, portA := s.portA.afterLast rest (ws ++ [w]) [BitVec.ofNat 32 m] } ∧
      ∀ c (k : Fin 9), t.slot c k =
        if chm.getLsbD c.index = true ∧ base ≤ k.val ∧ k.val < base + 4 then
          if k.val < base + m then
            { s.slot c k with
              coef := { b0 := (ws ++ [w]).getD (5 * (k.val - base)) 0, b1 := (ws ++ [w]).getD (5 * (k.val - base) + 1) 0,
                        b2 := (ws ++ [w]).getD (5 * (k.val - base) + 2) 0,
                        a1 := (ws ++ [w]).getD (5 * (k.val - base) + 3) 0,
                        a2 := (ws ++ [w]).getD (5 * (k.val - base) + 4) 0 }
              cv := true, byp := false }
          else { s.slot c k with byp := true }
        else s.slot c k

/-- Bypass keeps the history (R153): none of `BQ.SETC`, `BQ.BYP`, `BQ.CUTUPD` writes a history register; a section bypassed
and made active again is as if it had never been bypassed; and a section that is bypassed while a sample passes is
untouched. -/
def Obligations.BypassKeepsHistory : Prop :=
  (∀ (i : Instr) (s t : State), i.opcode = .bqSetc ∨ i.opcode = .bqByp ∨ i.opcode = .bqCutupd → exec i s = .next t →
    ∀ c k, (t.slot c k).x1 = (s.slot c k).x1 ∧ (t.slot c k).x2 = (s.slot c k).x2 ∧ (t.slot c k).y1 = (s.slot c k).y1 ∧
      (t.slot c k).y2 = (s.slot c k).y2) ∧
  (∀ (v : Slots) (k : Fin 9), v[k].byp = false → setByp k false (setByp k true v) = v) ∧
  (∀ (v : Slots) (xin : W32) (k : Fin 9), v[k].byp = true → (chainStep v xin).2[k] = v[k])

/-- One section, one sample (R142): Direct Form I in the order of the rule, each operation rounded once; a bypassed section
returns its input word and is untouched. -/
def Obligations.SectionStep : Prop :=
  ∀ (r : Section) (xin : W32),
    (r.byp = true → secStep r xin = (xin, r)) ∧
    (r.byp = false →
      let t0 := fmul r.coef.b0 xin
      let t1 := fmul r.coef.b1 r.x1
      let t2 := fmul r.coef.b2 r.x2
      let t3 := fmul r.coef.a1 r.y1
      let t4 := fmul r.coef.a2 r.y2
      let y := fsub (fsub (fadd (fadd t0 t1) t2) t3) t4
      secStep r xin = (y, { r with x2 := r.x1, x1 := xin, y2 := r.y1, y1 := y }))

/-- One chain, one sample (R147): the sample passes through the nine slots in slot order, the output of one being the input
of the next; with all nine bypassed the chain is the identity. -/
def Obligations.ChainPassesSlotsInOrder : Prop :=
  (∀ (v : Slots) (xin : W32), ∃ f : Nat → W32, f 0 = xin ∧
    (∀ k : Fin 9, f (k.val + 1) = (secStep v[k] (f k.val)).1 ∧ (chainStep v xin).2[k] = (secStep v[k] (f k.val)).2) ∧
    (chainStep v xin).1 = f 9) ∧
  (∀ (v : Slots) (xin : W32), (∀ k : Fin 9, v[k].byp = true) → chainStep v xin = (xin, v))

/-- One sample of `BQ.PROC` (R146, R152): the chain of its channel takes it, the output is kept, the response comes with the
last; no word is an error, and nothing else changes, the other channel included. -/
def Obligations.ProcTakesSample : Prop :=
  ∀ (s : State) (ch : BitVec 4) (n : BitVec 16) (k : Nat) (ws : List W32) (w : W32) (rest : List W32) (c : Chan),
    ch.toNat = c.index → s.cur = .a → s.AtOperand k ws w rest →
    exec (.bqProc ch n) s = .next { s with
      x := s.x.set c (chainStep (s.x.get c) w).2
      portA := s.portA.afterProc rest k (chainStep (s.x.get c) w).1 n }

/-- `N = 0` (R146, 42_block_fifo.md R177): `BQ.PROC` and `AF.PUSHS` answer at once and change only their port. -/
def Obligations.EmptyStreams : Prop :=
  ∀ (s : State) (ch : BitVec 4) (w : W32) (rest : List W32),
    ch.toNat ≤ 1 → s.cur = .a → s.strapOk = true → s.AtHeader w rest →
    let a := s.portA.afterHeader w rest [0x00000000]
    let b := s.portA.afterHeader w rest [0x00000000, 0x00000000]
    exec (.bqProc ch 0) s = .next { s with portA := { a with seq := { a.seq with outs := [] } } } ∧
    exec (.afPushs ch 0) s = .next { s with portA := { b with seq := { b.seq with pushed := 0, dropped := 0 } } }

/-- A whole `BQ.PROC` (R146): from its header on, when port A takes its words one after another, the response is the header
and the outputs in time order, and only the chain of its channel has changed. -/
def Obligations.ProcWhole : Prop :=
  ∀ (s : State) (ch : BitVec 4) (c : Chan) (ws rest : List W32) (later : List Turn),
    ch.toNat = c.index → ws.length < 2 ^ 16 → s.strapOk = true → s.portA.seq.phase = .hdr →
    s.portA.input = encode (.bqProc ch (BitVec.ofNat 16 ws.length)) :: (ws ++ rest) →
    s.sched = List.replicate (ws.length + 1) (.port .a) ++ later →
    ∃ t : State, core.run (ws.length + 1) s = .next t ∧
      t = { s with x := s.x.set c (chainRun (s.x.get c) ws).2, portA := t.portA, cur := .a, sched := later,
                   ticks := s.ticks + ws.length + 1 } ∧
      t.portA.output = s.portA.output ++ BitVec.ofNat 32 ws.length :: (chainRun (s.x.get c) ws).1 ∧
      t.portA.input = rest ∧ t.portA.seq.phase = .hdr ∧ t.portA.err = s.portA.err ∧ t.portA.ecode = s.portA.ecode

/-- The order of the updates does not matter and repeating one changes nothing (R151, R148, 20_memory.md R65): peak, low-cut
and high-cut touch disjoint slots. -/
def Obligations.UpdatesCommute : Prop :=
  ∀ (v : Slots) (k : Coefs) (m m' : Nat) (ws ws' : List W32),
    let peak (v : Slots) : Slots := setByp 4 false (installCoefs 4 k v)
    let low (v : Slots) : Slots := cutUpdate 0 m ws v
    let high (v : Slots) : Slots := cutUpdate 2 m' ws' v
    peak (low v) = low (peak v) ∧ peak (high v) = high (peak v) ∧ low (high v) = high (low v) ∧
    peak (peak v) = peak v ∧ low (low v) = low v ∧ high (high v) = high v

/-! ### The audio-block FIFO and the magnitude ring -/

/-- One sample of `AF.PUSHS` (42_block_fifo.md R176, R172, R177): into the accumulator; a completed block is pushed into ring
slot `wptr mod 30` and published by the index, or dropped whole when the producer's view is full; the counters, and with the
last sample the response. Nothing else changes. -/
def Obligations.PushsTakesSample : Prop :=
  ∀ (s : State) (ch : BitVec 4) (n : BitVec 16) (k : Nat) (ws : List W32) (w : W32) (rest : List W32) (c : Chan),
    ch.toNat = c.index → s.cur = .a → s.AtOperand k ws w rest →
    let q := s.portA
    let acc' := s.acc.write (accAddr s.inst c (s.fill.get c)) w
    let block := acc'.readN (accAddr s.inst c 0) s.blkLen
    (s.fill.get c + 1 < s.blkLen →
      exec (.afPushs ch n) s = .next { s with
        acc := acc', fill := s.fill.set c (s.fill.get c + 1)
        portA := q.afterSample rest k q.seq.pushed q.seq.dropped n }) ∧
    (s.blkLen ≤ s.fill.get c + 1 → s.occA c ≠ 30 →
      exec (.afPushs ch n) s = .next { s with
        acc := acc', fill := s.fill.set c 0
        afmem := s.afmem.writeN ((c.index * 30 + (s.wptr.get c).val % 30) * s.inst.blkMax) block
        wptr := s.wptr.set c (s.wptr.get c + 1)
        portA := q.afterSample rest k (q.seq.pushed + 1) q.seq.dropped n }) ∧
    (s.blkLen ≤ s.fill.get c + 1 → s.occA c = 30 →
      exec (.afPushs ch n) s = .next { s with
        acc := acc', fill := s.fill.set c 0
        portA := q.afterSample rest k q.seq.pushed (q.seq.dropped + 1) n })

/-- A whole `AF.PUSHS` (R177): the counters of its response add up to the number of blocks completed, of which the pushed ones
have advanced the write index; the cursor carries over; everything of the other domain and of the cascade is as before. That
the counts add up to `(fill + N) / BLKLEN` is the model's reading: R177's pseudocode and its check V-AF-2 are followed, against
its bound in words, `pushed + dropped <= N / BLKLEN`, which leaves out the samples already in the accumulator (log 26,
DEDUCED). -/
def Obligations.PushsWhole : Prop :=
  ∀ (s : State) (ch : BitVec 4) (c : Chan) (ws rest : List W32) (later : List Turn),
    ch.toNat = c.index → ws.length < 2 ^ 16 → s.strapOk = true → s.fill.get c < s.blkLen → s.portA.seq.phase = .hdr →
    s.portA.input = encode (.afPushs ch (BitVec.ofNat 16 ws.length)) :: (ws ++ rest) →
    s.sched = List.replicate (ws.length + 1) (.port .a) ++ later →
    ∃ (t : State) (pushed dropped : Nat), core.run (ws.length + 1) s = .next t ∧
      t = { s with acc := t.acc, fill := s.fill.set c ((s.fill.get c + ws.length) % s.blkLen), afmem := t.afmem,
                   wptr := s.wptr.set c (s.wptr.get c + Fin.ofNat 60 pushed), portA := t.portA, cur := .a, sched := later,
                   ticks := s.ticks + ws.length + 1 } ∧
      pushed + dropped = (s.fill.get c + ws.length) / s.blkLen ∧
      t.portA.output = s.portA.output ++ [BitVec.ofNat 32 ws.length, BitVec.ofNat 32 (dropped * 2 ^ 16 + pushed)] ∧
      t.portA.input = rest ∧ t.portA.seq.phase = .hdr

/-- `AF.AVAIL` and `MF.AVAIL` (R178, R181): the consumer's count of blocks, the exact count of vectors; nothing else. -/
def Obligations.AvailCounts : Prop :=
  ∀ (s : State) (ch : BitVec 4) (c : Chan) (w : W32) (rest : List W32),
    ch.toNat = c.index → s.cur = .b → s.strapOk = true → s.AtHeader w rest →
    exec (.afAvail ch) s = .next { s with portB := s.portB.afterHeader w rest [BitVec.ofNat 32 (s.availB c)] } ∧
    exec (.mfAvail ch) s = .next { s with portB := s.portB.afterHeader w rest [BitVec.ofNat 32 (s.mocc c)] }

/-- `AF.PULL` (R179, R173): FAIL/EMPTY and no change where the consumer's view is empty; else the `BLKLEN` words of ring slot
`rptr mod 30`, and the index advances. -/
def Obligations.AfPullTakesBlock : Prop :=
  ∀ (s : State) (ch : BitVec 4) (c : Chan) (w : W32) (rest : List W32),
    ch.toNat = c.index → s.cur = .b → s.strapOk = true → s.AtHeader w rest →
    (s.availB c = 0 →
      exec (.afPull ch) s = .next { s with portB := s.portB.afterHeader w rest [0x11000000] }) ∧
    (s.availB c ≠ 0 →
      exec (.afPull ch) s = .next { s with
        rptr := s.rptr.set c (s.rptr.get c + 1)
        portB := s.portB.afterHeader w rest (BitVec.ofNat 32 s.blkLen ::
          s.afmem.readN ((c.index * 30 + (s.rptr.get c).val % 30) * s.inst.blkMax) s.blkLen) })

/-- `MF.PULL` (R182, R173): the same on the magnitude ring, with its exact count. -/
def Obligations.MfPullTakesVector : Prop :=
  ∀ (s : State) (ch : BitVec 4) (c : Chan) (w : W32) (rest : List W32),
    ch.toNat = c.index → s.cur = .b → s.strapOk = true → s.inst.p ≤ 16 → s.AtHeader w rest →
    (s.mocc c = 0 →
      exec (.mfPull ch) s = .next { s with portB := s.portB.afterHeader w rest [0x11000000] }) ∧
    (s.mocc c ≠ 0 →
      exec (.mfPull ch) s = .next { s with
        mr := s.mr.set c (s.mr.get c + 1)
        portB := s.portB.afterHeader w rest (BitVec.ofNat 32 s.inst.nbins ::
          s.mfmem.readN ((c.index * 30 + (s.mr.get c).val % 30) * s.inst.nbins) s.inst.nbins) })

/-- `FG.STEP` (43_fft_magnitude.md R219, R212, R217): FAIL/EMPTY and no change where no block is ready; else the block is
consumed and slid in, and the vector of the window is pushed, or dropped when the magnitude ring is full. -/
def Obligations.FgStepExtracts : Prop :=
  ∀ (s : State) (ch : BitVec 4) (c : Chan) (w : W32) (rest : List W32),
    ch.toNat = c.index → s.cur = .b → s.strapOk = true → s.AtHeader w rest →
    let blk := s.afmem.readN ((c.index * 30 + (s.rptr.get c).val % 30) * s.inst.blkMax) s.blkLen
    let slide' := s.slide.writeN (c.index * s.inst.n) ((s.slide.readN (c.index * s.inst.n) s.inst.n).drop s.blkLen ++ blk)
    let work := List.zipWith (fun v win => ({ re := fmul v win, im := 0x00000000 } : Cplx))
      (slide'.readN (c.index * s.inst.n) s.inst.n) s.inst.win
    let vec := (List.range s.inst.nbins).map fun k =>
      let z := (fft s.inst.p work).getD k Cplx.zero
      toDb s.inst.magScale s.floor (fsqrt (fadd (fmul z.re z.re) (fmul z.im z.im)))
    (s.availB c = 0 →
      exec (.fgStep ch) s = .next { s with portB := s.portB.afterHeader w rest [0x11000000] }) ∧
    (s.availB c ≠ 0 → s.mocc c ≠ 30 →
      exec (.fgStep ch) s = .next { s with
        rptr := s.rptr.set c (s.rptr.get c + 1), slide := slide'
        mfmem := s.mfmem.writeN ((c.index * 30 + (s.mw.get c).val % 30) * s.inst.nbins) vec
        mw := s.mw.set c (s.mw.get c + 1)
        portB := s.portB.afterHeader w rest [0x00000001] }) ∧
    (s.availB c ≠ 0 → s.mocc c = 30 →
      exec (.fgStep ch) s = .next { s with
        rptr := s.rptr.set c (s.rptr.get c + 1), slide := slide'
        portB := s.portB.afterHeader w rest [0x00000000] })

/-- The words a storing command leaves alone (20_memory.md R60): every word of the accumulators but the one of the cursor,
every word of ring storage outside the ring slot written, every word of the sliding buffers outside the channel's. -/
def Obligations.StoresLeaveOtherWords : Prop :=
  (∀ (s t : State) (ch : BitVec 4) (n : BitVec 16) (c : Chan), ch.toNat = c.index → exec (.afPushs ch n) s = .next t →
    (∀ a, a ≠ c.index * s.inst.blkMax + s.fill.get c → t.acc.read a = s.acc.read a) ∧
    (∀ a, (let lo := (c.index * 30 + (s.wptr.get c).val % 30) * s.inst.blkMax; a < lo ∨ lo + s.blkLen ≤ a) →
      t.afmem.read a = s.afmem.read a)) ∧
  (∀ (s t : State) (ch : BitVec 4) (c : Chan), ch.toNat = c.index → s.blkLen ≤ s.inst.n → exec (.fgStep ch) s = .next t →
    (∀ a, a < c.index * s.inst.n ∨ c.index * s.inst.n + s.inst.n ≤ a → t.slide.read a = s.slide.read a) ∧
    (∀ a, (let lo := (c.index * 30 + (s.mw.get c).val % 30) * s.inst.nbins; a < lo ∨ lo + s.inst.nbins ≤ a) →
      t.mfmem.read a = s.mfmem.read a))

/-- The rings are FIFOs (42_block_fifo.md R170 I2, R172, R173, R183): a successful push appends its item, a successful pull
takes the oldest, word for word; the other channel's ring holds what it held. -/
def Obligations.RingsAreFifo : Prop :=
  ∀ (s t : State) (c : Chan) (item : List W32), s.ringsOk c →
    (s.afPush c item = some t → s.afmem.wf = true → s.strapOk = true → item.length = s.blkLen →
      t.afItems c = s.afItems c ++ [item] ∧ ∀ d, d ≠ c → t.afItems d = s.afItems d) ∧
    (s.afPull c = some (item, t) → s.afItems c = item :: t.afItems c ∧ ∀ d, d ≠ c → t.afItems d = s.afItems d) ∧
    (s.mfPush c item = some t → s.mfmem.wf = true → item.length = s.inst.nbins →
      t.mfItems c = s.mfItems c ++ [item] ∧ ∀ d, d ≠ c → t.mfItems d = s.mfItems d) ∧
    (s.mfPull c = some (item, t) → s.mfItems c = item :: t.mfItems c ∧ ∀ d, d ≠ c → t.mfItems d = s.mfItems d)

/-- Thirty-one into thirty (R184): of the blocks offered to an empty ring with no pull between, the first thirty are in it,
in order and bit for bit, and the others are lost. -/
def Obligations.ThirtyBlocksFit : Prop :=
  ∀ (s : State) (c : Chan) (items : List (List W32)),
    s.occ c = 0 → s.occA c = 0 → s.afmem.wf = true → s.strapOk = true → (∀ item ∈ items, item.length = s.blkLen) →
    (s.pushAll c items).afItems c = items.take 30 ∧ (s.pushAll c items).occA c = min 30 items.length

/-- The Gray code of the indices (R171): the two formulas undo each other, every increment changes exactly one bit of the
code, the wrap included, the values listed, and the four codes that never occur. -/
def Obligations.GrayCode : Prop :=
  (∀ q : RingIdx, gray q = BitVec.ofNat 6 (q.val + 2) ^^^ (BitVec.ofNat 6 (q.val + 2) >>> 1) ∧ ungray (gray q) = q.val ∧
    (∃ b : Fin 6, gray q ^^^ gray (q + 1) = (1 : BitVec 6) <<< b.val) ∧
    gray q ≠ 0b000000 ∧ gray q ≠ 0b000001 ∧ gray q ≠ 0b100001 ∧ gray q ≠ 0b100000) ∧
  gray 0 = 0b000011 ∧ gray 1 = 0b000010 ∧ gray 2 = 0b000110 ∧ gray 3 = 0b000111 ∧ gray 29 = 0b010000 ∧
  gray 30 = 0b110000 ∧ gray 59 = 0b100011 ∧ gray 59 ^^^ gray 0 = 0b100000

/-! ### The FFT magnitude extractor -/

/-- Sliding a block in (43_fft_magnitude.md R211): entries move down by the block length, unchanged, and the block is at the
tail; nothing else changes, the other channel's buffer included. -/
def Obligations.SlideShiftsAndAppends : Prop :=
  ∀ (s : State) (c : Chan) (blk : List W32),
    s.inst.valid = true → s.strapOk = true → s.slide.wf = true → blk.length = s.blkLen →
    let t := s.slideIn c blk
    t = { s with slide := t.slide } ∧
    (∀ j, j + s.blkLen < s.inst.n →
      t.slide.read (slideAddr s.inst c j) = s.slide.read (slideAddr s.inst c (j + s.blkLen))) ∧
    (∀ j, j < s.blkLen → t.slide.read (slideAddr s.inst c (s.inst.n - s.blkLen + j)) = blk.getD j 0) ∧
    (∀ d j, d ≠ c → j < s.inst.n → t.slide.read (slideAddr s.inst d j) = s.slide.read (slideAddr s.inst d j))

/-- Bit reversal (R213): bit `j` of `bitrev(i)` is bit `P-1-j` of `i`; it is its own inverse; after the permutation entry `i`
holds what entry `bitrev(i)` held; the map for `P = 3`. -/
def Obligations.BitReversal : Prop :=
  (∀ p i : Nat, i < 2 ^ p → bitrev p i < 2 ^ p ∧ bitrev p (bitrev p i) = i ∧
    (∀ j, j < p → (bitrev p i).testBit j = i.testBit (p - 1 - j))) ∧
  (∀ (p i : Nat) (work : List Cplx), work.length = 2 ^ p → i < 2 ^ p →
    (permute p work).getD i Cplx.zero = work.getD (bitrev p i) Cplx.zero) ∧
  (List.range 8).map (bitrev 3) = [0, 4, 2, 6, 1, 5, 3, 7]

/-- Twiddle factors (R214): entries 0 and `N/4` are exact; the table for `N = 8` is the one listed, and each of its words is
the nearest to `cos(2*pi*k/8)` or `-sin(2*pi*k/8)`. -/
def Obligations.TwiddleTable : Prop :=
  (∀ p : Nat, twiddle p 0 = { re := 0x3F800000, im := 0x00000000 }) ∧
  (∀ p : Nat, twiddle (p + 2) (2 ^ p) = { re := 0x00000000, im := 0xBF800000 }) ∧
  twiddle 3 1 = { re := 0x3F3504F3, im := 0xBF3504F3 } ∧ twiddle 3 3 = { re := 0xBF3504F3, im := 0xBF3504F3 } ∧
  ∀ k : Fin 4, RoundsTo (Real.cos (2 * Real.pi * k / 8)) (twiddle 3 k).re ∧
    RoundsTo (-Real.sin (2 * Real.pi * k / 8)) (twiddle 3 k).im

/-- The transform (R215, R216): bit reversal, then stages `1 .. P`, with no scaling; stage `st` is a butterfly on the pair of
entries `k + j` and `k + j + h` for every `k` that is a multiple of `m = 2^st` and every `j < h = m/2`. -/
def Obligations.StagesAreButterflies : Prop :=
  (∀ (p : Nat) (work : List Cplx), fft p work = (List.range' 1 p).foldl (fun w st => stage p st w) (permute p work)) ∧
  (∀ (p st k j : Nat) (work : List Cplx), 1 ≤ st → st ≤ p → work.length = 2 ^ p → k % 2 ^ st = 0 → k < 2 ^ p →
    j < 2 ^ (st - 1) →
    let w := twiddle p (j * (2 ^ p / 2 ^ st))
    let u := work.getD (k + j) Cplx.zero
    let l := work.getD (k + j + 2 ^ (st - 1)) Cplx.zero
    let tr := fsub (fmul w.re l.re) (fmul w.im l.im)
    let ti := fadd (fmul w.re l.im) (fmul w.im l.re)
    (stage p st work).length = 2 ^ p ∧
    (stage p st work).getD (k + j) Cplx.zero = { re := fadd u.re tr, im := fadd u.im ti } ∧
    (stage p st work).getD (k + j + 2 ^ (st - 1)) Cplx.zero = { re := fsub u.re tr, im := fsub u.im ti })

/-- The decibel conversion (R218): its cases in order, and the corner cases it names: a magnitude of zero, an infinite or NaN
magnitude, a floor that is a NaN or an infinity; a scaled magnitude cannot be negative; the result is never below a floor
that is a number. -/
def Obligations.DecibelConversion : Prop :=
  (∀ scale floor m : W32,
    let v := fmul m scale
    let d := fmul 0x41A00000 (flog10 v)
    (Binary32.isFinite v = false → toDb scale floor m = floor) ∧
    (Binary32.isFinite v = true → Binary32.fgt v 0x00000000 = false → toDb scale floor m = floor) ∧
    (Binary32.isFinite v = true → Binary32.fgt v 0x00000000 = true →
      toDb scale floor m = if Binary32.fgt d floor = true then d else floor) ∧
    (Binary32.isNaN floor = true → toDb scale floor m = floor) ∧
    toDb scale 0x7F800000 m = 0x7F800000 ∧
    (Binary32.isFinite v = true → Binary32.fgt v 0x00000000 = true → Binary32.isFinite d = true →
      toDb scale 0xFF800000 m = d) ∧
    Binary32.fgt floor (toDb scale floor m) = false) ∧
  (∀ scale floor m : W32, Binary32.isFinite scale = true → Binary32.fgt scale 0x00000000 = true →
    (Binary32.units m = 0 ∨ Binary32.isFinite m = false → toDb scale floor m = floor) ∧
    ∀ z : Cplx, Binary32.fgt 0x00000000 (fmul (magnitude z) scale) = false)

/-! ### Arithmetic (00_scope.md R8) -/

/-- Sums and differences of finite words are the exact results rounded once; an exact zero has the sign IEEE 754 gives it. -/
def Obligations.SumsRoundOnce : Prop :=
  ∀ a b : W32, Binary32.isFinite a = true → Binary32.isFinite b = true →
    RoundsTo ((Binary32.value a + Binary32.value b : ℚ) : ℝ) (fadd a b) ∧
    RoundsTo ((Binary32.value a - Binary32.value b : ℚ) : ℝ) (fsub a b) ∧
    (Binary32.value a + Binary32.value b = 0 →
      fadd a b = if Binary32.sign a = true ∧ Binary32.sign b = true then 0x80000000 else 0x00000000) ∧
    (Binary32.value a - Binary32.value b = 0 →
      fsub a b = if Binary32.sign a = true ∧ Binary32.sign b = false then 0x80000000 else 0x00000000)

/-- Products of finite words are the exact results rounded once, zero results included: the sign is the operands' signs
multiplied. -/
def Obligations.ProductsRoundOnce : Prop :=
  ∀ a b : W32, Binary32.isFinite a = true → Binary32.isFinite b = true →
    RoundsTo ((Binary32.value a * Binary32.value b : ℚ) : ℝ) (fmul a b) ∧
    Binary32.sign (fmul a b) = (Binary32.sign a != Binary32.sign b)

/-- The square root of a finite word that is not negative is the real root rounded once; the root of a zero is that zero,
its sign kept. -/
def Obligations.RootsRoundOnce : Prop :=
  ∀ a : W32, Binary32.isFinite a = true → Binary32.sign a = false ∨ a = 0x80000000 →
    RoundsTo (Real.sqrt ((Binary32.value a : ℚ) : ℝ)) (fsqrt a) ∧
      (a = 0x80000000 → fsqrt a = 0x80000000) ∧ (a = 0x00000000 → fsqrt a = 0x00000000)

/-- The results that are no numbers: a NaN operand, infinities that cancel, zero times infinity and the root of a negative
number give a quiet NaN; every other operation on an infinity gives an infinity: in a sum or a difference its own, in a product
the one of the operands' signs multiplied, as a root +infinity. A quiet NaN has exponent all ones and bit 22 set; which one it
is stays open. -/
def Obligations.InvalidGivesQuietNaN : Prop :=
  let quiet (r : W32) : Prop := r.extractLsb' 22 9 = 0x1FF
  (∀ a b : W32, Binary32.isNaN a = true ∨ Binary32.isNaN b = true →
    quiet (fadd a b) ∧ quiet (fsub a b) ∧ quiet (fmul a b)) ∧
  (∀ a : W32, Binary32.isNaN a = true ∨ (Binary32.sign a = true ∧ a ≠ 0x80000000) → quiet (fsqrt a)) ∧
  quiet (fadd 0x7F800000 0xFF800000) ∧ quiet (fadd 0xFF800000 0x7F800000) ∧
  quiet (fsub 0x7F800000 0x7F800000) ∧ quiet (fsub 0xFF800000 0xFF800000) ∧
  (∀ a b : W32, Binary32.isInf a = true → Binary32.units b = 0 → quiet (fmul a b) ∧ quiet (fmul b a)) ∧
  (∀ a b : W32, Binary32.isInf a = true → Binary32.isFinite b = true →
    fadd a b = a ∧ fadd b a = a ∧ fsub a b = a ∧ fsub b a = a ^^^ 0x80000000) ∧
  (∀ a b : W32, Binary32.isInf a = true → Binary32.isInf b = true →
    (Binary32.sign a = Binary32.sign b → fadd a b = a) ∧ (Binary32.sign a ≠ Binary32.sign b → fsub a b = a)) ∧
  (∀ a b : W32, Binary32.isInf a = true → Binary32.isNaN b = false → Binary32.units b ≠ 0 →
    fmul a b = (if Binary32.sign a = Binary32.sign b then 0x7F800000 else 0xFF800000) ∧ fmul b a = fmul a b) ∧
  fsqrt 0x7F800000 = 0x7F800000

/-- All that is known of the logarithm, a free value: +0.0 at 1.0; finite and within one unit in the last place on finite
positive words (the unit of the result word: the model's reading, log 8); monotone there. -/
def Obligations.LogarithmProperties : Prop :=
  flog10 0x3F800000 = 0x00000000 ∧
  (∀ a : W32, Binary32.isFinite a = true → 0 < Binary32.value a →
    Binary32.isFinite (flog10 a) = true ∧
    |((Binary32.value (flog10 a) : ℚ) : ℝ) - Real.logb 10 ((Binary32.value a : ℚ) : ℝ)| ≤
      ((Binary32.ulp (flog10 a) : ℚ) : ℝ)) ∧
  (∀ a b : W32, Binary32.isFinite a = true → Binary32.isFinite b = true → 0 < Binary32.value a →
    Binary32.value a ≤ Binary32.value b → Binary32.value (flog10 a) ≤ Binary32.value (flog10 b))

/-- Ordered greater-than: false on a NaN, the order of the values on finite words, infinities beyond every finite word. -/
def Obligations.OrderedGreaterThan : Prop :=
  (∀ a b : W32, Binary32.isNaN a = true ∨ Binary32.isNaN b = true → Binary32.fgt a b = false) ∧
  (∀ a b : W32, Binary32.isFinite a = true → Binary32.isFinite b = true →
    (Binary32.fgt a b = true ↔ Binary32.value b < Binary32.value a)) ∧
  (∀ a : W32, Binary32.isFinite a = true →
    Binary32.fgt 0x7F800000 a = true ∧ Binary32.fgt a 0xFF800000 = true ∧ Binary32.fgt a 0x7F800000 = false ∧
    Binary32.fgt 0xFF800000 a = false)

/-! ### Invariants of every step -/

/-- Every step keeps the memories in canonical form (20_memory.md R60; the form is the model's, log 2). -/
def Obligations.MemoryStaysCanonical : Prop :=
  ∀ s t : State, s.memoryCanonical = true → step s = .next t → t.memoryCanonical = true

/-- Every step keeps the bracket of the ring counts (42_block_fifo.md R170 I1 and I3, R175); a synchroniser's step makes its
domain's count exact, and exact it stays while no pull (for the producer's) and no push (for the consumer's) happens. -/
def Obligations.RingCountsStayOk : Prop :=
  ∀ (s t : State) (c : Chan), s.ringsOk c → step s = .next t →
    t.ringsOk c ∧
    (s.nextTurn = .syncR c → t.occA c = t.occ c) ∧ (s.nextTurn = .syncW c → t.availB c = t.occ c) ∧
    (s.occA c = s.occ c → t.rptr.get c = s.rptr.get c → t.occA c = t.occ c) ∧
    (s.availB c = s.occ c → t.wptr.get c = s.wptr.get c → t.availB c = t.occ c)

/-- The whole invariant of the machine holds right after reset, for every valid instance and every strap (the instance kept in
the state and the form of its memories are the model's: logs 5 and 2). -/
def Obligations.InvariantAtReset : Prop :=
  State.reset.Inv ∧ ∀ (inst : Params) (strap : BitVec 16), inst.valid = true → (State.resetOf inst strap).Inv

/-- Every step keeps the whole invariant of the machine (its clauses on the instance and on the form of the memories are the
model's: logs 5 and 2). -/
def Obligations.InvariantKept : Prop :=
  ∀ s t : State, s.Inv → step s = .next t → t.Inv

/-! ### Isolation of the two domains -/

/-- A step of a port writes only what its domain owns (60_exceptions.md R280). -/
def Obligations.PortsOwnTheirDomain : Prop :=
  ∀ s t : State, step s = .next t →
    (s.nextTurn = .port .a → s.seqOk .a →
      t = { s with x := t.x, acc := t.acc, fill := t.fill, afmem := t.afmem, wptr := t.wptr, portA := t.portA,
                   cur := .a, sched := t.sched, ticks := t.ticks }) ∧
    (s.nextTurn = .port .b → s.seqOk .b →
      t = { s with rptr := t.rptr, slide := t.slide, mfmem := t.mfmem, mw := t.mw, mr := t.mr, floor := t.floor,
                   portB := t.portB, cur := .b, sched := t.sched, ticks := t.ticks })

/-- What a port does depends only on what its domain holds or sees (20_memory.md R61, R71): in two states that agree on that,
its step leaves states that agree on it. -/
def Obligations.DomainsIsolated : Prop :=
  (∀ s s' t t' : State, AgreeForA s s' → s.seqOk .a → s.nextTurn = .port .a → s'.nextTurn = .port .a →
    step s = .next t → step s' = .next t' → AgreeForA t t') ∧
  (∀ s s' t t' : State, AgreeForB s s' → s.seqOk .b → s.nextTurn = .port .b → s'.nextTurn = .port .b →
    step s = .next t → step s' = .next t' → AgreeForB t t')

/-! ### The host's side -/

/-- The host's factory (40_coefficient_factory.md R122 to R125, R127) and the command that takes its result (30_encoding.md
R95). On valid settings there is a design: its words are the rounded numbers of real sections, of which each cut stage has
`order/2 = slope index + 1`, exactly the operands of `BQ.CUTUPD` with the slope index as slope code, a high-pass for the low-cut
and a low-pass for the high-cut; each stage depends on its own settings and the rate alone. On failing settings there is none,
and no update is sent (93_implementation_defined.md U3). What a response is held against to be called attenuated is the model's
reading (log 27), and settings that are not finite are neither valid nor failing (log 28). -/
def Obligations.FactoryFillsCutupd : Prop :=
  (∀ (k : ChainSettings) (rate : W32), k.Valid rate →
    ∃ (d : Design) (peak : RealSection) (low high : List RealSection), Config.factory.design k rate = some d ∧
      d.peak.Rounds peak ∧ List.Forall₂ Coefs.Rounds d.lowCut low ∧ List.Forall₂ Coefs.Rounds d.highCut high ∧
      AttenuatesBelow low (Binary32.value k.lowCutFreq : ℚ) (Binary32.value rate : ℚ) ∧
      AttenuatesAbove high (Binary32.value k.highCutFreq : ℚ) (Binary32.value rate : ℚ) ∧
      d.lowCut.length = k.lowCutSlope.index + 1 ∧ d.highCut.length = k.highCutSlope.index + 1 ∧
      (Instr.bqCutupd 3 0 k.lowCutSlope.code).nopnd = (d.lowCut.flatMap Coefs.words).length ∧
      (Instr.bqCutupd 3 2 k.highCutSlope.code).nopnd = (d.highCut.flatMap Coefs.words).length) ∧
  (∀ (k : ChainSettings) (rate : W32), k.Fails rate →
    Config.factory.design k rate = none ∧ hostUpdate k (Config.factory.design k rate) = []) ∧
  (∀ (k k' : ChainSettings) (rate : W32) (d d' : Design), k.Valid rate → k'.Valid rate →
    Config.factory.design k rate = some d → Config.factory.design k' rate = some d' →
    (k.peakFreq = k'.peakFreq → k.peakQuality = k'.peakQuality → k.peakGainDb = k'.peakGainDb → d.peak = d'.peak) ∧
    (k.lowCutFreq = k'.lowCutFreq → k.lowCutSlope = k'.lowCutSlope → d.lowCut = d'.lowCut) ∧
    (k.highCutFreq = k'.highCutFreq → k.highCutSlope = k'.highCutSlope → d.highCut = d'.highCut))
end

