-- ==== Sys2Proof/Laws/State.lean ====
section
/-! SUPPORT. The small lemmas of the state's operations: what each update does to each field, so that no proof unfolds a record
update. Every operation on the port whose word is being taken is brought to the form `s.setPort s.cur q`. -/

namespace Sys2Proof.Machine

/-! ### Pairs over the channels -/

@[simp] theorem PerChan.get_left {α : Type} (v : PerChan α) : v.get .left = v.left := rfl
@[simp] theorem PerChan.get_right {α : Type} (v : PerChan α) : v.get .right = v.right := rfl
@[simp] theorem PerChan.get_set_self {α : Type} (v : PerChan α) (c : Chan) (a : α) : (v.set c a).get c = a := by
  cases c <;> rfl
theorem PerChan.get_set_ne {α : Type} (v : PerChan α) {c d : Chan} (h : d ≠ c) (a : α) : (v.set c a).get d = v.get d := by
  cases c <;> cases d <;> first | rfl | exact absurd rfl h
theorem PerChan.get_set {α : Type} (v : PerChan α) (c d : Chan) (a : α) :
    (v.set c a).get d = if d = c then a else v.get d := by
  cases c <;> cases d <;> rfl
@[simp] theorem PerChan.set_get {α : Type} (v : PerChan α) (c : Chan) : v.set c (v.get c) = v := by cases c <;> rfl
@[simp] theorem PerChan.get_both {α : Type} (a : α) (c : Chan) : (PerChan.both a).get c = a := by cases c <;> rfl
theorem PerChan.ext_get {α : Type} {v w : PerChan α} (h : ∀ c, v.get c = w.get c) : v = w := by
  cases v; cases w
  have hl := h .left
  have hr := h .right
  simp only [PerChan.get_left, PerChan.get_right] at hl hr
  rw [hl, hr]

/-! ### One port replaced -/

@[simp] theorem State.port_a (s : State) : s.port .a = s.portA := rfl
@[simp] theorem State.port_b (s : State) : s.port .b = s.portB := rfl
theorem State.setPort_a (s : State) (q : PortState) : s.setPort .a q = { s with portA := q } := rfl
theorem State.setPort_b (s : State) (q : PortState) : s.setPort .b q = { s with portB := q } := rfl
@[simp] theorem State.port_setPort_self (s : State) (p : Port) (q : PortState) : (s.setPort p q).port p = q := by
  cases p <;> rfl
theorem State.port_setPort_ne (s : State) {p p' : Port} (h : p' ≠ p) (q : PortState) :
    (s.setPort p q).port p' = s.port p' := by
  cases p <;> cases p' <;> first | rfl | exact absurd rfl h
@[simp] theorem State.setPort_setPort (s : State) (p : Port) (q q' : PortState) :
    (s.setPort p q).setPort p q' = s.setPort p q' := by
  cases p <;> rfl
@[simp] theorem State.setPort_port (s : State) (p : Port) : s.setPort p (s.port p) = s := by cases p <;> rfl

@[simp] theorem State.inst_setPort (s : State) (p : Port) (q : PortState) : (s.setPort p q).inst = s.inst := by cases p <;> rfl
@[simp] theorem State.x_setPort (s : State) (p : Port) (q : PortState) : (s.setPort p q).x = s.x := by cases p <;> rfl
@[simp] theorem State.acc_setPort (s : State) (p : Port) (q : PortState) : (s.setPort p q).acc = s.acc := by cases p <;> rfl
@[simp] theorem State.fill_setPort (s : State) (p : Port) (q : PortState) : (s.setPort p q).fill = s.fill := by cases p <;> rfl
@[simp] theorem State.afmem_setPort (s : State) (p : Port) (q : PortState) : (s.setPort p q).afmem = s.afmem := by cases p <;> rfl
@[simp] theorem State.wptr_setPort (s : State) (p : Port) (q : PortState) : (s.setPort p q).wptr = s.wptr := by cases p <;> rfl
@[simp] theorem State.rptr_setPort (s : State) (p : Port) (q : PortState) : (s.setPort p q).rptr = s.rptr := by cases p <;> rfl
@[simp] theorem State.wptrSeen_setPort (s : State) (p : Port) (q : PortState) : (s.setPort p q).wptrSeen = s.wptrSeen := by cases p <;> rfl
@[simp] theorem State.rptrSeen_setPort (s : State) (p : Port) (q : PortState) : (s.setPort p q).rptrSeen = s.rptrSeen := by cases p <;> rfl
@[simp] theorem State.slide_setPort (s : State) (p : Port) (q : PortState) : (s.setPort p q).slide = s.slide := by cases p <;> rfl
@[simp] theorem State.mfmem_setPort (s : State) (p : Port) (q : PortState) : (s.setPort p q).mfmem = s.mfmem := by cases p <;> rfl
@[simp] theorem State.mw_setPort (s : State) (p : Port) (q : PortState) : (s.setPort p q).mw = s.mw := by cases p <;> rfl
@[simp] theorem State.mr_setPort (s : State) (p : Port) (q : PortState) : (s.setPort p q).mr = s.mr := by cases p <;> rfl
@[simp] theorem State.floor_setPort (s : State) (p : Port) (q : PortState) : (s.setPort p q).floor = s.floor := by cases p <;> rfl
@[simp] theorem State.blklen_setPort (s : State) (p : Port) (q : PortState) : (s.setPort p q).blklen = s.blklen := by cases p <;> rfl
@[simp] theorem State.cur_setPort (s : State) (p : Port) (q : PortState) : (s.setPort p q).cur = s.cur := by cases p <;> rfl
@[simp] theorem State.sched_setPort (s : State) (p : Port) (q : PortState) : (s.setPort p q).sched = s.sched := by cases p <;> rfl
@[simp] theorem State.ticks_setPort (s : State) (p : Port) (q : PortState) : (s.setPort p q).ticks = s.ticks := by cases p <;> rfl

/-! ### The port whose word is being taken: every operation as one `setPort` -/

@[simp] theorem State.here_setPort (s : State) (q : PortState) : (s.setPort s.cur q).here = q := by
  unfold State.here; rw [State.cur_setPort, State.port_setPort_self]
@[simp] theorem State.setHere_eq (s : State) (q : PortState) : s.setHere q = s.setPort s.cur q := rfl
@[simp] theorem State.seq_eq (s : State) : s.seq = s.here.seq := rfl
@[simp] theorem State.setSeq_eq (s : State) (q : Seq) : s.setSeq q = s.setPort s.cur { s.here with seq := q } := rfl
@[simp] theorem State.takeWord_eq (s : State) :
    s.takeWord = s.setPort s.cur { s.here with input := s.here.input.tail } := rfl
@[simp] theorem State.respond_eq (s : State) (k : Kind) (code : BitVec 4) (aux : BitVec 16) (data : List W32) :
    s.respond k code aux data =
      s.setPort s.cur { s.here with output := s.here.output ++ respHeader k code aux :: data } := rfl
@[simp] theorem State.respondOk_eq (s : State) (n : Nat) (data : List W32) :
    s.respondOk n data = s.respond .ok 0 (BitVec.ofNat 16 n) data := rfl
@[simp] theorem State.respondEmpty_eq (s : State) : s.respondEmpty = s.respond .fail 1 0 [] := rfl
theorem State.refuse_eq (s : State) (e : ErrCode) :
    s.refuse e = s.setPort s.cur { s.here.raise e with
      output := s.here.output ++ [respHeader .err e.bits 0] } := by
  unfold State.refuse
  simp [PortState.raise]
@[simp] theorem State.latch_eq (s : State) (w : W32) (n : Nat) :
    s.latch w n = s.setPort s.cur { s.here with seq := { s.here.seq with hdr := w, left := n, buf := [] } } := rfl
@[simp] theorem State.setPhase_eq (s : State) (ph : Phase) :
    s.setPhase ph = s.setPort s.cur { s.here with seq := { s.here.seq with phase := ph } } := rfl
@[simp] theorem State.countDown_eq (s : State) :
    s.countDown = s.setPort s.cur { s.here with seq := { s.here.seq with left := s.here.seq.left - 1 } } := rfl
@[simp] theorem State.keepOperand_eq (w : W32) (s : State) :
    s.keepOperand w = s.setPort s.cur { s.here with seq := { s.here.seq with buf := s.here.seq.buf ++ [w] } } := rfl

/-! ### The section slots -/

theorem State.slot_eq (s : State) (c : Chan) (i : Fin 9) : s.slot c i = (s.x.get c)[i] := rfl
@[simp] theorem State.slot_setPort (s : State) (p : Port) (q : PortState) (c : Chan) (i : Fin 9) :
    (s.setPort p q).slot c i = s.slot c i := by
  unfold State.slot; rw [State.x_setPort]
@[simp] theorem State.x_setSlots (s : State) (c : Chan) (v : Slots) : (s.setSlots c v).x = s.x.set c v := rfl

/-- The slots of a channel after a change made to the selected channels (41_biquad_cascade.md R148). -/
theorem State.x_onSelected (s : State) (chm : BitVec 4) (f : Slots → Slots) (c : Chan) :
    (s.onSelected chm f).x.get c = if selects chm c = true then f (s.x.get c) else s.x.get c := by
  cases c <;> rfl

@[simp] theorem State.inst_setSlots (s : State) (c : Chan) (v : Slots) : (s.setSlots c v).inst = s.inst := rfl
@[simp] theorem State.acc_setSlots (s : State) (c : Chan) (v : Slots) : (s.setSlots c v).acc = s.acc := rfl
@[simp] theorem State.fill_setSlots (s : State) (c : Chan) (v : Slots) : (s.setSlots c v).fill = s.fill := rfl
@[simp] theorem State.afmem_setSlots (s : State) (c : Chan) (v : Slots) : (s.setSlots c v).afmem = s.afmem := rfl
@[simp] theorem State.wptr_setSlots (s : State) (c : Chan) (v : Slots) : (s.setSlots c v).wptr = s.wptr := rfl
@[simp] theorem State.rptr_setSlots (s : State) (c : Chan) (v : Slots) : (s.setSlots c v).rptr = s.rptr := rfl
@[simp] theorem State.wptrSeen_setSlots (s : State) (c : Chan) (v : Slots) : (s.setSlots c v).wptrSeen = s.wptrSeen := rfl
@[simp] theorem State.rptrSeen_setSlots (s : State) (c : Chan) (v : Slots) : (s.setSlots c v).rptrSeen = s.rptrSeen := rfl
@[simp] theorem State.slide_setSlots (s : State) (c : Chan) (v : Slots) : (s.setSlots c v).slide = s.slide := rfl
@[simp] theorem State.mfmem_setSlots (s : State) (c : Chan) (v : Slots) : (s.setSlots c v).mfmem = s.mfmem := rfl
@[simp] theorem State.mw_setSlots (s : State) (c : Chan) (v : Slots) : (s.setSlots c v).mw = s.mw := rfl
@[simp] theorem State.mr_setSlots (s : State) (c : Chan) (v : Slots) : (s.setSlots c v).mr = s.mr := rfl
@[simp] theorem State.floor_setSlots (s : State) (c : Chan) (v : Slots) : (s.setSlots c v).floor = s.floor := rfl
@[simp] theorem State.blklen_setSlots (s : State) (c : Chan) (v : Slots) : (s.setSlots c v).blklen = s.blklen := rfl
@[simp] theorem State.cur_setSlots (s : State) (c : Chan) (v : Slots) : (s.setSlots c v).cur = s.cur := rfl
@[simp] theorem State.sched_setSlots (s : State) (c : Chan) (v : Slots) : (s.setSlots c v).sched = s.sched := rfl
@[simp] theorem State.ticks_setSlots (s : State) (c : Chan) (v : Slots) : (s.setSlots c v).ticks = s.ticks := rfl
@[simp] theorem State.portA_setSlots (s : State) (c : Chan) (v : Slots) : (s.setSlots c v).portA = s.portA := rfl
@[simp] theorem State.portB_setSlots (s : State) (c : Chan) (v : Slots) : (s.setSlots c v).portB = s.portB := rfl
@[simp] theorem State.inst_onSelected (s : State) (chm : BitVec 4) (f : Slots → Slots) : (s.onSelected chm f).inst = s.inst := rfl
@[simp] theorem State.acc_onSelected (s : State) (chm : BitVec 4) (f : Slots → Slots) : (s.onSelected chm f).acc = s.acc := rfl
@[simp] theorem State.fill_onSelected (s : State) (chm : BitVec 4) (f : Slots → Slots) : (s.onSelected chm f).fill = s.fill := rfl
@[simp] theorem State.afmem_onSelected (s : State) (chm : BitVec 4) (f : Slots → Slots) : (s.onSelected chm f).afmem = s.afmem := rfl
@[simp] theorem State.wptr_onSelected (s : State) (chm : BitVec 4) (f : Slots → Slots) : (s.onSelected chm f).wptr = s.wptr := rfl
@[simp] theorem State.rptr_onSelected (s : State) (chm : BitVec 4) (f : Slots → Slots) : (s.onSelected chm f).rptr = s.rptr := rfl
@[simp] theorem State.wptrSeen_onSelected (s : State) (chm : BitVec 4) (f : Slots → Slots) : (s.onSelected chm f).wptrSeen = s.wptrSeen := rfl
@[simp] theorem State.rptrSeen_onSelected (s : State) (chm : BitVec 4) (f : Slots → Slots) : (s.onSelected chm f).rptrSeen = s.rptrSeen := rfl
@[simp] theorem State.slide_onSelected (s : State) (chm : BitVec 4) (f : Slots → Slots) : (s.onSelected chm f).slide = s.slide := rfl
@[simp] theorem State.mfmem_onSelected (s : State) (chm : BitVec 4) (f : Slots → Slots) : (s.onSelected chm f).mfmem = s.mfmem := rfl
@[simp] theorem State.mw_onSelected (s : State) (chm : BitVec 4) (f : Slots → Slots) : (s.onSelected chm f).mw = s.mw := rfl
@[simp] theorem State.mr_onSelected (s : State) (chm : BitVec 4) (f : Slots → Slots) : (s.onSelected chm f).mr = s.mr := rfl
@[simp] theorem State.floor_onSelected (s : State) (chm : BitVec 4) (f : Slots → Slots) : (s.onSelected chm f).floor = s.floor := rfl
@[simp] theorem State.blklen_onSelected (s : State) (chm : BitVec 4) (f : Slots → Slots) : (s.onSelected chm f).blklen = s.blklen := rfl
@[simp] theorem State.cur_onSelected (s : State) (chm : BitVec 4) (f : Slots → Slots) : (s.onSelected chm f).cur = s.cur := rfl
@[simp] theorem State.sched_onSelected (s : State) (chm : BitVec 4) (f : Slots → Slots) : (s.onSelected chm f).sched = s.sched := rfl
@[simp] theorem State.ticks_onSelected (s : State) (chm : BitVec 4) (f : Slots → Slots) : (s.onSelected chm f).ticks = s.ticks := rfl
@[simp] theorem State.portA_onSelected (s : State) (chm : BitVec 4) (f : Slots → Slots) : (s.onSelected chm f).portA = s.portA := rfl
@[simp] theorem State.portB_onSelected (s : State) (chm : BitVec 4) (f : Slots → Slots) : (s.onSelected chm f).portB = s.portB := rfl

/-! ### Turns and synchronisers -/

@[simp] theorem State.inst_passTurn (s : State) : s.passTurn.inst = s.inst := rfl
@[simp] theorem State.x_passTurn (s : State) : s.passTurn.x = s.x := rfl
@[simp] theorem State.acc_passTurn (s : State) : s.passTurn.acc = s.acc := rfl
@[simp] theorem State.fill_passTurn (s : State) : s.passTurn.fill = s.fill := rfl
@[simp] theorem State.afmem_passTurn (s : State) : s.passTurn.afmem = s.afmem := rfl
@[simp] theorem State.wptr_passTurn (s : State) : s.passTurn.wptr = s.wptr := rfl
@[simp] theorem State.rptr_passTurn (s : State) : s.passTurn.rptr = s.rptr := rfl
@[simp] theorem State.wptrSeen_passTurn (s : State) : s.passTurn.wptrSeen = s.wptrSeen := rfl
@[simp] theorem State.rptrSeen_passTurn (s : State) : s.passTurn.rptrSeen = s.rptrSeen := rfl
@[simp] theorem State.slide_passTurn (s : State) : s.passTurn.slide = s.slide := rfl
@[simp] theorem State.mfmem_passTurn (s : State) : s.passTurn.mfmem = s.mfmem := rfl
@[simp] theorem State.mw_passTurn (s : State) : s.passTurn.mw = s.mw := rfl
@[simp] theorem State.mr_passTurn (s : State) : s.passTurn.mr = s.mr := rfl
@[simp] theorem State.floor_passTurn (s : State) : s.passTurn.floor = s.floor := rfl
@[simp] theorem State.blklen_passTurn (s : State) : s.passTurn.blklen = s.blklen := rfl
@[simp] theorem State.cur_passTurn (s : State) : s.passTurn.cur = s.cur := rfl
@[simp] theorem State.portA_passTurn (s : State) : s.passTurn.portA = s.portA := rfl
@[simp] theorem State.portB_passTurn (s : State) : s.passTurn.portB = s.portB := rfl
@[simp] theorem State.sched_passTurn (s : State) : s.passTurn.sched = s.sched.tail := rfl
@[simp] theorem State.ticks_passTurn (s : State) : s.passTurn.ticks = s.ticks + 1 := rfl
@[simp] theorem State.inst_syncW (s : State) (c : Chan) : (s.syncW c).inst = s.inst := rfl
@[simp] theorem State.x_syncW (s : State) (c : Chan) : (s.syncW c).x = s.x := rfl
@[simp] theorem State.acc_syncW (s : State) (c : Chan) : (s.syncW c).acc = s.acc := rfl
@[simp] theorem State.fill_syncW (s : State) (c : Chan) : (s.syncW c).fill = s.fill := rfl
@[simp] theorem State.afmem_syncW (s : State) (c : Chan) : (s.syncW c).afmem = s.afmem := rfl
@[simp] theorem State.wptr_syncW (s : State) (c : Chan) : (s.syncW c).wptr = s.wptr := rfl
@[simp] theorem State.rptr_syncW (s : State) (c : Chan) : (s.syncW c).rptr = s.rptr := rfl
@[simp] theorem State.wptrSeen_syncW (s : State) (c : Chan) : (s.syncW c).wptrSeen = s.wptrSeen.set c (s.wptr.get c) := rfl
@[simp] theorem State.rptrSeen_syncW (s : State) (c : Chan) : (s.syncW c).rptrSeen = s.rptrSeen := rfl
@[simp] theorem State.slide_syncW (s : State) (c : Chan) : (s.syncW c).slide = s.slide := rfl
@[simp] theorem State.mfmem_syncW (s : State) (c : Chan) : (s.syncW c).mfmem = s.mfmem := rfl
@[simp] theorem State.mw_syncW (s : State) (c : Chan) : (s.syncW c).mw = s.mw := rfl
@[simp] theorem State.mr_syncW (s : State) (c : Chan) : (s.syncW c).mr = s.mr := rfl
@[simp] theorem State.floor_syncW (s : State) (c : Chan) : (s.syncW c).floor = s.floor := rfl
@[simp] theorem State.blklen_syncW (s : State) (c : Chan) : (s.syncW c).blklen = s.blklen := rfl
@[simp] theorem State.cur_syncW (s : State) (c : Chan) : (s.syncW c).cur = s.cur := rfl
@[simp] theorem State.sched_syncW (s : State) (c : Chan) : (s.syncW c).sched = s.sched := rfl
@[simp] theorem State.ticks_syncW (s : State) (c : Chan) : (s.syncW c).ticks = s.ticks := rfl
@[simp] theorem State.portA_syncW (s : State) (c : Chan) : (s.syncW c).portA = s.portA := rfl
@[simp] theorem State.portB_syncW (s : State) (c : Chan) : (s.syncW c).portB = s.portB := rfl
@[simp] theorem State.inst_syncR (s : State) (c : Chan) : (s.syncR c).inst = s.inst := rfl
@[simp] theorem State.x_syncR (s : State) (c : Chan) : (s.syncR c).x = s.x := rfl
@[simp] theorem State.acc_syncR (s : State) (c : Chan) : (s.syncR c).acc = s.acc := rfl
@[simp] theorem State.fill_syncR (s : State) (c : Chan) : (s.syncR c).fill = s.fill := rfl
@[simp] theorem State.afmem_syncR (s : State) (c : Chan) : (s.syncR c).afmem = s.afmem := rfl
@[simp] theorem State.wptr_syncR (s : State) (c : Chan) : (s.syncR c).wptr = s.wptr := rfl
@[simp] theorem State.rptr_syncR (s : State) (c : Chan) : (s.syncR c).rptr = s.rptr := rfl
@[simp] theorem State.wptrSeen_syncR (s : State) (c : Chan) : (s.syncR c).wptrSeen = s.wptrSeen := rfl
@[simp] theorem State.rptrSeen_syncR (s : State) (c : Chan) : (s.syncR c).rptrSeen = s.rptrSeen.set c (s.rptr.get c) := rfl
@[simp] theorem State.slide_syncR (s : State) (c : Chan) : (s.syncR c).slide = s.slide := rfl
@[simp] theorem State.mfmem_syncR (s : State) (c : Chan) : (s.syncR c).mfmem = s.mfmem := rfl
@[simp] theorem State.mw_syncR (s : State) (c : Chan) : (s.syncR c).mw = s.mw := rfl
@[simp] theorem State.mr_syncR (s : State) (c : Chan) : (s.syncR c).mr = s.mr := rfl
@[simp] theorem State.floor_syncR (s : State) (c : Chan) : (s.syncR c).floor = s.floor := rfl
@[simp] theorem State.blklen_syncR (s : State) (c : Chan) : (s.syncR c).blklen = s.blklen := rfl
@[simp] theorem State.cur_syncR (s : State) (c : Chan) : (s.syncR c).cur = s.cur := rfl
@[simp] theorem State.sched_syncR (s : State) (c : Chan) : (s.syncR c).sched = s.sched := rfl
@[simp] theorem State.ticks_syncR (s : State) (c : Chan) : (s.syncR c).ticks = s.ticks := rfl
@[simp] theorem State.portA_syncR (s : State) (c : Chan) : (s.syncR c).portA = s.portA := rfl
@[simp] theorem State.portB_syncR (s : State) (c : Chan) : (s.syncR c).portB = s.portB := rfl

end Sys2Proof.Machine
end

