-- ==== Sys2Proof/Laws/Cascade.lean ====
section
/-! SUPPORT. What the updates of the cascade and a sample do to each slot of a channel, said once (41_biquad_cascade.md R142 to
R147). -/

namespace Sys2Proof.Machine

/-- A section after coefficients are installed. -/
def Section.withCoefs (r : Section) (k : Coefs) : Section := { r with coef := k, cv := true }

/-- A section after its bypass flag is written. -/
def Section.withByp (r : Section) (b : Bool) : Section := { r with byp := b }

/-- Installing coefficients changes one slot. -/
theorem installCoefs_get (i : Fin 9) (k : Coefs) (v : Slots) (j : Fin 9) :
    (installCoefs i k v)[j] = if j = i then v[j].withCoefs k else v[j] := by
  unfold installCoefs Section.withCoefs
  simp only [Fin.getElem_fin, Vector.getElem_set]
  by_cases h : i = j
  · subst h; simp
  · rw [if_neg (fun e => h (Fin.ext e)), if_neg (fun e => h e.symm)]

/-- Writing a bypass flag changes one slot. -/
theorem setByp_get (i : Fin 9) (b : Bool) (v : Slots) (j : Fin 9) :
    (setByp i b v)[j] = if j = i then v[j].withByp b else v[j] := by
  unfold setByp Section.withByp
  simp only [Fin.getElem_fin, Vector.getElem_set]
  by_cases h : i = j
  · subst h; simp
  · rw [if_neg (fun e => h (Fin.ext e)), if_neg (fun e => h e.symm)]

/-- The first slot of a cut stage (10_state.md R22). -/
def stageBase (stg : BitVec 4) : Nat := if stg = 0 then 0 else 5

/-- Section `i` of a cut stage lies in slot `base + i`. -/
theorem cutSlot_val (stg : BitVec 4) (i : Fin 4) : (cutSlot stg i).val = stageBase stg + i.val := by
  unfold cutSlot stageBase; split <;> simp

/-- The slots of a cut stage, and which of its sections lies in one. -/
theorem cutSlot_eq_iff (stg : BitVec 4) (i : Fin 4) (k : Fin 9) :
    k = cutSlot stg i ↔ i.val = k.val - stageBase stg ∧ stageBase stg ≤ k.val := by
  rw [Fin.ext_iff, cutSlot_val]; omega

/-- Disabling a list of sections of a stage, slot by slot. -/
theorem disable_foldl_get (stg : BitVec 4) (l : List (Fin 4)) (k : Fin 9) (v : Slots) :
    (l.foldl (fun v i => setByp (cutSlot stg i) true v) v)[k] =
      if ∃ i ∈ l, k = cutSlot stg i then v[k].withByp true else v[k] := by
  induction l generalizing v with
  | nil => simp
  | cons i l ih =>
    rw [List.foldl_cons, ih, setByp_get]
    simp only [List.mem_cons, exists_eq_or_imp]
    by_cases h2 : ∃ j ∈ l, k = cutSlot stg j
    · rw [if_pos h2, if_pos (show k = cutSlot stg i ∨ ∃ j ∈ l, k = cutSlot stg j from .inr h2)]; split <;> rfl
    · rw [if_neg h2]
      by_cases h1 : k = cutSlot stg i
      · rw [if_pos h1, if_pos (.inl h1)]
      · rw [if_neg h1, if_neg (not_or.mpr ⟨h1, h2⟩)]

/-- Enabling a list of sections of a stage, slot by slot. -/
theorem enable_foldl_get (stg : BitVec 4) (ws : List W32) (l : List (Fin 4)) (k : Fin 9) (v : Slots) :
    (l.foldl (enableSection stg ws) v)[k] =
      if ∃ i ∈ l, k = cutSlot stg i then (v[k].withCoefs (coefsAt ws (k.val - stageBase stg))).withByp false else v[k] := by
  induction l generalizing v with
  | nil => simp
  | cons i l ih =>
    have hi : (enableSection stg ws v i)[k] =
        if k = cutSlot stg i then (v[k].withCoefs (coefsAt ws (k.val - stageBase stg))).withByp false else v[k] := by
      unfold enableSection
      rw [setByp_get, installCoefs_get]
      by_cases h : k = cutSlot stg i
      · rw [if_pos h, if_pos h, if_pos h, ((cutSlot_eq_iff stg i k).mp h).1]
      · rw [if_neg h, if_neg h, if_neg h]
    rw [List.foldl_cons, ih, hi]
    simp only [List.mem_cons, exists_eq_or_imp]
    by_cases h2 : ∃ j ∈ l, k = cutSlot stg j
    · rw [if_pos h2, if_pos (show k = cutSlot stg i ∨ ∃ j ∈ l, k = cutSlot stg j from .inr h2)]; split <;> rfl
    · rw [if_neg h2]
      by_cases h1 : k = cutSlot stg i
      · rw [if_pos h1, if_pos (.inl h1)]
      · rw [if_neg h1, if_neg (not_or.mpr ⟨h1, h2⟩)]

/-- A cut-stage update on one slot: in the stage and among the first `m`, the coefficient set of its section and active; in the
stage and not among them, bypassed; outside the stage, unchanged. -/
theorem cutUpdate_get (stg : BitVec 4) (m : Nat) (ws : List W32) (v : Slots) (k : Fin 9) :
    (cutUpdate stg m ws v)[k] =
      if stageBase stg ≤ k.val ∧ k.val < stageBase stg + 4 then
        if k.val < stageBase stg + m then (v[k].withCoefs (coefsAt ws (k.val - stageBase stg))).withByp false
        else v[k].withByp true
      else v[k] := by
  have hall : (∃ i ∈ cutSections, k = cutSlot stg i) ↔ stageBase stg ≤ k.val ∧ k.val < stageBase stg + 4 := by
    constructor
    · rintro ⟨i, -, h⟩
      have := (cutSlot_eq_iff stg i k).mp h; have := i.isLt; omega
    · intro h
      have hm : ∀ i : Fin 4, i ∈ cutSections := by decide
      exact ⟨⟨k.val - stageBase stg, by omega⟩, hm _, (cutSlot_eq_iff _ _ _).mpr ⟨rfl, h.1⟩⟩
  have hsome : (∃ i ∈ cutSections.filter (fun i => i.val < m), k = cutSlot stg i) ↔
      (stageBase stg ≤ k.val ∧ k.val < stageBase stg + 4) ∧ k.val < stageBase stg + m := by
    rw [← hall]
    constructor
    · rintro ⟨i, hi, h⟩
      rw [List.mem_filter] at hi
      have := (cutSlot_eq_iff stg i k).mp h; have := of_decide_eq_true hi.2
      exact ⟨⟨i, hi.1, h⟩, by omega⟩
    · rintro ⟨⟨i, hi, h⟩, hm⟩
      have := (cutSlot_eq_iff stg i k).mp h
      exact ⟨i, List.mem_filter.mpr ⟨hi, decide_eq_true (by omega)⟩, h⟩
  unfold cutUpdate disableAll
  rw [enable_foldl_get, disable_foldl_get]
  by_cases h1 : stageBase stg ≤ k.val ∧ k.val < stageBase stg + 4 <;> by_cases h2 : k.val < stageBase stg + m <;>
    simp only [hsome, hall, h1, h2, and_self, and_true, and_false, if_true, if_false, Section.withByp, Section.withCoefs]

/-- A chain, slot by slot in order. -/
theorem chainStep_eq (v : Slots) (xin : W32) :
    chainStep v xin = slotOrder.foldl chainSlot (xin, v) := rfl

/-- One slot of a chain changes that slot alone. -/
theorem chainSlot_get (a : W32 × Slots) (i j : Fin 9) :
    (chainSlot a i).2[j] = if j = i then (secStep a.2[i] a.1).2 else a.2[j] := by
  unfold chainSlot
  simp only [Fin.getElem_fin, Vector.getElem_set]
  by_cases h : i = j
  · subst h; simp
  · rw [if_neg (fun e => h (Fin.ext e)), if_neg (fun e => h e.symm)]

/-- A sample leaves coefficients and flags of a section alone. -/
theorem secStep_keeps (r : Section) (xin : W32) :
    (secStep r xin).2.coef = r.coef ∧ (secStep r xin).2.cv = r.cv ∧ (secStep r xin).2.byp = r.byp := by
  unfold secStep; split <;> exact ⟨rfl, rfl, rfl⟩

end Sys2Proof.Machine
end

