-- ==== Sys2Proof/Laws/Sequencer.lean ====
section
/-! SUPPORT. What one word of a command can do (30_encoding.md R91), said once for the shared operation `runWord`: it always
answers a next state, and which one in each of the six cases. -/

namespace Sys2Proof.Machine

variable {i : Instr} {late : State → Option ErrCode} {start : State → State} {operand : W32 → State → State}
  {finish : State → State} {s : State}

/-- A port with no word offered waits. -/
theorem runWord_idle (h : s.here.input = []) : runWord i late start operand finish s = .next s := by
  unfold runWord; rw [h]

/-- A header that fails a check is refused. -/
theorem runWord_refused {w : W32} {rest : List W32} {e : ErrCode} (hin : s.here.input = w :: rest)
    (hph : s.seq.phase = .hdr) (he : headerCheck i late s = some e) :
    runWord i late start operand finish s = .next (s.takeWord.refuse e) := by
  unfold runWord; rw [hin, hph, he]

/-- A header that passes, of a command without operands: its header-time effect and its effect at once. -/
theorem runWord_finish {w : W32} {rest : List W32} (hin : s.here.input = w :: rest)
    (hph : s.seq.phase = .hdr) (he : headerCheck i late s = none) (hn : i.nopnd = 0) :
    runWord i late start operand finish s = .next (finish (start (s.takeWord.latch w 0))) := by
  unfold runWord; rw [hin, hph, he, hn]; rfl

/-- A header that passes, of a command with operands: latched, and the next word is an operand. -/
theorem runWord_latch {w : W32} {rest : List W32} (hin : s.here.input = w :: rest)
    (hph : s.seq.phase = .hdr) (he : headerCheck i late s = none) (hn : i.nopnd ≠ 0) :
    runWord i late start operand finish s = .next ((start (s.takeWord.latch w i.nopnd)).setPhase .opnd) := by
  unfold runWord; rw [hin, hph, he]; simp only [if_neg hn]

/-- An operand that is not the last. -/
theorem runWord_operand {w : W32} {rest : List W32} (hin : s.here.input = w :: rest) (hph : s.seq.phase = .opnd)
    (hl : (operand w s.takeWord).countDown.seq.left ≠ 0) :
    runWord i late start operand finish s = .next (operand w s.takeWord).countDown := by
  unfold runWord; rw [hin, hph]; simp only [if_neg hl]

/-- The last operand: the command finishes, and the next word is a header. -/
theorem runWord_last {w : W32} {rest : List W32} (hin : s.here.input = w :: rest) (hph : s.seq.phase = .opnd)
    (hl : (operand w s.takeWord).countDown.seq.left = 0) :
    runWord i late start operand finish s = .next ((finish (operand w s.takeWord).countDown).setPhase .hdr) := by
  unfold runWord; rw [hin, hph]; simp only [if_pos hl]

/-- A word of a command always answers a next state, one of these. -/
theorem runWord_cases (i : Instr) (late : State → Option ErrCode) (start : State → State)
    (operand : W32 → State → State) (finish : State → State) (s : State) :
    ∃ t, runWord i late start operand finish s = .next t ∧
      (s.here.input = [] ∧ t = s ∨
        ∃ w rest, s.here.input = w :: rest ∧
          ((s.seq.phase = .hdr ∧
              ((∃ e, headerCheck i late s = some e ∧ t = s.takeWord.refuse e) ∨
                (headerCheck i late s = none ∧
                  (i.nopnd = 0 ∧ t = finish (start (s.takeWord.latch w 0)) ∨
                    i.nopnd ≠ 0 ∧ t = (start (s.takeWord.latch w i.nopnd)).setPhase .opnd)))) ∨
            (s.seq.phase = .opnd ∧
              ((operand w s.takeWord).countDown.seq.left ≠ 0 ∧ t = (operand w s.takeWord).countDown ∨
                (operand w s.takeWord).countDown.seq.left = 0 ∧
                  t = (finish (operand w s.takeWord).countDown).setPhase .hdr)))) := by
  cases hin : s.here.input with
  | nil => exact ⟨s, runWord_idle hin, .inl ⟨rfl, rfl⟩⟩
  | cons w rest =>
    cases hph : s.seq.phase with
    | hdr =>
      cases he : headerCheck i late s with
      | some e => exact ⟨_, runWord_refused hin hph he, .inr ⟨w, rest, rfl, .inl ⟨rfl, .inl ⟨e, rfl, rfl⟩⟩⟩⟩
      | none =>
        by_cases hn : i.nopnd = 0
        · exact ⟨_, runWord_finish hin hph he hn, .inr ⟨w, rest, rfl, .inl ⟨rfl, .inr ⟨rfl, .inl ⟨hn, rfl⟩⟩⟩⟩⟩
        · exact ⟨_, runWord_latch hin hph he hn, .inr ⟨w, rest, rfl, .inl ⟨rfl, .inr ⟨rfl, .inr ⟨hn, rfl⟩⟩⟩⟩⟩
    | opnd =>
      by_cases hl : (operand w s.takeWord).countDown.seq.left = 0
      · exact ⟨_, runWord_last hin hph hl, .inr ⟨w, rest, rfl, .inr ⟨rfl, .inr ⟨hl, rfl⟩⟩⟩⟩
      · exact ⟨_, runWord_operand hin hph hl, .inr ⟨w, rest, rfl, .inr ⟨rfl, .inl ⟨hl, rfl⟩⟩⟩⟩

end Sys2Proof.Machine
end

