-- ==== Sys2Proof/Laws/Commands.lean ====
section
/-! SUPPORT. What header fields, header checks and response words come to (30_encoding.md R92, R93, R96, R107), said once. -/

namespace Sys2Proof.Machine

/-! ### Fields -/

/-- A legal channel index names its channel. -/
theorem chanOf_index {ch : BitVec 4} {c : Chan} (h : ch.toNat = c.index) : chanOf ch = c := by
  have : ch = BitVec.ofNat 4 c.index := by apply BitVec.eq_of_toNat_eq; rw [h]; cases c <;> rfl
  subst this; cases c <;> decide

/-- A channel index is legal. -/
theorem legalCh_index {ch : BitVec 4} {c : Chan} (h : ch.toNat = c.index) : legalCh ch = true := by
  unfold legalCh; rw [h]; cases c <;> rfl

/-- Every legal channel field is a channel's index. -/
theorem index_chanOf {ch : BitVec 4} (h : legalCh ch = true) : ch.toNat = (chanOf ch).index := by
  revert ch; decide

/-- The mask's bit of a channel. -/
theorem selects_eq (chm : BitVec 4) (c : Chan) : selects chm c = chm.getLsbD c.index := by cases c <;> rfl

/-- A legal slot field names its slot. -/
theorem slotOf_val {slot : BitVec 4} (h : legalSlot slot = true) : (slotOf slot).val = slot.toNat := by
  revert slot; decide

/-! ### Header checks -/

/-- A header that passes all its checks. -/
theorem headerCheck_none {i : Instr} {late : State → Option ErrCode} {s : State} (h1 : s.strapOk = true)
    (h2 : i.opcode.onPort s.cur = true) (h3 : i.fieldsLegal = true) (h4 : late s = none) : headerCheck i late s = none := by
  simp [headerCheck, h1, h2, h3, h4]

/-- A header that passes the first three checks: the command's own check decides. -/
theorem headerCheck_late {i : Instr} {late : State → Option ErrCode} {s : State} (h1 : s.strapOk = true)
    (h2 : i.opcode.onPort s.cur = true) (h3 : i.fieldsLegal = true) : headerCheck i late s = late s := by
  simp [headerCheck, h1, h2, h3]

/-! ### Response words -/

/-- OK with `AUX = n` is `0x0000nnnn`. -/
theorem respHeader_ok {n : Nat} (h : n < 2 ^ 16) : respHeader .ok 0 (BitVec.ofNat 16 n) = BitVec.ofNat 32 n := by
  apply BitVec.eq_of_toNat_eq
  simp only [respHeader, Kind.bits, BitVec.toNat_append, BitVec.toNat_ofNat, Nat.shiftLeft_eq]
  have h1 : n % 2 ^ 16 = n := Nat.mod_eq_of_lt h
  have h2 : n % 2 ^ 32 = n := Nat.mod_eq_of_lt (by omega)
  rw [h1, h2]; simp

/-- OK with a header's count as `AUX`. -/
theorem respHeader_ok_imm (n : BitVec 16) : respHeader .ok 0 (BitVec.ofNat 16 n.toNat) = (0 : BitVec 16) ++ n := by
  rw [BitVec.ofNat_toNat, BitVec.setWidth_eq]; rfl

/-- FAIL/EMPTY. -/
theorem respHeader_empty : respHeader .fail 1 0 = 0x11000000 := by decide

/-- An error's response word. -/
theorem respHeader_err (e : ErrCode) : respHeader .err e.bits 0 = (0xE : BitVec 4) ++ e.bits ++ (0 : BitVec 24) := by
  cases e <;> decide

end Sys2Proof.Machine
end

