-- ==== Sys2Proof/Laws/Factory.lean ====
section
/-! SUPPORT. What the factory gives, said once (40_coefficient_factory.md R120 to R127): none where it fails, the rounded
sections of its formulas where the settings are valid. -/

namespace Sys2Proof.Machine

open Binary32

/-- A finite positive word is above 0. -/
theorem fgt_zero_of_value_pos {f : W32} (hf : isFinite f = true) (hv : 0 < value f) : fgt f 0 = true := by
  have hs : 0 < sunits f := by
    unfold value at hv
    by_contra h
    exact absurd hv (not_lt.mpr (div_nonpos_of_nonpos_of_nonneg (by exact_mod_cast not_lt.mp h) (by positivity)))
  have hsign : sign f = false := by
    by_contra h
    unfold sunits at hs
    rw [if_pos (by simpa using h)] at hs
    omega
  have hm : magBits f ≠ 0 := by
    intro h
    unfold sunits units at hs
    rw [hsign, h] at hs
    exact absurd hs (by decide)
  have hn : isNaN f = false := by
    unfold isFinite at hf
    unfold isNaN
    simp_all
  have hk : key f = magBits f := by unfold key; rw [hsign]; rfl
  unfold fgt
  rw [hn, hk, show key 0 = 0 by decide, show isNaN 0 = false by decide]
  simpa using Nat.pos_of_ne_zero hm

theorem freqOk.not_outside {rate f : W32} (h : freqOk rate f) : ¬ freqOutside rate f := by
  rintro (h0 | ⟨_, h1⟩)
  · rw [fgt_zero_of_value_pos h.1 h.2.1] at h0; cases h0
  · exact h1 h

/-- Valid settings do not fail: the two cases of R125 exclude each other. -/
theorem ChainSettings.Valid.not_fails {k : ChainSettings} {rate : W32} (h : k.Valid rate) : ¬ k.Fails rate := by
  obtain ⟨-, h1, h2, h3, hq, hq0, -⟩ := h
  rintro (hf | hf | hf | ⟨-, hf⟩)
  · exact h1.not_outside hf
  · exact h2.not_outside hf
  · exact h3.not_outside hf
  · rw [fgt_zero_of_value_pos hq hq0] at hf; cases hf

/-- A failing factory gives no result (R125). -/
theorem Factory.design_fails (φ : Factory) {k : ChainSettings} {rate : W32} (h : k.Fails rate) : φ.design k rate = none :=
  if_pos h

/-- On valid settings the factory gives the rounded sections of its formulas (R122 to R124, R127). -/
theorem Factory.design_valid (φ : Factory) {k : ChainSettings} {rate : W32} (h : k.Valid rate) :
    φ.design k rate = some { peak := φ.words (φ.peakOf k rate), lowCut := (φ.lowCutOf k rate).map φ.words,
                             highCut := (φ.highCutOf k rate).map φ.words } := by
  unfold Factory.design
  rw [if_neg h.not_fails, if_pos h]

/-- The words of a section are its numbers, divided by a0 and rounded (R127). -/
theorem Factory.rounds_words (φ : Factory) (r : RawSection) : (φ.words r).Rounds r.normalize :=
  ⟨φ.rounds _, φ.rounds _, φ.rounds _, φ.rounds _, φ.rounds _⟩

end Sys2Proof.Machine
end

