-- ==== Sys2Proof/Laws/Header.lean ====
section
/-! SUPPORT. The fields of a header word made from its fields (30_encoding.md R92). -/

namespace Sys2Proof

/-- A header word as a number: the four fields side by side. -/
theorem Header.make_toNat (o : BitVec 8) (c s : BitVec 4) (i : BitVec 16) :
    (Header.make o c s i).toNat = o.toNat * 2 ^ 24 + c.toNat * 2 ^ 20 + s.toNat * 2 ^ 16 + i.toNat := by
  simp only [Header.make, BitVec.toNat_append, Nat.shiftLeft_eq]
  have := o.isLt; have := c.isLt; have := s.isLt; have := i.isLt
  rw [Nat.mul_comm _ (2 ^ 16), Nat.mul_comm _ (2 ^ 4), Nat.mul_comm _ (2 ^ 4),
    ← Nat.two_pow_add_eq_or_of_lt (by omega), ← Nat.two_pow_add_eq_or_of_lt (by omega),
    ← Nat.two_pow_add_eq_or_of_lt (by omega)]
  omega

@[simp] theorem Header.opc_make (o : BitVec 8) (c s : BitVec 4) (i : BitVec 16) : Header.opc (Header.make o c s i) = o := by
  apply BitVec.eq_of_toNat_eq
  rw [Header.opc, BitVec.extractLsb'_toNat, Header.make_toNat, Nat.shiftRight_eq_div_pow]
  have := o.isLt; have := c.isLt; have := s.isLt; have := i.isLt
  omega

@[simp] theorem Header.ch_make (o : BitVec 8) (c s : BitVec 4) (i : BitVec 16) : Header.ch (Header.make o c s i) = c := by
  apply BitVec.eq_of_toNat_eq
  rw [Header.ch, BitVec.extractLsb'_toNat, Header.make_toNat, Nat.shiftRight_eq_div_pow]
  have := o.isLt; have := c.isLt; have := s.isLt; have := i.isLt
  omega

@[simp] theorem Header.slot_make (o : BitVec 8) (c s : BitVec 4) (i : BitVec 16) : Header.slot (Header.make o c s i) = s := by
  apply BitVec.eq_of_toNat_eq
  rw [Header.slot, BitVec.extractLsb'_toNat, Header.make_toNat, Nat.shiftRight_eq_div_pow]
  have := o.isLt; have := c.isLt; have := s.isLt; have := i.isLt
  omega

@[simp] theorem Header.imm_make (o : BitVec 8) (c s : BitVec 4) (i : BitVec 16) : Header.imm (Header.make o c s i) = i := by
  apply BitVec.eq_of_toNat_eq
  rw [Header.imm, BitVec.extractLsb'_toNat, Header.make_toNat, Nat.shiftRight_eq_div_pow]
  have := o.isLt; have := c.isLt; have := s.isLt; have := i.isLt
  omega

/-- One bit of a header word. -/
theorem Header.getLsbD_make (o : BitVec 8) (c s : BitVec 4) (i : BitVec 16) (k : Nat) :
    (Header.make o c s i).getLsbD k =
      if k < 16 then i.getLsbD k else if k < 20 then s.getLsbD (k - 16)
      else if k < 24 then c.getLsbD (k - 20) else o.getLsbD (k - 24) := by
  simp only [Header.make, BitVec.getLsbD_append]
  by_cases h1 : k < 16
  · simp only [if_pos h1]
  · by_cases h2 : k < 20
    · simp only [if_neg h1, if_pos h2, if_pos (show k - 16 < 4 by omega)]
    · by_cases h3 : k < 24
      · simp only [if_neg h1, if_neg h2, if_pos h3, if_neg (show ¬ k - 16 < 4 by omega),
          if_pos (show k - 16 - 4 < 4 by omega)]
        congr 1
      · simp only [if_neg h1, if_neg h2, if_neg h3, if_neg (show ¬ k - 16 < 4 by omega),
          if_neg (show ¬ k - 16 - 4 < 4 by omega)]
        congr 1

/-- The opcode map read back. -/
@[simp] theorem Opcode.ofCode_code (op : Opcode) : Opcode.ofCode op.code = some op := by cases op <;> rfl

/-- Only the listed codes are opcodes. -/
theorem Opcode.code_of_ofCode {c : BitVec 8} {op : Opcode} (h : Opcode.ofCode c = some op) : op.code = c := by
  apply BitVec.eq_of_toNat_eq
  unfold Opcode.ofCode at h
  split at h <;> simp_all <;> subst h <;> rfl

end Sys2Proof
end

