-- ==== Sys2Proof/Laws/Memory.lean ====
section
/-! SUPPORT. The laws of the internal memories (20_memory.md R60): a read after a write, the words a write leaves alone, and
the canonical form every operation keeps. -/

namespace Sys2Proof.Machine

@[simp] theorem Memory.read_nil (a : Nat) : Memory.read [] a = Memory.unlisted := rfl

/-- Below the lowest index a canonical memory can hold, every word reads as `unlisted`. -/
theorem Memory.read_below {lo : Nat} {m : Memory} (h : Memory.wfFrom lo m = true) {a : Nat} (ha : a < lo) :
    Memory.read m a = Memory.unlisted := by
  induction m generalizing lo with
  | nil => rfl
  | cons e r ih =>
    obtain ⟨k, v⟩ := e
    simp only [Memory.wfFrom, Bool.and_eq_true, decide_eq_true_eq] at h
    simp only [Memory.read]
    rw [if_neg (by omega)]
    exact ih h.2 (by omega)

/-- A memory canonical from an index on is canonical from every lower one. -/
theorem Memory.wfFrom_mono {lo lo' : Nat} {m : Memory} (h : Memory.wfFrom lo m = true) (hl : lo' ≤ lo) :
    Memory.wfFrom lo' m = true := by
  cases m with
  | nil => rfl
  | cons e r =>
    obtain ⟨k, v⟩ := e
    simp only [Memory.wfFrom, Bool.and_eq_true, decide_eq_true_eq] at h ⊢
    exact ⟨⟨by omega, h.1.2⟩, h.2⟩

/-- A write keeps the canonical form. -/
theorem Memory.wfFrom_write {lo : Nat} {m : Memory} (h : Memory.wfFrom lo m = true) {a : Nat} (ha : lo ≤ a) (v : W32) :
    Memory.wfFrom lo (m.write a v) = true := by
  induction m generalizing lo with
  | nil =>
    simp only [Memory.write]
    split
    · rfl
    · rename_i hv; simp [Memory.wfFrom, ha, hv]
  | cons e r ih =>
    obtain ⟨k, u⟩ := e
    simp only [Memory.wfFrom, Bool.and_eq_true, decide_eq_true_eq] at h
    simp only [Memory.write]
    split
    · rename_i hk
      simp only [Memory.wfFrom, Bool.and_eq_true, decide_eq_true_eq]
      exact ⟨h.1, ih h.2 (by omega)⟩
    · split
      · split
        · exact Memory.wfFrom_mono h.2 (by omega)
        · rename_i hk hv
          simp only [Memory.wfFrom, Bool.and_eq_true, decide_eq_true_eq, bne_iff_ne, ne_eq]
          exact ⟨⟨ha, hv⟩, Memory.wfFrom_mono h.2 (by omega)⟩
      · split
        · simp only [Memory.wfFrom, Bool.and_eq_true, decide_eq_true_eq]
          exact h
        · rename_i hk hk' hv
          simp only [Memory.wfFrom, Bool.and_eq_true, decide_eq_true_eq, bne_iff_ne, ne_eq]
          refine ⟨⟨ha, hv⟩, ⟨by omega, ?_⟩, h.2⟩
          simpa using h.1.2

/-- A write keeps the canonical form. -/
theorem Memory.wf_write {m : Memory} (h : m.wf = true) (a : Nat) (v : W32) : (m.write a v).wf = true :=
  Memory.wfFrom_write h (Nat.zero_le a) v

/-- Writing a run of words keeps the canonical form. -/
theorem Memory.wf_writeN {m : Memory} (h : m.wf = true) (a : Nat) (vs : List W32) : (m.writeN a vs).wf = true := by
  induction vs generalizing m a with
  | nil => exact h
  | cons v vs ih => exact ih (Memory.wf_write h a v) (a + 1)

/-- The word written is the word read, in a memory canonical from some index on. -/
theorem Memory.read_write_self {lo : Nat} {m : Memory} (h : Memory.wfFrom lo m = true) (a : Nat) (v : W32) :
    (m.write a v).read a = v := by
  induction m generalizing lo with
  | nil =>
    simp only [Memory.write]
    split
    · rename_i hv; rw [hv]; rfl
    · simp [Memory.read]
  | cons e r ih =>
    obtain ⟨k, u⟩ := e
    simp only [Memory.wfFrom, Bool.and_eq_true, decide_eq_true_eq] at h
    simp only [Memory.write]
    split
    · simp only [Memory.read]
      rw [if_neg (by omega)]
      exact ih h.2
    · split
      · split
        · rename_i hv; rw [hv]; exact Memory.read_below h.2 (by omega)
        · simp [Memory.read]
      · split
        · rename_i hk hk' hv
          simp only [Memory.read]
          rw [if_neg hk', hv]
          exact Memory.read_below h.2 (by omega)
        · simp [Memory.read]

/-- A write leaves every other word alone, in any memory. -/
theorem Memory.read_write_ne (m : Memory) {a b : Nat} (hab : b ≠ a) (v : W32) : (m.write a v).read b = m.read b := by
  induction m with
  | nil =>
    simp only [Memory.write]
    split
    · rfl
    · simp [Memory.read, hab.symm]
  | cons e r ih =>
    obtain ⟨k, u⟩ := e
    simp only [Memory.write]
    split
    · simp only [Memory.read]; rw [ih]
    · split
      · rename_i hk hk'
        subst hk'
        split <;> simp [Memory.read, hab.symm]
      · split
        · rfl
        · simp [Memory.read, hab.symm]

@[simp] theorem Memory.length_readN (m : Memory) (a n : Nat) : (m.readN a n).length = n := by
  induction n generalizing a with
  | zero => rfl
  | succ n ih => simp [Memory.readN, ih]

/-- A run of words written leaves every word outside it alone. -/
theorem Memory.read_writeN_outside (m : Memory) (a : Nat) (vs : List W32) {b : Nat} (hb : b < a ∨ a + vs.length ≤ b) :
    (m.writeN a vs).read b = m.read b := by
  induction vs generalizing m a with
  | nil => rfl
  | cons v vs ih =>
    simp only [List.length_cons] at hb
    simp only [Memory.writeN]
    rw [ih (m.write a v) (a + 1) (by omega), Memory.read_write_ne m (by omega)]

/-- The words written are the words read. -/
theorem Memory.readN_writeN_self {m : Memory} (h : m.wf = true) (a : Nat) (vs : List W32) :
    (m.writeN a vs).readN a vs.length = vs := by
  induction vs generalizing m a with
  | nil => rfl
  | cons v vs ih =>
    have hw := Memory.wf_write h a v
    simp only [List.length_cons, Memory.readN, Memory.writeN]
    rw [ih hw, Memory.read_writeN_outside _ _ _ (by omega), Memory.read_write_self (lo := 0) h]

/-- A run of words read outside the run written is the run read before. -/
theorem Memory.readN_writeN_outside (m : Memory) (a : Nat) (vs : List W32) (b n : Nat)
    (hb : b + n ≤ a ∨ a + vs.length ≤ b) : (m.writeN a vs).readN b n = m.readN b n := by
  induction n generalizing b with
  | zero => rfl
  | succ n ih =>
    simp only [Memory.readN]
    rw [Memory.read_writeN_outside _ _ _ (by omega), ih (b + 1) (by omega)]

/-- Entry `i` of a run read is the word at index `a + i`. -/
theorem Memory.getD_readN (m : Memory) (a n i : Nat) (h : i < n) : (m.readN a n).getD i 0 = m.read (a + i) := by
  induction n generalizing a i with
  | zero => omega
  | succ n ih =>
    cases i with
    | zero => rfl
    | succ i =>
      simp only [Memory.readN, List.getD_cons_succ]
      rw [ih (a + 1) i (by omega)]
      congr 1; omega

end Sys2Proof.Machine
end

