-- ==== Sys2Proof/Laws/PerInstr.lean ====
section
/-! SUPPORT. What holds of every command as syntax, one lemma per constructor (30_encoding.md R92, R94, R95, 10_state.md
R35). -/

namespace Sys2Proof.Laws.HeaderWord

/-- The header word of a command carries the code of its opcode in `OPC`, the opcode exists on a port, the command asks for
at most 65535 operand words, and for at most 20 of them if it keeps them in the operand buffer. -/
def Statement (i : Instr) : Prop :=
  Header.opc (encode i) = i.opcode.code ∧ (i.opcode.onPort .a = true ∨ i.opcode.onPort .b = true) ∧ i.nopnd ≤ 65535 ∧
    (i.opcode ≠ .bqProc → i.opcode ≠ .afPushs → i.nopnd ≤ 20)

theorem nop : Statement .nop := by simp [Statement, encode, Instr.opcode, Opcode.onPort, Instr.nopnd]

theorem rdcsr (idx : BitVec 8) : Statement (.rdcsr idx) := by
  simp [Statement, encode, Instr.opcode, Opcode.onPort, Instr.nopnd]

theorem wrcsr (idx : BitVec 8) : Statement (.wrcsr idx) := by
  simp [Statement, encode, Instr.opcode, Opcode.onPort, Instr.nopnd]

theorem bqSetc (chm slot : BitVec 4) : Statement (.bqSetc chm slot) := by
  simp [Statement, encode, Instr.opcode, Opcode.onPort, Instr.nopnd]

theorem bqByp (chm slot : BitVec 4) (v : BitVec 1) : Statement (.bqByp chm slot v) := by
  simp [Statement, encode, Instr.opcode, Opcode.onPort, Instr.nopnd]

theorem bqCutupd (chm stg slope : BitVec 4) : Statement (.bqCutupd chm stg slope) := by
  have h : nsec slope ≤ 4 := by unfold nsec; split <;> omega
  simp only [Statement, encode, Instr.opcode, Opcode.onPort, Instr.nopnd, Header.opc_make]
  refine ⟨trivial, .inl rfl, ?_, fun _ _ => ?_⟩ <;> omega

theorem bqProc (ch : BitVec 4) (n : BitVec 16) : Statement (.bqProc ch n) := by
  have h := n.isLt
  simp only [Statement, encode, Instr.opcode, Opcode.onPort, Instr.nopnd, Header.opc_make]
  exact ⟨trivial, .inl rfl, by omega, fun h => absurd rfl h⟩

theorem afPushs (ch : BitVec 4) (n : BitVec 16) : Statement (.afPushs ch n) := by
  have h := n.isLt
  simp only [Statement, encode, Instr.opcode, Opcode.onPort, Instr.nopnd, Header.opc_make]
  exact ⟨trivial, .inl rfl, by omega, fun _ h => absurd rfl h⟩

theorem afAvail (ch : BitVec 4) : Statement (.afAvail ch) := by
  simp [Statement, encode, Instr.opcode, Opcode.onPort, Instr.nopnd]

theorem afPull (ch : BitVec 4) : Statement (.afPull ch) := by
  simp [Statement, encode, Instr.opcode, Opcode.onPort, Instr.nopnd]

theorem mfAvail (ch : BitVec 4) : Statement (.mfAvail ch) := by
  simp [Statement, encode, Instr.opcode, Opcode.onPort, Instr.nopnd]

theorem mfPull (ch : BitVec 4) : Statement (.mfPull ch) := by
  simp [Statement, encode, Instr.opcode, Opcode.onPort, Instr.nopnd]

theorem fgStep (ch : BitVec 4) : Statement (.fgStep ch) := by
  simp [Statement, encode, Instr.opcode, Opcode.onPort, Instr.nopnd]

end Sys2Proof.Laws.HeaderWord
end

