-- ==== Sys2Proof/Laws/Ring.lean ====
section
/-! SUPPORT. What the ring operations can do (42_block_fifo.md R172, R173, R176), said once each: a push, a pull and a sample
fed, with everything they change. -/

namespace Sys2Proof.Machine

/-- A push on `AF[c]` fails when the ring is full in the producer's view, and then there is no new state. -/
theorem State.afPush_none {s : State} {c : Chan} {item : List W32} : s.afPush c item = none ↔ s.occA c = cap := by
  unfold State.afPush; split <;> simp_all

/-- A push on `AF[c]` that succeeds writes ring slot `wptr[c] mod 30` and advances `wptr[c]`. -/
theorem State.afPush_some {s t : State} {c : Chan} {item : List W32} (h : s.afPush c item = some t) :
    s.occA c ≠ cap ∧ t = { s with
      afmem := s.afmem.writeN (afAddr s.inst c (ringSlot (s.wptr.get c))) item
      wptr := s.wptr.set c (s.wptr.get c + 1) } := by
  unfold State.afPush at h; split at h
  · cases h
  · rename_i hn; exact ⟨hn, (Option.some.inj h).symm⟩

/-- A push on `MF[c]` fails exactly when the ring is full. -/
theorem State.mfPush_none {s : State} {c : Chan} {item : List W32} : s.mfPush c item = none ↔ s.mocc c = cap := by
  unfold State.mfPush; split <;> simp_all

/-- A push on `MF[c]` that succeeds writes ring slot `mw[c] mod 30` and advances `mw[c]`. -/
theorem State.mfPush_some {s t : State} {c : Chan} {item : List W32} (h : s.mfPush c item = some t) :
    s.mocc c ≠ cap ∧ t = { s with
      mfmem := s.mfmem.writeN (mfAddr s.inst c (ringSlot (s.mw.get c))) item
      mw := s.mw.set c (s.mw.get c + 1) } := by
  unfold State.mfPush at h; split at h
  · cases h
  · rename_i hn; exact ⟨hn, (Option.some.inj h).symm⟩

/-- A pull on `AF[c]` fails when the ring is empty in the consumer's view. -/
theorem State.afPull_none {s : State} {c : Chan} : s.afPull c = none ↔ s.availB c = 0 := by
  unfold State.afPull; split <;> simp_all

/-- A pull on `AF[c]` that succeeds answers the head's words and advances `rptr[c]`. -/
theorem State.afPull_some {s t : State} {c : Chan} {item : List W32} (h : s.afPull c = some (item, t)) :
    s.availB c ≠ 0 ∧ item = s.afHead c ∧ t = { s with rptr := s.rptr.set c (s.rptr.get c + 1) } := by
  unfold State.afPull at h; split at h
  · cases h
  · rename_i hn
    have h' := Option.some.inj h
    exact ⟨hn, (congrArg Prod.fst h').symm, (congrArg Prod.snd h').symm⟩

/-- A pull on `MF[c]` fails exactly when the ring is empty. -/
theorem State.mfPull_none {s : State} {c : Chan} : s.mfPull c = none ↔ s.mocc c = 0 := by
  unfold State.mfPull; split <;> simp_all

/-- A pull on `MF[c]` that succeeds answers the head's words and advances `mr[c]`. -/
theorem State.mfPull_some {s t : State} {c : Chan} {item : List W32} (h : s.mfPull c = some (item, t)) :
    s.mocc c ≠ 0 ∧ item = s.mfHead c ∧ t = { s with mr := s.mr.set c (s.mr.get c + 1) } := by
  unfold State.mfPull at h; split at h
  · cases h
  · rename_i hn
    have h' := Option.some.inj h
    exact ⟨hn, (congrArg Prod.fst h').symm, (congrArg Prod.snd h').symm⟩

/-- The state in which a fed sample lies in the accumulator and the cursor is `f`. -/
def State.withSample (s : State) (c : Chan) (w : W32) (f : Nat) : State :=
  { s with acc := s.acc.write (accAddr s.inst c (s.fill.get c)) w, fill := s.fill.set c f }

/-- The block in the accumulator once the sample lies in it. -/
def State.fullBlock (s : State) (c : Chan) (w : W32) : List W32 :=
  (s.acc.write (accAddr s.inst c (s.fill.get c)) w).readN (accAddr s.inst c 0) s.blkLen

/-- A sample that does not complete a block. -/
theorem State.feed_partial {s : State} {c : Chan} (w : W32) (h : s.fill.get c + 1 < s.blkLen) :
    s.feed c w = (.none, s.withSample c w (s.fill.get c + 1)) := by
  unfold State.feed State.withSample; simp only [if_pos h]

/-- A sample that completes a block which finds the ring full: the block is lost whole. -/
theorem State.feed_dropped {s : State} {c : Chan} (w : W32) (h : ¬ s.fill.get c + 1 < s.blkLen) (hf : s.occA c = cap) :
    s.feed c w = (.dropped, s.withSample c w 0) := by
  have hp : (s.withSample c w 0).afPush c (s.fullBlock c w) = none := State.afPush_none.mpr hf
  unfold State.withSample State.fullBlock at hp
  unfold State.feed State.withSample
  simp only [if_neg h]
  rw [hp]

/-- A sample that completes a block which is pushed. -/
theorem State.feed_pushed {s : State} {c : Chan} (w : W32) (h : ¬ s.fill.get c + 1 < s.blkLen) (hf : s.occA c ≠ cap) :
    s.feed c w = (.pushed, { s.withSample c w 0 with
      afmem := s.afmem.writeN (afAddr s.inst c (ringSlot (s.wptr.get c))) (s.fullBlock c w)
      wptr := s.wptr.set c (s.wptr.get c + 1) }) := by
  have hp : (s.withSample c w 0).afPush c (s.fullBlock c w) = some { s.withSample c w 0 with
      afmem := s.afmem.writeN (afAddr s.inst c (ringSlot (s.wptr.get c))) (s.fullBlock c w)
      wptr := s.wptr.set c (s.wptr.get c + 1) } := by
    unfold State.afPush
    rw [if_neg (show ¬ (s.withSample c w 0).occA c = cap from hf)]
    rfl
  unfold State.withSample State.fullBlock at hp
  unfold State.feed State.withSample State.fullBlock
  simp only [if_neg h]
  rw [hp]

/-- Whatever a sample fed does, it changes only the accumulator, the cursor, the ring storage and the write index. -/
theorem State.feed_frame (s : State) (c : Chan) (w : W32) : ∃ acc fill afmem wptr,
    (s.feed c w).2 = { s with acc := acc, fill := fill, afmem := afmem, wptr := wptr } := by
  by_cases h : s.fill.get c + 1 < s.blkLen
  · rw [State.feed_partial w h]; exact ⟨_, _, s.afmem, s.wptr, rfl⟩
  · by_cases hf : s.occA c = cap
    · rw [State.feed_dropped w h hf]; exact ⟨_, _, s.afmem, s.wptr, rfl⟩
    · rw [State.feed_pushed w h hf]; exact ⟨_, _, _, _, rfl⟩

end Sys2Proof.Machine
end

