-- ==== Sys2Proof/Laws/Steps.lean ====
section
/-! SUPPORT. Every command as one `runWord` over its four parts, and every step of a port as the command it runs or the header
it refuses (30_encoding.md R91, R107): what whole-machine proofs split on. -/

namespace Sys2Proof.Machine

/-- The check of a command beyond the first three of R107. -/
def lateOf : Instr → State → Option ErrCode
  | .rdcsr idx => rdcsrCheck idx
  | .wrcsr idx => wrcsrCheck idx
  | .bqByp chm slot v => bypCheck chm slot v
  | _ => noLateCheck

/-- The header-time effect of a command. -/
def startOf : Instr → State → State
  | .bqProc _ _ => startProc
  | .afPushs _ _ => startPushs
  | _ => noStart

/-- What a command does with an operand word. -/
def operandOf : Instr → W32 → State → State
  | .bqProc ch _ => procSample ch
  | .afPushs ch _ => pushSample ch
  | _ => State.keepOperand

/-- The effect and the response of a command. -/
def finishOf : Instr → State → State
  | .nop => fun s => s.respondOk 0 []
  | .rdcsr idx => finishRdcsr idx
  | .wrcsr idx => finishWrcsr idx
  | .bqSetc chm slot => finishSetc chm slot
  | .bqByp chm slot v => finishByp chm slot v
  | .bqCutupd chm stg slope => finishCutupd chm stg slope
  | .bqProc _ n => finishProc n
  | .afPushs _ n => finishPushs n
  | .afAvail ch => finishAfAvail ch
  | .afPull ch => finishAfPull ch
  | .mfAvail ch => finishMfAvail ch
  | .mfPull ch => finishMfPull ch
  | .fgStep ch => finishFgStep ch

/-- Every command is `runWord` over its parts. -/
theorem exec_eq (i : Instr) (s : State) :
    exec i s = runWord i (lateOf i) (startOf i) (operandOf i) (finishOf i) s := by
  cases i <;> rfl

/-- A relation that every update of the port, every operand word and every finish keeps holds between the states before and
after a word of the command: the way to a frame or an invariant of a command. -/
theorem exec_rel (i : Instr) (R : State → State → Prop) (hrefl : ∀ s, R s s) (htrans : ∀ a b c, R a b → R b c → R a c)
    (hport : ∀ s q, R s (s.setPort s.cur q)) (hop : ∀ w s, R s (operandOf i w s)) (hfin : ∀ s, R s (finishOf i s))
    {s t : State} (h : exec i s = .next t) : R s t := by
  have hst : ∀ s, R s (startOf i s) := by
    intro s; cases i <;> first | exact hrefl s | exact hport s _
  rw [exec_eq] at h
  obtain ⟨t', h1, hc⟩ := runWord_cases i (lateOf i) (startOf i) (operandOf i) (finishOf i) s
  rw [h1] at h; cases h
  have take : R s s.takeWord := hport s _
  rcases hc with ⟨_, rfl⟩ | ⟨w, rest, hi, ⟨_, ⟨e, _, rfl⟩ | ⟨_, ⟨_, rfl⟩ | ⟨_, rfl⟩⟩⟩ | ⟨_, ⟨_, rfl⟩ | ⟨_, rfl⟩⟩⟩
  · exact hrefl _
  · refine htrans _ _ _ take ?_
    rw [State.refuse_eq]; exact hport _ _
  · exact htrans _ _ _ take (htrans _ _ _ (hport _ _) (htrans _ _ _ (hst _) (hfin _)))
  · exact htrans _ _ _ take (htrans _ _ _ (hport _ _) (htrans _ _ _ (hst _) (hport _ _)))
  · exact htrans _ _ _ take (htrans _ _ _ (hop _ _) (hport _ _))
  · exact htrans _ _ _ take (htrans _ _ _ (hop _ _) (htrans _ _ _ (hport _ _) (htrans _ _ _ (hfin _) (hport _ _))))

/-- A refused header, in the words of the claims. -/
theorem State.refuse_after (s : State) {w : W32} {rest : List W32} (e : ErrCode) (hi : s.here.input = w :: rest) :
    s.takeWord.refuse e = s.setPort s.cur (s.here.afterRefusal rest e.bits) := by
  rw [State.refuse_eq, respHeader_err]
  simp [PortState.raise, PortState.afterRefusal, hi]

/-! ### The state in which a port takes its word -/

@[simp] theorem State.cur_turnOf (s : State) (p : Port) : (s.turnOf p).cur = p := rfl
@[simp] theorem State.here_turnOf (s : State) (p : Port) : (s.turnOf p).here = s.port p := by cases p <;> rfl
@[simp] theorem State.port_turnOf (s : State) (p q : Port) : (s.turnOf p).port q = s.port q := by cases q <;> rfl
@[simp] theorem State.slot_turnOf (s : State) (p : Port) (c : Chan) (k : Fin 9) : (s.turnOf p).slot c k = s.slot c k := rfl
@[simp] theorem State.strapOk_turnOf (s : State) (p : Port) : (s.turnOf p).strapOk = s.strapOk := rfl
@[simp] theorem csrRead_turnOf (s : State) (p q : Port) (idx : BitVec 8) : csrRead q idx (s.turnOf p) = csrRead q idx s := by
  cases q <;> rfl

/-- A step on a port's turn. -/
theorem step_port {s : State} {p : Port} (h : s.nextTurn = .port p) : step s = s.passTurn.portStep p := by
  unfold step; rw [h]

/-- A port with no word offered waits. -/
theorem step_idle {s : State} {p : Port} (h : s.nextTurn = .port p) (hi : (s.port p).input = []) :
    step s = .next (s.turnOf p) := by
  have hi' : (s.turnOf p).here.input = [] := by rw [State.here_turnOf, hi]
  rw [step_port h]; unfold State.portStep
  change (match (s.turnOf p).here.input with | [] => _ | w :: _ => _) = _
  rw [hi']; rfl

/-- A header word that decodes runs its command. -/
theorem step_header {s : State} {p : Port} {w : W32} {rest : List W32} {i : Instr} (h : s.HeaderNext p w rest)
    (hd : decode w = .command i) : step s = exec i (s.turnOf p) := by
  obtain ⟨ht, hp, hi⟩ := h
  have hi' : (s.turnOf p).here.input = w :: rest := by rw [State.here_turnOf, hi]
  have hp' : (s.turnOf p).seq.phase = .hdr := by rw [State.seq_eq, State.here_turnOf, hp]
  rw [step_port ht]; unfold State.portStep
  change (match (s.turnOf p).here.input with | [] => _ | w :: _ => _) = _
  rw [hi']; simp only
  change (match (s.turnOf p).seq.phase with | .hdr => _ | .opnd => _) = _
  rw [hp']; simp only
  rw [hd]; rfl

/-- A header word that does not decode is rejected. -/
theorem step_rejected {s : State} {p : Port} {w : W32} {rest : List W32} {e : DecodeError} (h : s.HeaderNext p w rest)
    (hd : decode w = .rejected e) : step s = .next ((s.turnOf p).rejectWord e) := by
  obtain ⟨ht, hp, hi⟩ := h
  have hi' : (s.turnOf p).here.input = w :: rest := by rw [State.here_turnOf, hi]
  have hp' : (s.turnOf p).seq.phase = .hdr := by rw [State.seq_eq, State.here_turnOf, hp]
  rw [step_port ht]; unfold State.portStep
  change (match (s.turnOf p).here.input with | [] => _ | w :: _ => _) = _
  rw [hi']; simp only
  change (match (s.turnOf p).seq.phase with | .hdr => _ | .opnd => _) = _
  rw [hp']; simp only
  rw [hd]; rfl

/-- An operand word goes to the command whose header is latched. -/
theorem step_operand {s : State} {p : Port} {w : W32} {rest : List W32} {i : Instr} (ht : s.nextTurn = .port p)
    (hp : (s.port p).seq.phase = .opnd) (hi : (s.port p).input = w :: rest)
    (hd : decode (s.port p).seq.hdr = .command i) : step s = exec i (s.turnOf p) := by
  have hi' : (s.turnOf p).here.input = w :: rest := by rw [State.here_turnOf, hi]
  have hp' : (s.turnOf p).seq.phase = .opnd := by rw [State.seq_eq, State.here_turnOf, hp]
  have hh' : (s.turnOf p).seq.hdr = (s.port p).seq.hdr := by rw [State.seq_eq, State.here_turnOf]
  rw [step_port ht]; unfold State.portStep
  change (match (s.turnOf p).here.input with | [] => _ | w :: _ => _) = _
  rw [hi']; simp only
  change (match (s.turnOf p).seq.phase with | .hdr => _ | .opnd => _) = _
  rw [hp']; simp only
  change (match decode (s.turnOf p).seq.hdr with | .command i => exec i (s.turnOf p) | .rejected _ => _) = _
  rw [hh', hd]

/-- What a word decodes to, by its opcode and its must-be-zero bits. -/
theorem decode_cases (w : W32) :
    (Opcode.ofCode (Header.opc w) = none ∧ decode w = .rejected .illegalOpcode) ∨
    ∃ op, Opcode.ofCode (Header.opc w) = some op ∧
      (w &&& op.mbz = 0 ∧ decode w = .command (Instr.ofHeader op w) ∨
       w &&& op.mbz ≠ 0 ∧ decode w = .rejected (.mustBeZero op)) := by
  unfold decode
  cases h : Opcode.ofCode (Header.opc w) with
  | none => exact .inl ⟨rfl, rfl⟩
  | some op =>
    by_cases h2 : w &&& op.mbz = 0
    · exact .inr ⟨op, rfl, .inl ⟨h2, if_pos h2⟩⟩
    · exact .inr ⟨op, rfl, .inr ⟨h2, if_neg h2⟩⟩

@[simp] theorem Instr.opcode_ofHeader (op : Opcode) (w : W32) : (Instr.ofHeader op w).opcode = op := by cases op <;> rfl

/-! ### Turns (00_scope.md R12) -/

/-- The order of the coming steps is the same in two states. -/
def SameTurns (s t : State) : Prop := t.sched = s.sched ∧ t.ticks = s.ticks

theorem SameTurns.trans {s t u : State} (h1 : SameTurns s t) (h2 : SameTurns t u) : SameTurns s u :=
  ⟨h2.1.trans h1.1, h2.2.trans h1.2⟩

theorem sameTurns_setPort (s : State) (p : Port) (q : PortState) : SameTurns s (s.setPort p q) := by
  cases p <;> exact ⟨rfl, rfl⟩

theorem sameTurns_csrWrite (p : Port) (idx : BitVec 8) (w : W32) (s : State) : SameTurns s (csrWrite p idx w s) := by
  unfold csrWrite; split <;> exact ⟨rfl, rfl⟩

theorem sameTurns_operandOf (i : Instr) (w : W32) (s : State) : SameTurns s (operandOf i w s) := by
  cases i
  case bqProc ch n => exact SameTurns.trans (t := s.setSlots _ _) ⟨rfl, rfl⟩ (sameTurns_setPort _ _ _)
  case afPushs ch n =>
    obtain ⟨acc, fill, afmem, wptr, h⟩ := State.feed_frame s (chanOf ch) w
    refine SameTurns.trans (t := (s.feed (chanOf ch) w).2) ?_ (sameTurns_setPort _ _ _)
    rw [h]; exact ⟨rfl, rfl⟩
  all_goals exact sameTurns_setPort _ _ _

theorem sameTurns_afPull {s t : State} {c : Chan} {item : List W32} (h : s.afPull c = some (item, t)) : SameTurns s t := by
  rw [(State.afPull_some h).2.2]; exact ⟨rfl, rfl⟩

theorem sameTurns_extract (s : State) (c : Chan) (blk : List W32) : SameTurns s (s.extract c blk) := by
  unfold State.extract
  simp only
  have hs : SameTurns s (s.slideIn c blk) := ⟨rfl, rfl⟩
  split
  · rename_i h
    refine hs.trans (SameTurns.trans ?_ (sameTurns_setPort _ _ _))
    rw [(State.mfPush_some h).2]; exact ⟨rfl, rfl⟩
  · exact hs.trans (sameTurns_setPort _ _ _)

theorem sameTurns_finishOf (i : Instr) (s : State) : SameTurns s (finishOf i s) := by
  cases i
  case wrcsr idx => exact (sameTurns_csrWrite _ _ _ _).trans (sameTurns_setPort _ _ _)
  case bqSetc | bqByp | bqCutupd => exact SameTurns.trans (t := s.onSelected _ _) ⟨rfl, rfl⟩ (sameTurns_setPort _ _ _)
  case afPull ch =>
    unfold finishOf finishAfPull; simp only; split
    · exact sameTurns_setPort _ _ _
    · rename_i h; exact (sameTurns_afPull h).trans (sameTurns_setPort _ _ _)
  case mfPull ch =>
    unfold finishOf finishMfPull; simp only; split
    · exact sameTurns_setPort _ _ _
    · rename_i h
      refine SameTurns.trans ?_ (sameTurns_setPort _ _ _)
      rw [(State.mfPull_some h).2.2]; exact ⟨rfl, rfl⟩
  case fgStep ch =>
    unfold finishOf finishFgStep; simp only; split
    · exact sameTurns_setPort _ _ _
    · rename_i h; exact (sameTurns_afPull h).trans (sameTurns_extract _ _ _)
  all_goals exact sameTurns_setPort _ _ _

/-- No command changes whose turn comes next. -/
theorem exec_turns (i : Instr) {s t : State} (h : exec i s = .next t) : SameTurns s t :=
  exec_rel i SameTurns (fun _ => ⟨rfl, rfl⟩) (fun _ _ _ => SameTurns.trans) (fun s q => sameTurns_setPort s _ q)
    (sameTurns_operandOf i) (sameTurns_finishOf i) h

/-- A step uses up its turn, and changes nothing else of the order of steps. -/
theorem step_turns {s t : State} (h : step s = .next t) : t.sched = s.sched.tail ∧ t.ticks = s.ticks + 1 := by
  unfold step at h
  split at h
  · rename_i p _
    have hb : SameTurns s.passTurn (s.turnOf p) := ⟨rfl, rfl⟩
    suffices SameTurns (s.turnOf p) t from hb.trans this
    unfold State.portStep at h
    change (match (s.turnOf p).here.input with | [] => _ | w :: _ => _) = _ at h
    split at h
    · cases h; exact ⟨rfl, rfl⟩
    · split at h <;> split at h
      · exact exec_turns _ h
      · cases h
        unfold State.rejectWord
        rw [State.refuse_eq]
        exact (sameTurns_setPort _ _ _).trans (sameTurns_setPort _ _ _)
      · exact exec_turns _ h
      · cases h
  all_goals cases h; exact ⟨rfl, rfl⟩

end Sys2Proof.Machine
end

