-- ==== Sys2Proof/Tests/Slice0.lean ====
section
/-! SUPPORT. Tests of single words, with expected values from the spec's encodings and vectors (30_encoding.md R110,
95_test_vectors.md); the ill-formed terms the well-formedness check refuses; and, for every statement with hypotheses, a
witness that meets them, one per clause. -/

namespace Sys2Proof.Tests

open Sys2Proof.Machine

/-! ### Small states -/

/-- A state in which a port is offered words, has the turn, and is the port whose word is being taken. -/
def offered (p : Port) (ws : List W32) (s : State) : State :=
  { s.setPort p { s.port p with input := ws } with cur := p, sched := [.port p] }

/-- A port of such a state in a command with this header, `left` operands to come and `buf` kept. -/
def during (p : Port) (hdr : W32) (left : Nat) (buf ws : List W32) (s : State) : State :=
  let s := offered p ws s
  s.setPort p { s.port p with
    seq := { phase := .opnd, hdr := hdr, left := left, buf := buf, pushed := 0, dropped := 0, outs := [] } }

/-- The state a step or an instruction answers. -/
def after (r : Result) : State :=
  match r with
  | .next t => t
  | _ => State.reset

/-- Whether it answers one. -/
def completes (r : Result) : Bool :=
  match r with
  | .next _ => true
  | _ => false

theorem next_after {r : Result} (h : completes r = true) : r = .next (after r) := by
  cases r <;> first | rfl | cases h

/-- The response words a port has produced. -/
def answered (p : Port) (r : Result) : List W32 := ((after r).port p).output

/-- Section T of 95_test_vectors.md 2.2, in slot 4 of channel 0, active. -/
def sectionT : State :=
  State.reset.onSelected 1 fun v => setByp 4 false
    (installCoefs 4 { b0 := 0x3F000000, b1 := 0x3E800000, b2 := 0x3E000000, a1 := 0xBF000000, a2 := 0x3E800000 } v)

/-- One block `1, 2, 3, 4` in `AF[0]`, visible to domain B (V-AF-3). -/
def oneBlock : State :=
  { State.reset with
    afmem := Memory.writeN [] 0 [0x3F800000, 0x40000000, 0x40400000, 0x40800000]
    wptr := { left := 1, right := 0 }, wptrSeen := { left := 1, right := 0 } }

/-- The second block `1, 0, -1, 0` of V-FG-1 in `AF[0]`, the first in the sliding buffer. -/
def quarterTone : State :=
  { State.reset with
    afmem := Memory.writeN [] 4 [0x3F800000, 0x00000000, 0xBF800000, 0x00000000]
    wptr := { left := 2, right := 0 }, wptrSeen := { left := 2, right := 0 }, rptr := { left := 1, right := 0 }
    slide := Memory.writeN [] 4 [0x3F800000, 0x00000000, 0xBF800000, 0x00000000] }

/-- A full `AF[0]` in the producer's view, three samples of a block in the accumulator (V-AF-5). -/
def fullRing : State :=
  { State.reset with
    wptr := { left := 30, right := 0 }, wptrSeen := { left := 30, right := 0 }, rptr := { left := 1, right := 0 }
    fill := { left := 3, right := 0 } }

/-! ### Well-formedness: one ill-formed term for each check, and the last legal value beside it (30_encoding.md R96) -/

theorem test_wf_chm :
    ¬ (Instr.bqSetc 0 4).WellFormed ∧ ¬ (Instr.bqByp 4 4 0).WellFormed ∧ ¬ (Instr.bqCutupd 4 0 0).WellFormed ∧
    (Instr.bqSetc 1 4).WellFormed ∧ (Instr.bqByp 3 4 0).WellFormed := by decide

theorem test_wf_slot :
    ¬ (Instr.bqSetc 3 9).WellFormed ∧ ¬ (Instr.bqByp 3 15 0).WellFormed ∧ (Instr.bqSetc 3 8).WellFormed ∧
    (Instr.bqByp 3 0 1).WellFormed := by decide

theorem test_wf_stg :
    ¬ (Instr.bqCutupd 3 1 0).WellFormed ∧ ¬ (Instr.bqCutupd 3 3 0).WellFormed ∧ (Instr.bqCutupd 3 0 15).WellFormed ∧
    (Instr.bqCutupd 3 2 0).WellFormed := by decide

theorem test_wf_ch :
    ¬ (Instr.bqProc 2 0).WellFormed ∧ ¬ (Instr.afPushs 2 0).WellFormed ∧ ¬ (Instr.afAvail 2).WellFormed ∧
    ¬ (Instr.afPull 15).WellFormed ∧ ¬ (Instr.mfAvail 2).WellFormed ∧ ¬ (Instr.mfPull 2).WellFormed ∧
    ¬ (Instr.fgStep 2).WellFormed ∧ (Instr.fgStep 1).WellFormed := by decide

/-! ### Decoding: a word written out from R92, R94 and R110 for every constructor, and words that are no command -/

theorem test_decode_nop : decode 0b00000000000000000000000000000000 = .command .nop := by decide
theorem test_decode_rdcsr : decode 0b00000001000000000000000000101000 = .command (.rdcsr 0x28) := by decide
theorem test_decode_wrcsr : decode 0b00000010000000000000000000000100 = .command (.wrcsr 0x04) := by decide
theorem test_decode_bqSetc : decode 0b00010000001101000000000000000000 = .command (.bqSetc 3 4) := by decide
theorem test_decode_bqByp : decode 0b00010001001101000000000000000001 = .command (.bqByp 3 4 1) := by decide
theorem test_decode_bqCutupd : decode 0b00010010001000100000000000000011 = .command (.bqCutupd 2 2 3) := by decide
theorem test_decode_bqProc : decode 0b00010011000100000000000000000100 = .command (.bqProc 1 4) := by decide
theorem test_decode_afPushs : decode 0b00100000000000001111111111111111 = .command (.afPushs 0 65535) := by decide
theorem test_decode_afAvail : decode 0b00110000000100000000000000000000 = .command (.afAvail 1) := by decide
theorem test_decode_afPull : decode 0b00110001000000000000000000000000 = .command (.afPull 0) := by decide
theorem test_decode_mfAvail : decode 0b00111000000000000000000000000000 = .command (.mfAvail 0) := by decide
theorem test_decode_mfPull : decode 0b00111001000100000000000000000000 = .command (.mfPull 1) := by decide
theorem test_decode_fgStep : decode 0b01000000000000000000000000000000 = .command (.fgStep 0) := by decide

/-- Words that are no command: V-BQ-11 (bit 4 of `IMM`), V-AF-7 (bit 16), V-SYS-4 (opcode `0xC2`), and the neighbours of the
listed opcodes. -/
theorem test_decode_rejects :
    decode 0x12300010 = .rejected (.mustBeZero .bqCutupd) ∧ decode 0x20010000 = .rejected (.mustBeZero .afPushs) ∧
    decode 0xC2700000 = .rejected .illegalOpcode ∧ decode 0x03000000 = .rejected .illegalOpcode ∧
    decode 0x14000000 = .rejected .illegalOpcode ∧ decode 0x41000000 = .rejected .illegalOpcode := by decide

/-! ### One word of each instruction, against 95_test_vectors.md -/

/-- V-SYS-1, as the first instruction after reset. -/
theorem test_nop : answered .a (step (State.reset.withFetchWord 32 0)) = [0x00000000] := by decide

/-- V-SYS-2. -/
theorem test_rdcsr :
    answered .a (exec (.rdcsr 0x28) (offered .a [0x01000028] State.reset)) = [0x00000000, 0x000001FF] ∧
    answered .b (exec (.rdcsr 0x01) (offered .b [0x01000001] State.reset)) = [0x00000000, 0x0003921E] ∧
    answered .a (exec (.rdcsr 0x04) (offered .a [0x01000004] State.reset)) = [0xE4000000] := by decide

/-- V-SYS-3. -/
theorem test_wrcsr : (after (exec (.wrcsr 0x04) (during .b 0x02000004 1 [] [0xC2700000] State.reset))).floor = 0xC2700000 := by
  decide

/-- V-SYS-4. -/
theorem test_wrcsr_wrong_port :
    let t := after (exec (.wrcsr 0x04) (offered .a [0x02000004, 0xC2700000] State.reset))
    t.portA.output = [0xE4000000] ∧ t.portA.input = [0xC2700000] ∧ csrRead .a 0x03 t = some 0x00000041 ∧
      csrRead .b 0x03 t = some 0x00000000 := by decide

/-- Section T of 2.2: channel 0 has it, channel 1 has not, and no bypass flag has changed. -/
theorem test_bqSetc :
    let t := after (exec (.bqSetc 1 4)
      (during .a 0x10140000 1 [0x3F000000, 0x3E800000, 0x3E000000, 0xBF000000] [0x3E800000] State.reset))
    (t.slot .left 4).coef = { b0 := 0x3F000000, b1 := 0x3E800000, b2 := 0x3E000000, a1 := 0xBF000000, a2 := 0x3E800000 } ∧
      csrRead .a 0x28 t = some 0x001001FF ∧ csrRead .a 0x29 t = some 0x000001FF := by decide

/-- V-BQ-12: refused for both channels where one has no coefficients; bypassing needs none. -/
theorem test_bqByp :
    answered .a (exec (.bqByp 3 4 0) (offered .a [0x11340000] sectionT)) = [0xE3000000] ∧
    answered .a (exec (.bqByp 3 4 1) (offered .a [0x11340001] State.reset)) = [0x00000000] := by decide

/-- V-BQ-9, second line. -/
theorem test_bqCutupd :
    let t := after (exec (.bqCutupd 3 0 1)
      (during .a 0x12300001 1 [0x3F800000, 0, 0, 0, 0, 0x40000000, 0, 0, 0] [0] State.reset))
    t.portA.output = [0x00000002] ∧ csrRead .a 0x28 t = some 0x000301FC ∧ (t.slot .right 1).coef.b0 = 0x40000000 := by decide

/-- V-BQ-11: slope code 15 takes five operand words and makes one section active. -/
theorem test_bqCutupd_unknown_slope :
    let t := after (exec (.bqCutupd 3 0 15) (during .a 0x1230000F 1 [0x3F800000, 0, 0, 0] [0] State.reset))
    t.portA.output = [0x00000001] ∧ csrRead .a 0x28 t = some 0x000101FE := by decide

/-- V-BQ-5, first and second sample: 0.5, then 1.0 by way of the history. -/
theorem test_bqProc :
    (chainStep sectionT.x.left 0x3F800000).1 = 0x3F000000 ∧
    (chainStep (chainStep sectionT.x.left 0x3F800000).2 0x3F800000).1 = 0x3F800000 := by decide +kernel

/-- V-BQ-7: the order of the additions, each rounded. -/
theorem test_bqProc_order :
    sectionOut { Section.reset with
      coef := { b0 := 0x3F800000, b1 := 0x3F800000, b2 := 0x3F800000, a1 := 0, a2 := 0 },
      x1 := 0x33800000, x2 := 0x33800000, y1 := 0x34000000, y2 := 0x33800000 } 0x3F800000 = 0x3F800000 := by decide +kernel

/-- V-AF-2: the fourth sample completes a block. -/
theorem test_afPushs :
    let s : State := { State.reset with
      fill := { left := 3, right := 0 }, acc := Memory.writeN [] 0 [0x3F800000, 0x40000000, 0x40400000] }
    let t := after (exec (.afPushs 0 1) (during .a 0x20000001 1 [] [0x40800000] s))
    t.portA.output = [0x00000001, 0x00000001] ∧ csrRead .a 0x10 t = some 0x00010000 ∧ csrRead .a 0x11 t = some 0 ∧
      t.afmem.readN 0 4 = [0x3F800000, 0x40000000, 0x40400000, 0x40800000] := by decide

/-- V-AF-5: dropped although a slot is free, because the producer's view is full. -/
theorem test_afPushs_drop :
    let t := after (exec (.afPushs 0 1) (during .a 0x20000001 1 [] [0x3F800000] fullRing))
    t.portA.output = [0x00000001, 0x00010000] ∧ csrRead .a 0x10 t = some 0x001E0000 := by decide

/-- V-AF-3. -/
theorem test_afAvail :
    answered .b (exec (.afAvail 0) (offered .b [0x30000000] oneBlock)) = [0x00000001] ∧
    answered .b (exec (.afAvail 1) (offered .b [0x30100000] oneBlock)) = [0x00000000] := by decide

/-- V-AF-3. -/
theorem test_afPull :
    answered .b (exec (.afPull 0) (offered .b [0x31000000] oneBlock)) =
      [0x00000004, 0x3F800000, 0x40000000, 0x40400000, 0x40800000] ∧
    answered .b (exec (.afPull 1) (offered .b [0x31100000] oneBlock)) = [0x11000000] := by decide

/-- V-MF-2: thirty vectors. -/
theorem test_mfAvail :
    answered .b (exec (.mfAvail 0) (offered .b [0x38000000] { State.reset with mw := { left := 30, right := 0 } })) =
      [0x0000001E] := by decide

/-- V-FG-1, step 2, the vector handed out, and V-MF-1. -/
theorem test_mfPull :
    answered .b (exec (.mfPull 0) (offered .b [0x39000000]
      { State.reset with
        mfmem := Memory.writeN [] 4 [0xC2400000, 0xC2400000, 0x00000000, 0xC2400000]
        mw := { left := 2, right := 0 }, mr := { left := 1, right := 0 } })) =
      [0x00000004, 0xC2400000, 0xC2400000, 0x00000000, 0xC2400000] ∧
    answered .b (exec (.mfPull 1) (offered .b [0x39100000] State.reset)) = [0x11000000] := by decide

/-- V-FG-1, step 2: the response, the sliding buffer, the vector. -/
theorem test_fgStep :
    let t := after (exec (.fgStep 0) (offered .b [0x40000000] quarterTone))
    t.portB.output = [0x00000001] ∧
      t.slideBuf .left = [0x3F800000, 0, 0xBF800000, 0, 0x3F800000, 0, 0xBF800000, 0] ∧
      t.mfHead .left = [0xC2400000, 0xC2400000, 0x00000000, 0xC2400000] := by decide +kernel

/-- V-FG-2: the transform of an impulse at the newest sample, bins 0 to 3. -/
theorem test_fgStep_transform :
    (fft 3 (windowed (List.replicate 8 0x3F800000) [0, 0, 0, 0, 0, 0, 0, 0x3F800000])).take 4 =
      [{ re := 0x3F800000, im := 0x00000000 }, { re := 0x3F3504F3, im := 0x3F3504F3 },
       { re := 0x00000000, im := 0x3F800000 }, { re := 0xBF3504F3, im := 0x3F3504F3 }] := by decide +kernel

/-- V-FG-2: a product, a sum and a root that round. -/
theorem test_rounding :
    fmul 0x3F3504F3 0x3F3504F3 = 0x3EFFFFFF ∧ fadd 0x3EFFFFFF 0x3EFFFFFF = 0x3F7FFFFF ∧
    fsqrt 0x3F7FFFFF = 0x3F7FFFFF := by decide +kernel

/-! ### Witnesses: for every statement with hypotheses, states and operands that meet them -/

theorem witness_EncodeOfDecode : decode 0x13100004 = .command (.bqProc 1 4) := by decide

/-- One refused header for each check of R107: strap, opcode, must-be-zero bit, field, CSR, coefficients. -/
theorem witness_RefusedHeader :
    ((offered .a [0x00000000] { State.reset with blklen := 5 }).HeaderNext .a 0x00000000 [] ∧
      (offered .a [0x00000000] { State.reset with blklen := 5 }).wordError .a 0x00000000 = some .field) ∧
    ((offered .b [0x13000000] State.reset).HeaderNext .b 0x13000000 [] ∧
      (offered .b [0x13000000] State.reset).wordError .b 0x13000000 = some .illop) ∧
    (offered .a [] State.reset).wordError .a 0x00000001 = some .field ∧
    (offered .a [] State.reset).wordError .a 0x20200000 = some .field ∧
    (offered .a [] State.reset).wordError .a 0x02000004 = some .csr ∧
    (offered .a [] sectionT).wordError .a 0x11340000 = some .nocoef := by
  refine ⟨⟨⟨rfl, rfl, rfl⟩, by decide⟩, ⟨⟨rfl, rfl, rfl⟩, by decide⟩, ?_⟩; decide

/-- A word for every disjunct of the hypothesis, at the boundary of its range. -/
theorem witness_IllegalFieldsRefused :
    (∀ p w, (offered p [w] State.reset).HeaderNext p w []) ∧ (∀ p w, (offered p [w] State.reset).strapOk = true) ∧
    (0x00000001 : W32) &&& 0x00FFFFFF ≠ 0 ∧
    (0x01000100 : W32) &&& 0x00FFFF00 ≠ 0 ∧ (0x02800004 : W32) &&& 0x00FFFF00 ≠ 0 ∧
    (0x10340001 : W32) &&& 0x0000FFFF ≠ 0 ∧ (0x10040000 : W32).extractLsb' 20 4 = 0 ∧
    ((0x10440000 : W32).extractLsb' 20 4).toNat = 4 ∧ ((0x10390000 : W32).extractLsb' 16 4).toNat = 9 ∧
    (0x11340002 : W32) &&& 0x0000FFFE ≠ 0 ∧ ((0x11390000 : W32).extractLsb' 16 4).toNat = 9 ∧
    (0x12300010 : W32) &&& 0x0000FFF0 ≠ 0 ∧ ((0x12310000 : W32).extractLsb' 16 4).toNat = 1 ∧
    (0x13010000 : W32) &&& 0x000F0000 ≠ 0 ∧ ((0x20200000 : W32).extractLsb' 20 4).toNat = 2 ∧
    (0x30000001 : W32) &&& 0x000FFFFF ≠ 0 ∧ ((0x40200000 : W32).extractLsb' 20 4).toNat = 2 := by
  refine ⟨?_, ?_, ?_⟩
  · intro p w; cases p <;> exact ⟨rfl, rfl, rfl⟩
  · intro p w; cases p <;> rfl
  · decide

theorem witness_IllegalOpcodeRefused :
    (offered .a [0x30000000] State.reset).HeaderNext .a 0x30000000 [] ∧
    (offered .a [0x30000000] State.reset).strapOk = true ∧
    (0x30 : Nat) ∉ [0x00, 0x01, 0x02] ++ [0x10, 0x11, 0x12, 0x13, 0x20] ∧
    (offered .b [0x20FFFFFF] State.reset).HeaderNext .b 0x20FFFFFF [] ∧
    (offered .b [0x20FFFFFF] State.reset).strapOk = true ∧
    (0x20 : Nat) ∉ [0x00, 0x01, 0x02] ++ [0x30, 0x31, 0x38, 0x39, 0x40] := by
  refine ⟨⟨rfl, rfl, rfl⟩, ?_, ?_, ⟨rfl, rfl, rfl⟩, ?_⟩ <;> decide

/-- The straps 0 and `BLKMAX + 1` are no block lengths, 1 and `BLKMAX` are. -/
theorem witness_BadStrapRefusesEveryHeader :
    ((offered .a [0x00000000] { State.reset with blklen := 0 }).HeaderNext .a 0x00000000 [] ∧
      ({ State.reset with blklen := 0 } : State).blklen.toNat = 0) ∧
    ((offered .b [0x00000000] { State.reset with blklen := 5 }).HeaderNext .b 0x00000000 [] ∧
      State.reset.inst.blkMax < ({ State.reset with blklen := 5 } : State).blklen.toNat) ∧
    State.reset.inst.valid = true ∧ ¬ ((1 : BitVec 16).toNat = 0 ∨ State.reset.inst.blkMax < (1 : BitVec 16).toNat) ∧
    ¬ ((4 : BitVec 16).toNat = 0 ∨ State.reset.inst.blkMax < (4 : BitVec 16).toNat) := by
  refine ⟨⟨⟨rfl, rfl, rfl⟩, by decide⟩, ⟨⟨rfl, rfl, rfl⟩, by decide⟩, ?_⟩; decide +kernel

theorem witness_LateErrors :
    (offered .a [0x01000004] State.reset).AtHeader 0x01000004 [] ∧ (offered .a [0x01000004] State.reset).strapOk = true ∧
    csrRead .a 0x04 State.reset = none ∧
    ¬ (Port.a = .b ∧ (0x04 : BitVec 8) = 0x04) ∧ ¬ (Port.b = .b ∧ (0x05 : BitVec 8) = 0x04) ∧
    (Instr.bqByp 3 8 0).WellFormed ∧ (3 : BitVec 4).getLsbD Chan.right.index = true ∧ (8 : Fin 9).val = (8 : BitVec 4).toNat ∧
    (State.reset.slot .right 8).cv = false ∧ (offered .a [0x11380000] State.reset).cur = .a := by
  refine ⟨⟨rfl, rfl⟩, ?_⟩; decide

/-- A sticky flag already set, and one that a step sets. -/
theorem witness_ErrorsAreSticky :
    let s := offered .a [0x00000001] State.reset
    let t := after (step s)
    (∀ strap, s.nextTurn ≠ .reset strap) ∧ step s = .next t ∧ (s.port .a).err = false ∧ (t.port .a).err = true ∧
    (∀ strap, (offered .a [0xFF000000] t).nextTurn ≠ .reset strap) ∧
    step (offered .a [0xFF000000] t) = .next (after (step (offered .a [0xFF000000] t))) ∧
    ((offered .a [0xFF000000] t).port .a).err = true := by
  refine ⟨?_, next_after (by decide), by decide, by decide, ?_, next_after (by decide), by decide⟩ <;> intro _ h <;> cases h

theorem witness_AcceptedHeader :
    (offered .a [0x10340000] State.reset).HeaderNext .a 0x10340000 [] ∧
    (offered .a [0x10340000] State.reset).wordError .a 0x10340000 = none ∧ (Instr.bqSetc 3 4).nopnd ≠ 0 ∧
    (offered .b [0x31000000] State.reset).HeaderNext .b 0x31000000 [] ∧
    (offered .b [0x31000000] State.reset).wordError .b 0x31000000 = none ∧ (Instr.afPull 0).nopnd = 0 := by
  refine ⟨⟨rfl, rfl, rfl⟩, by decide, by decide, ⟨rfl, rfl, rfl⟩, by decide, rfl⟩

theorem witness_OperandKept :
    (during .a 0x10340000 5 [] [0x3F800000] State.reset).AtOperand (3 + 1) [] 0x3F800000 [] := ⟨rfl, rfl, rfl, rfl⟩

theorem witness_StepRunsDecoded :
    (∀ ws, (offered .a ws State.reset).nextTurn = .port .a) ∧
    (((offered .a [0x00000000] State.reset).port .a).seq.phase = .hdr ∧ decode 0x00000000 = .command .nop) ∧
    (((during .a 0x10340000 5 [] [0x3F800000] State.reset).port .a).seq.phase = .opnd ∧
      decode ((during .a 0x10340000 5 [] [0x3F800000] State.reset).port .a).seq.hdr = .command (.bqSetc 3 4)) ∧
    ((offered .a [] State.reset).port .a).input = [] := by
  refine ⟨fun _ => rfl, ⟨rfl, by decide⟩, ⟨rfl, by decide⟩, rfl⟩

theorem witness_SynchroniserSteps :
    ({ State.reset with sched := [.syncW .left] } : State).nextTurn = .syncW .left ∧
    ({ State.reset with sched := [.syncR .right] } : State).nextTurn = .syncR .right ∧
    ({ State.reset with sched := [.port .b] } : State).nextTurn = .port .b ∧
    (∃ t, step { State.reset with sched := [.port .b] } = .next t) ∧ ∀ p, State.reset.seqOk p := by
  refine ⟨rfl, rfl, rfl, ⟨_, rfl⟩, ?_⟩
  intro p; cases p <;> exact rfl

theorem witness_ResetStep : ({ fullRing with sched := [.reset 3] } : State).nextTurn = .reset 3 := rfl

theorem witness_AfterReset :
    1 ≤ (1 : BitVec 16).toNat ∧ (4 : BitVec 16).toNat ≤ Params.tc8.blkMax ∧ (0 : BitVec 4).toNat ≤ 1 ∧
    (1 : BitVec 4).toNat ≤ 1 := by decide

/-- Between commands, and in the middle of one. -/
theorem witness_EveryStepCompletes :
    (∀ p, State.reset.seqOk p) ∧ ∀ p, (during .a 0x10340000 5 [] [0x3F800000] State.reset).seqOk p := by
  constructor
  · intro p; cases p <;> exact rfl
  · intro p
    cases p
    · exact ⟨by decide, .bqSetc 3 4, by decide, by decide, by decide, by decide, by decide, rfl⟩
    · exact rfl

/-- `NOP` meets the premise of every clause at once; a bypassed section meets the other half of the third. -/
theorem witness_WritersOfState :
    exec .nop (offered .a [0x00000000] State.reset) = .next (after (exec .nop (offered .a [0x00000000] State.reset))) ∧
    Writers.coefs .nop = false ∧ Writers.byp .nop = false ∧ Writers.history .nop = false ∧
    Writers.history (.bqProc 0 1) = true ∧ (State.reset.slot .left 0).byp = true :=
  ⟨next_after (by decide), by decide⟩

theorem witness_NopResponds :
    (offered .b [0x00000000] State.reset).strapOk = true ∧ (offered .b [0x00000000] State.reset).AtHeader 0x00000000 [] :=
  ⟨by decide, rfl, rfl⟩

theorem witness_RdcsrAnswers :
    (offered .a [0x01000029] State.reset).strapOk = true ∧ (offered .a [0x01000029] State.reset).AtHeader 0x01000029 [] ∧
    csrRead (offered .a [0x01000029] State.reset).cur 0x29 (offered .a [0x01000029] State.reset) = some 0x000001FF :=
  ⟨by decide, ⟨rfl, rfl⟩, by decide⟩

theorem witness_CsrReadings :
    State.reset.inst.p < 32 ∧ State.reset.fill.get .left < 2 ^ 16 ∧
    (0x04 : BitVec 8).toNat ∉ [0x00, 0x01, 0x02, 0x03, 0x10, 0x11, 0x28, 0x29] ∧
    (0x10 : BitVec 8).toNat ∉ [0x00, 0x01, 0x02, 0x03, 0x04, 0x18, 0x19, 0x20, 0x21] ∧
    ((9 ≤ 9 ∧ 9 ≤ 15) ∨ 25 ≤ 9) ∧ ((9 ≤ 25 ∧ 25 ≤ 15) ∨ 25 ≤ 25) := by decide

theorem witness_WrcsrSetsFloor :
    (during .b 0x02000004 1 [] [0x7FC00000] State.reset).cur = .b ∧
    (during .b 0x02000004 1 [] [0x7FC00000] State.reset).AtOperand 0 [] 0x7FC00000 [] := ⟨rfl, rfl, rfl, rfl, rfl⟩

theorem witness_SetcInstalls :
    (Instr.bqSetc 1 8).WellFormed ∧ (during .a 0x10180000 1 [1, 2, 3, 4] [5] State.reset).cur = .a ∧
    (during .a 0x10180000 1 [1, 2, 3, 4] [5] State.reset).AtOperand 0 [1, 2, 3, 4] 5 [] := by
  refine ⟨by decide, rfl, rfl, rfl, rfl, rfl⟩

/-- To bypass, from reset; to make active, on channel 0, which has the coefficients. -/
theorem witness_BypSetsFlag :
    (Instr.bqByp 3 0 1).WellFormed ∧ (Instr.bqByp 1 4 0).WellFormed ∧
    (offered .a [0x11300001] State.reset).cur = .a ∧ (offered .a [0x11300001] State.reset).strapOk = true ∧
    (offered .a [0x11300001] State.reset).AtHeader 0x11300001 [] ∧ (offered .a [0x11140000] sectionT).AtHeader 0x11140000 [] ∧
    ∀ c (k : Fin 9), (1 : BitVec 4).getLsbD c.index = true → k.val = (4 : BitVec 4).toNat →
      ((offered .a [0x11140000] sectionT).slot c k).cv = true := by
  refine ⟨by decide, by decide, rfl, by decide, ⟨rfl, rfl⟩, ⟨rfl, rfl⟩, ?_⟩
  intro c k; cases c <;> revert k <;> decide

/-- The least and the greatest slope, and a code that is no slope; both stages. -/
theorem witness_CutupdUpdates :
    (Instr.bqCutupd 3 0 0).WellFormed ∧ (Instr.bqCutupd 1 2 3).WellFormed ∧ (Instr.bqCutupd 2 2 15).WellFormed ∧
    (during .a 0x12300000 1 [1, 2, 3, 4] [5] State.reset).cur = .a ∧
    (during .a 0x12300000 1 [1, 2, 3, 4] [5] State.reset).AtOperand 0 [1, 2, 3, 4] 5 [] ∧
    (during .a 0x12120003 1 (List.replicate 19 1) [5] State.reset).AtOperand 0 (List.replicate 19 1) 5 [] ∧
    ([1, 2, 3, 4] : List W32).length + 1 = 5 * (if (0 : BitVec 4).toNat ≤ 3 then (0 : BitVec 4).toNat + 1 else 1) ∧
    (List.replicate 19 (1 : W32)).length + 1 = 5 * (if (3 : BitVec 4).toNat ≤ 3 then (3 : BitVec 4).toNat + 1 else 1) ∧
    ([1, 2, 3, 4] : List W32).length + 1 = 5 * (if (15 : BitVec 4).toNat ≤ 3 then (15 : BitVec 4).toNat + 1 else 1) := by
  refine ⟨by decide, by decide, by decide, rfl, ⟨rfl, rfl, rfl, rfl⟩, ⟨rfl, rfl, rfl, rfl⟩, ?_⟩; decide

theorem witness_BypassKeepsHistory :
    ((Instr.bqByp 1 4 1).opcode = .bqByp ∧ exec (.bqByp 1 4 1) (offered .a [0x11140001] sectionT) =
      .next (after (exec (.bqByp 1 4 1) (offered .a [0x11140001] sectionT)))) ∧
    sectionT.x.left[(4 : Fin 9)].byp = false ∧ State.reset.x.left[(4 : Fin 9)].byp = true :=
  ⟨⟨rfl, next_after (by decide)⟩, by decide, by decide⟩

theorem witness_SectionStep :
    Section.reset.byp = true ∧ ({ Section.reset with byp := false } : Section).byp = false := ⟨rfl, rfl⟩

theorem witness_ChainPassesSlotsInOrder : ∀ k : Fin 9, State.reset.x.left[k].byp = true := by decide

/-- The last sample, and one that is not. -/
theorem witness_ProcTakesSample :
    (1 : BitVec 4).toNat = Chan.right.index ∧ (during .a 0x13100002 1 [] [0x3F800000] sectionT).cur = .a ∧
    (during .a 0x13100002 1 [] [0x3F800000] sectionT).AtOperand 0 [] 0x3F800000 [] ∧
    (during .a 0x13100002 2 [] [0x3F800000] sectionT).AtOperand 1 [] 0x3F800000 [] :=
  ⟨rfl, rfl, ⟨rfl, rfl, rfl, rfl⟩, ⟨rfl, rfl, rfl, rfl⟩⟩

theorem witness_EmptyStreams :
    (0 : BitVec 4).toNat ≤ 1 ∧ (1 : BitVec 4).toNat ≤ 1 ∧ (offered .a [0x13000000] State.reset).cur = .a ∧
    (offered .a [0x13000000] State.reset).strapOk = true ∧ (offered .a [0x13000000] State.reset).AtHeader 0x13000000 [] :=
  ⟨by decide, by decide, rfl, by decide, rfl, rfl⟩

/-- The state in which port A is offered a streaming command and has all the turns it takes. -/
def streaming (i : Instr) (ws : List W32) (s : State) : State :=
  { offered .a (encode i :: ws) s with sched := List.replicate (ws.length + 1) (.port .a) }

theorem witness_ProcWhole :
    (0 : BitVec 4).toNat = Chan.left.index ∧ ([0x3F800000, 0x3F800000] : List W32).length < 2 ^ 16 ∧
    (streaming (.bqProc 0 2) [0x3F800000, 0x3F800000] sectionT).strapOk = true ∧
    (streaming (.bqProc 0 2) [0x3F800000, 0x3F800000] sectionT).portA.seq.phase = .hdr ∧
    (streaming (.bqProc 0 2) [0x3F800000, 0x3F800000] sectionT).portA.input =
      encode (.bqProc 0 (BitVec.ofNat 16 2)) :: ([0x3F800000, 0x3F800000] ++ []) ∧
    (streaming (.bqProc 0 2) [0x3F800000, 0x3F800000] sectionT).sched = List.replicate (2 + 1) (.port .a) ++ [] := by decide

/-- A sample that completes no block, one that completes a block which is pushed, one whose block is dropped. -/
theorem witness_PushsTakesSample :
    (0 : BitVec 4).toNat = Chan.left.index ∧
    ((during .a 0x20000001 1 [] [0] State.reset).cur = .a ∧
      (during .a 0x20000001 1 [] [0] State.reset).AtOperand 0 [] 0 [] ∧
      (during .a 0x20000001 1 [] [0] State.reset).fill.get .left + 1 < State.reset.blkLen) ∧
    (let s := during .a 0x20000001 1 [] [0] { State.reset with fill := { left := 3, right := 0 } }
     s.AtOperand 0 [] 0 [] ∧ s.blkLen ≤ s.fill.get .left + 1 ∧ s.occA .left ≠ 30) ∧
    (let s := during .a 0x20000001 1 [] [0] fullRing
     s.AtOperand 0 [] 0 [] ∧ s.blkLen ≤ s.fill.get .left + 1 ∧ s.occA .left = 30) := by
  refine ⟨rfl, ⟨rfl, ⟨rfl, rfl, rfl, rfl⟩, by decide⟩, ⟨⟨rfl, rfl, rfl, rfl⟩, by decide, by decide⟩,
    ⟨⟨rfl, rfl, rfl, rfl⟩, by decide, by decide⟩⟩

theorem witness_PushsWhole :
    (0 : BitVec 4).toNat = Chan.left.index ∧ ([1, 2, 3, 4, 5] : List W32).length < 2 ^ 16 ∧
    (streaming (.afPushs 0 5) [1, 2, 3, 4, 5] State.reset).strapOk = true ∧
    (streaming (.afPushs 0 5) [1, 2, 3, 4, 5] State.reset).fill.get .left < State.reset.blkLen ∧
    (streaming (.afPushs 0 5) [1, 2, 3, 4, 5] State.reset).portA.seq.phase = .hdr ∧
    (streaming (.afPushs 0 5) [1, 2, 3, 4, 5] State.reset).portA.input =
      encode (.afPushs 0 (BitVec.ofNat 16 5)) :: ([1, 2, 3, 4, 5] ++ []) ∧
    (streaming (.afPushs 0 5) [1, 2, 3, 4, 5] State.reset).sched = List.replicate (5 + 1) (.port .a) ++ [] := by decide

theorem witness_AvailCounts :
    (1 : BitVec 4).toNat = Chan.right.index ∧ (offered .b [0x30100000] oneBlock).cur = .b ∧
    (offered .b [0x30100000] oneBlock).strapOk = true ∧ (offered .b [0x30100000] oneBlock).AtHeader 0x30100000 [] :=
  ⟨rfl, rfl, by decide, rfl, rfl⟩

/-- Channel 0 has a block, channel 1 has none. -/
theorem witness_AfPullTakesBlock :
    (0 : BitVec 4).toNat = Chan.left.index ∧ (offered .b [0x31000000] oneBlock).cur = .b ∧
    (offered .b [0x31000000] oneBlock).strapOk = true ∧ (offered .b [0x31000000] oneBlock).AtHeader 0x31000000 [] ∧
    (offered .b [0x31000000] oneBlock).availB .left ≠ 0 ∧ (offered .b [0x31000000] oneBlock).availB .right = 0 :=
  ⟨rfl, rfl, by decide, ⟨rfl, rfl⟩, by decide, by decide⟩

theorem witness_MfPullTakesVector :
    let s := offered .b [0x39000000] { State.reset with mw := { left := 30, right := 0 } }
    (0 : BitVec 4).toNat = Chan.left.index ∧ s.cur = .b ∧ s.strapOk = true ∧ s.inst.p ≤ 16 ∧ s.AtHeader 0x39000000 [] ∧
      s.mocc .left ≠ 0 ∧ s.mocc .right = 0 :=
  ⟨rfl, rfl, by decide, by decide, ⟨rfl, rfl⟩, by decide, by decide⟩

/-- No block; a block and room for its vector; a block and a full magnitude ring. -/
theorem witness_FgStepExtracts :
    let s := offered .b [0x40000000] oneBlock
    let f := offered .b [0x40000000] { oneBlock with mw := { left := 30, right := 0 } }
    (0 : BitVec 4).toNat = Chan.left.index ∧ s.cur = .b ∧ s.strapOk = true ∧ s.AtHeader 0x40000000 [] ∧
      s.availB .right = 0 ∧ s.availB .left ≠ 0 ∧ s.mocc .left ≠ 30 ∧ f.availB .left ≠ 0 ∧ f.mocc .left = 30 :=
  ⟨rfl, rfl, by decide, ⟨rfl, rfl⟩, by decide, by decide, by decide, by decide, by decide⟩

theorem witness_StoresLeaveOtherWords :
    (0 : BitVec 4).toNat = Chan.left.index ∧
    exec (.afPushs 0 1) (during .a 0x20000001 1 [] [0x3F800000] State.reset) =
      .next (after (exec (.afPushs 0 1) (during .a 0x20000001 1 [] [0x3F800000] State.reset))) ∧
    quarterTone.blkLen ≤ quarterTone.inst.n ∧
    exec (.fgStep 0) (offered .b [0x40000000] quarterTone) =
      .next (after (exec (.fgStep 0) (offered .b [0x40000000] quarterTone))) := by
  refine ⟨by decide, next_after (by decide), by decide, next_after (by decide +kernel)⟩

/-- A push and a pull that succeed, on either ring. -/
theorem witness_RingsAreFifo :
    let s : State := { oneBlock with mw := { left := 30, right := 0 } }
    (∀ c, s.ringsOk c) ∧ (s.afPush .right [1, 2, 3, 4]).isSome = true ∧ s.afmem.wf = true ∧ s.strapOk = true ∧
    ([1, 2, 3, 4] : List W32).length = s.blkLen ∧ (s.afPull .left).isSome = true ∧
    (s.mfPush .right [1, 2, 3, 4]).isSome = true ∧ s.mfmem.wf = true ∧ ([1, 2, 3, 4] : List W32).length = s.inst.nbins ∧
    (s.mfPull .left).isSome = true := by
  refine ⟨fun c => ?_, ?_⟩
  · cases c <;> (unfold State.ringsOk; decide)
  · decide

/-- Thirty-one blocks. -/
theorem witness_ThirtyBlocksFit :
    State.reset.occ .left = 0 ∧ State.reset.occA .left = 0 ∧ State.reset.afmem.wf = true ∧ State.reset.strapOk = true ∧
    ∀ item ∈ List.replicate 31 ([1, 2, 3, 4] : List W32), item.length = State.reset.blkLen := by decide

theorem witness_SlideShiftsAndAppends :
    State.reset.inst.valid = true ∧ State.reset.strapOk = true ∧ State.reset.slide.wf = true ∧
    ([1, 2, 3, 4] : List W32).length = State.reset.blkLen ∧ 3 + State.reset.blkLen < State.reset.inst.n ∧
    3 < State.reset.blkLen ∧ Chan.right ≠ .left ∧ 7 < State.reset.inst.n := by decide +kernel

theorem witness_BitReversal :
    7 < 2 ^ 3 ∧ 2 < 3 ∧ (List.replicate 8 Cplx.zero).length = 2 ^ 3 := by decide

/-- The last pair of the first stage and the last pair of the last. -/
theorem witness_StagesAreButterflies :
    (List.replicate 8 Cplx.zero).length = 2 ^ 3 ∧ (1 ≤ 1 ∧ 1 ≤ 3 ∧ 6 % 2 ^ 1 = 0 ∧ 6 < 2 ^ 3 ∧ 0 < 2 ^ (1 - 1)) ∧
    (1 ≤ 3 ∧ 3 ≤ 3 ∧ 0 % 2 ^ 3 = 0 ∧ 0 < 2 ^ 3 ∧ 3 < 2 ^ (3 - 1)) := by decide

/-- A scaled magnitude that is infinite, one that is zero, one that is 1; floors that are numbers, infinities, NaNs. -/
theorem witness_DecibelConversion :
    Binary32.isFinite (fmul 0x7F800000 0x3E800000) = false ∧
    (Binary32.isFinite (fmul 0x00000000 0x3E800000) = true ∧
      Binary32.fgt (fmul 0x00000000 0x3E800000) 0x00000000 = false) ∧
    (Binary32.isFinite (fmul 0x40800000 0x3E800000) = true ∧
      Binary32.fgt (fmul 0x40800000 0x3E800000) 0x00000000 = true ∧
      Binary32.isFinite (fmul 0x41A00000 (flog10 (fmul 0x40800000 0x3E800000))) = true) ∧
    Binary32.isNaN 0x7FC00000 = true ∧ Binary32.isFinite 0x3E800000 = true ∧ Binary32.fgt 0x3E800000 0x00000000 = true ∧
    Binary32.units 0x80000000 = 0 ∧ Binary32.isFinite 0x7FC00000 = false := by decide +kernel

theorem witness_SumsRoundOnce :
    Binary32.isFinite 0x3F800000 = true ∧ Binary32.isFinite 0xBF800000 = true ∧
    Binary32.value 0x3F800000 + Binary32.value 0xBF800000 = 0 ∧
    Binary32.value 0x80000000 - Binary32.value 0x00000000 = 0 := by decide +kernel

theorem witness_ProductsRoundOnce : Binary32.isFinite 0x7F7FFFFF = true ∧ Binary32.isFinite 0x00000001 = true := by decide

theorem witness_RootsRoundOnce :
    Binary32.isFinite 0x40000000 = true ∧ Binary32.sign 0x40000000 = false ∧ Binary32.isFinite 0x80000000 = true := by decide

theorem witness_InvalidGivesQuietNaN :
    Binary32.isNaN 0x7F800001 = true ∧ Binary32.sign 0xBF800000 = true ∧ (0xBF800000 : W32) ≠ 0x80000000 ∧
    Binary32.isInf 0xFF800000 = true ∧ Binary32.units 0x80000000 = 0 ∧ Binary32.isFinite 0x7F7FFFFF = true ∧
    Binary32.isInf 0x7F800000 = true ∧ Binary32.sign 0x7F800000 ≠ Binary32.sign 0xFF800000 ∧
    Binary32.isNaN 0x00000001 = false ∧ Binary32.units 0x00000001 ≠ 0 := by decide +kernel

theorem witness_LogarithmProperties :
    Binary32.isFinite 0x00000001 = true ∧ 0 < Binary32.value 0x00000001 ∧ Binary32.isFinite 0x7F7FFFFF = true ∧
    Binary32.value 0x00000001 ≤ Binary32.value 0x7F7FFFFF := by decide +kernel

theorem witness_OrderedGreaterThan :
    Binary32.isNaN 0x7FC00000 = true ∧ Binary32.isFinite 0x80000000 = true ∧ Binary32.isFinite 0x7F7FFFFF = true := by decide

theorem witness_MemoryStaysCanonical :
    let s := during .a 0x20000001 1 [] [0x3F800000] State.reset
    s.memoryCanonical = true ∧ step s = .next (after (step s)) :=
  ⟨by decide, next_after (by decide)⟩

/-- A pushed block with exact counts, and each of the two synchronisers. -/
theorem witness_RingCountsStayOk :
    (let s := during .a 0x20000001 1 [] [0x3F800000] { State.reset with fill := { left := 3, right := 0 } }
     s.ringsOk .left ∧ step s = .next (after (step s)) ∧ s.occA .left = s.occ .left ∧
       (after (step s)).rptr.get .left = s.rptr.get .left) ∧
    (let s : State := { fullRing with sched := [.syncW .left] }
     s.ringsOk .left ∧ step s = .next (after (step s)) ∧ s.nextTurn = .syncW .left) ∧
    (let s : State := { fullRing with sched := [.syncR .left] }
     s.ringsOk .left ∧ step s = .next (after (step s)) ∧ s.nextTurn = .syncR .left ∧ s.availB .left = s.occ .left ∧
       (after (step s)).wptr.get .left = s.wptr.get .left) := by
  refine ⟨⟨?_, next_after (by decide), by decide, by decide⟩, ⟨?_, next_after (by decide), rfl⟩,
    ⟨?_, next_after (by decide), rfl, by decide, by decide⟩⟩ <;>
    (unfold State.ringsOk; decide)

theorem witness_InvariantAtReset : Params.tc8.valid = true := by decide +kernel

/-- A state in the middle of `BQ.SETC`, with a block in a ring. -/
theorem witness_InvariantKept :
    (during .a 0x10340000 5 [] [0x3F800000] oneBlock).Inv ∧
    step (during .a 0x10340000 5 [] [0x3F800000] oneBlock) =
      .next (after (step (during .a 0x10340000 5 [] [0x3F800000] oneBlock))) := by
  refine ⟨⟨by decide +kernel, by decide, fun c => ?_, fun c => ?_, ?_, fun p => ?_, fun p => ?_⟩, next_after (by decide)⟩
  · cases c <;> (unfold State.ringsOk; decide)
  · cases c <;> (unfold State.cursorOk; decide)
  · intro c; cases c <;> decide
  · cases p <;> (unfold PortState.flagsOk; decide)
  · cases p
    · exact ⟨by decide, .bqSetc 3 4, by decide, by decide, by decide, by decide, by decide, rfl⟩
    · exact rfl

theorem witness_PortsOwnTheirDomain :
    step (offered .a [0x00000000] State.reset) = .next (after (step (offered .a [0x00000000] State.reset))) ∧
    (offered .a [0x00000000] State.reset).nextTurn = .port .a ∧ (offered .a [0x00000000] State.reset).seqOk .a ∧
    step (offered .b [0x31000000] oneBlock) = .next (after (step (offered .b [0x31000000] oneBlock))) ∧
    (offered .b [0x31000000] oneBlock).nextTurn = .port .b ∧ (offered .b [0x31000000] oneBlock).seqOk .b :=
  ⟨next_after (by decide), rfl, rfl, next_after (by decide), rfl, rfl⟩

/-- Two states that differ in what the other domain holds. -/
theorem witness_DomainsIsolated :
    (let s := offered .a [0x13000000] State.reset
     let s' := offered .a [0x13000000] { State.reset with floor := 0, rptr := { left := 1, right := 0 } }
     AgreeForA s s' ∧ s ≠ s' ∧ s.seqOk .a ∧ s.nextTurn = .port .a ∧ s'.nextTurn = .port .a ∧
       step s = .next (after (step s)) ∧ step s' = .next (after (step s'))) ∧
    (let s := offered .b [0x31000000] oneBlock
     let s' := offered .b [0x31000000] { oneBlock with x := sectionT.x, wptr := { left := 2, right := 0 } }
     AgreeForB s s' ∧ s ≠ s' ∧ s.seqOk .b ∧ s.nextTurn = .port .b ∧ s'.nextTurn = .port .b ∧
       step s = .next (after (step s)) ∧ step s' = .next (after (step s'))) := by
  refine ⟨⟨by unfold AgreeForA; decide, by decide, rfl, rfl, rfl, next_after (by decide), next_after (by decide)⟩,
    ⟨by unfold AgreeForB; decide, by decide, rfl, rfl, rfl, next_after (by decide), next_after (by decide)⟩⟩

/-- The settings of scenario S6 (95_test_vectors.md). -/
def settingsS6 : ChainSettings :=
  { peakFreq := 0x443B8000, peakGainDb := 0x00000000, peakQuality := 0x3F800000, lowCutFreq := 0x41A00000,
    highCutFreq := 0x469C4000, lowCutSlope := .db12, highCutSlope := .db12 }

/-- At 44100 Hz they are valid, with another gain too; with the quality 0, or a corner at Nyquist, the factory fails. -/
theorem witness_FactoryFillsCutupd :
    settingsS6.Valid 0x472C4400 ∧ { settingsS6 with peakGainDb := 0x40C00000 }.Valid 0x472C4400 ∧
    { settingsS6 with peakQuality := 0x00000000 }.Fails 0x472C4400 ∧
    { settingsS6 with highCutFreq := 0x46AC4400 }.Fails 0x472C4400 := by
  unfold ChainSettings.Valid ChainSettings.Fails freqOutside qualityTooLow freqOk; decide +kernel

/-- Blocks of 65535 samples or fewer go in one `BQ.PROC`, the empty one too; a host with no design sends its samples only. -/
theorem test_blockProtocol_no_design :
    blockProtocol settingsS6 none [0x3F800000] [] = [0x13000001, 0x3F800000, 0x13100000] := by decide

end Sys2Proof.Tests
end

section
/-! What the release of reset puts into each piece of state (10_state.md R50), field by field: a proof about a reset step
cites these and does not unfold `State.resetWith`. -/

namespace Sys2Proof.Machine

/-- A step on the turn of the reset input. -/
theorem step_reset {s : State} {strap : BitVec 16} (h : s.nextTurn = .reset strap) :
    step s = .next (s.passTurn.resetWith strap) := by
  unfold step; rw [h]

@[simp] theorem State.slot_resetWith (s : State) (strap : BitVec 16) (c : Chan) (k : Fin 9) :
    (s.resetWith strap).slot c k = Section.reset := by
  have hx : (s.resetWith strap).x.get c = Vector.replicate 9 Section.reset := PerChan.get_both _ c
  rw [State.slot_eq, hx, Fin.getElem_fin, Vector.getElem_replicate]

@[simp] theorem State.fill_resetWith (s : State) (strap : BitVec 16) : (s.resetWith strap).fill = PerChan.both 0 := rfl
@[simp] theorem State.wptr_resetWith (s : State) (strap : BitVec 16) : (s.resetWith strap).wptr = PerChan.both 0 := rfl
@[simp] theorem State.rptr_resetWith (s : State) (strap : BitVec 16) : (s.resetWith strap).rptr = PerChan.both 0 := rfl
@[simp] theorem State.wptrSeen_resetWith (s : State) (strap : BitVec 16) :
    (s.resetWith strap).wptrSeen = PerChan.both 0 := rfl
@[simp] theorem State.rptrSeen_resetWith (s : State) (strap : BitVec 16) :
    (s.resetWith strap).rptrSeen = PerChan.both 0 := rfl
@[simp] theorem State.mw_resetWith (s : State) (strap : BitVec 16) : (s.resetWith strap).mw = PerChan.both 0 := rfl
@[simp] theorem State.mr_resetWith (s : State) (strap : BitVec 16) : (s.resetWith strap).mr = PerChan.both 0 := rfl
@[simp] theorem State.slide_resetWith (s : State) (strap : BitVec 16) : (s.resetWith strap).slide = [] := rfl
@[simp] theorem State.floor_resetWith (s : State) (strap : BitVec 16) : (s.resetWith strap).floor = floorReset := rfl
@[simp] theorem State.blklen_resetWith (s : State) (strap : BitVec 16) : (s.resetWith strap).blklen = strap := rfl
@[simp] theorem State.port_resetWith (s : State) (strap : BitVec 16) (p : Port) :
    (s.resetWith strap).port p = (s.port p).afterReset := by cases p <;> rfl

/-- The Gray code of index 0 (10_state.md R50). -/
theorem gray_zero : gray 0 = 0b000011 := by decide

@[simp] theorem State.wgray_resetWith (s : State) (strap : BitVec 16) (c : Chan) :
    (s.resetWith strap).wgray c = 0b000011 := by
  rw [State.wgray, State.wptr_resetWith, PerChan.get_both, gray_zero]

@[simp] theorem State.rgray_resetWith (s : State) (strap : BitVec 16) (c : Chan) :
    (s.resetWith strap).rgray c = 0b000011 := by
  rw [State.rgray, State.rptr_resetWith, PerChan.get_both, gray_zero]

/-- Settles O15: a step on a reset turn is `State.resetWith`, and every value of R50 is one of its fields. -/
theorem resetStep : Obligations.ResetStep := by
  unfold Obligations.ResetStep
  intro s strap h
  refine ⟨s.passTurn.resetWith strap, step_reset h, fun c k => ?slots, fun c => ?rings, fun a => ?sliding, rfl, rfl,
    fun p => ?ports⟩
  case slots => rw [State.slot_resetWith]; exact ⟨rfl, rfl, rfl, rfl, rfl, rfl⟩
  case rings => simp
  case sliding => rw [State.slide_resetWith, Memory.read_nil]; rfl
  case ports => rw [State.port_resetWith]; exact ⟨rfl, rfl, rfl, rfl, rfl, rfl⟩

end Sys2Proof.Machine
end

section
/-! What the control and status registers read and which of them can be written (10_state.md R40 to R49): where each index is
implemented, and each word as the number its fields make. -/

namespace Sys2Proof.Machine

/-! ### Words from fields side by side -/

/-- Two words side by side, as a number. -/
theorem toNat_append_eq_add {m n : Nat} (a : BitVec m) (b : BitVec n) :
    (a ++ b).toNat = a.toNat * 2 ^ n + b.toNat := by
  rw [BitVec.toNat_append, ← Nat.shiftLeft_add_eq_or_of_lt b.isLt, Nat.shiftLeft_eq]

/-- A word with zeros above it is the same number. -/
theorem zero_append_eq_ofNat {m n : Nat} (b : BitVec n) : (0 : BitVec m) ++ b = BitVec.ofNat (m + n) b.toNat := by
  apply BitVec.eq_of_toNat_eq
  have hb : b.toNat < 2 ^ (m + n) := b.isLt.trans_le (Nat.pow_le_pow_right (by decide) (by omega))
  rw [toNat_append_eq_add, BitVec.toNat_ofNat, Nat.mod_eq_of_lt hb]
  simp

/-- A count of ring items fits the 8 bits of its CSR field. -/
theorem ringCount_lt (w r : RingIdx) : ringCount w r < 2 ^ 8 := (w - r).isLt.trans (by decide)

/-! ### The words of the registers -/

/-- The word of `CAPS` (10_state.md R42). -/
theorem capsWord_eq {inst : Params} (h : inst.p < 32) :
    capsWord inst = BitVec.ofNat 32 (30 + 2 * 2 ^ 8 + 9 * 2 ^ 12 + inst.p * 2 ^ 16) := by
  apply BitVec.eq_of_toNat_eq
  simp only [capsWord, toNat_append_eq_add, BitVec.ofNat_eq_ofNat, BitVec.toNat_ofNat, nslot, nch, cap]
  omega

/-- The word of `BLKLEN` (R43). -/
theorem blklenWord_eq (s : State) : blklenWord s = BitVec.ofNat 32 s.blklen.toNat := zero_append_eq_ofNat s.blklen

/-- The word of `STATUS` (R44). -/
theorem statusWord_eq (q : PortState) : statusWord q = BitVec.ofNat 32 (q.err.toNat + q.ecode.toNat * 2 ^ 4) := by
  apply BitVec.eq_of_toNat_eq
  have hc := q.ecode.isLt
  have he : q.err.toNat < 2 := q.err.toNat_lt
  simp only [statusWord, toNat_append_eq_add, BitVec.toNat_ofBool, BitVec.ofNat_eq_ofNat, BitVec.toNat_ofNat]
  omega

/-- The word of `AFPROD[c]` (R46), the cursor fitting its field. -/
theorem afprodWord_eq {s : State} {c : Chan} (h : s.fill.get c < 2 ^ 16) :
    afprodWord s c = BitVec.ofNat 32 (s.fill.get c + s.occA c * 2 ^ 16) := by
  apply BitVec.eq_of_toNat_eq
  have ho : s.occA c < 2 ^ 8 := ringCount_lt _ _
  simp only [afprodWord, toNat_append_eq_add, BitVec.ofNat_eq_ofNat, BitVec.toNat_ofNat]
  omega

/-- A word whose one field is a ring count. -/
theorem countWord_eq (w r : RingIdx) :
    (0 : BitVec 24) ++ BitVec.ofNat 8 (ringCount w r) = BitVec.ofNat 32 (ringCount w r) := by
  rw [zero_append_eq_ofNat, BitVec.toNat_ofNat, Nat.mod_eq_of_lt (ringCount_lt w r)]

/-- The word of `AFCONS[c]` (R47). -/
theorem afconsWord_eq (s : State) (c : Chan) : afconsWord s c = BitVec.ofNat 32 (s.availB c) := countWord_eq _ _

/-- The word of `MFSTAT[c]` (R48). -/
theorem mfstatWord_eq (s : State) (c : Chan) : mfstatWord s c = BitVec.ofNat 32 (s.mocc c) := countWord_eq _ _

/-- Bit `k` of the flags of the slots is the flag of slot `k`. -/
theorem slotBits_getLsbD (f : Section → Bool) (v : Slots) (k : Fin 9) : (slotBits f v).getLsbD k = f v[k] := by
  rw [slotBits, BitVec.getLsbD_ofFnLE, dif_pos k.isLt]

/-- A bit of `BYPV[c]`, by the field it lies in (R49). -/
theorem bypvWord_getLsbD (v : Slots) (b : Nat) :
    (bypvWord v).getLsbD b =
      if b < 9 then (slotBits Section.byp v).getLsbD b
      else if b < 16 then false
      else (slotBits Section.cv v).getLsbD (b - 16) := by
  have hsub : b - 9 - 7 = b - 16 := by omega
  simp only [bypvWord, BitVec.getLsbD_append, BitVec.ofNat_eq_ofNat, BitVec.getLsbD_zero, hsub]
  by_cases h1 : b < 9
  · rw [if_pos h1, if_pos h1]
  · rw [if_neg h1, if_neg h1]
    by_cases h2 : b < 16
    · rw [if_pos (by omega), if_pos h2]
    · rw [if_neg (by omega), if_neg h2]
      split
      · rfl
      · rw [BitVec.getLsbD_of_ge _ _ (by omega)]

/-- Slot `k`'s bypass flag is bit `k` of `BYPV[c]` (R49). -/
theorem bypvWord_byp (v : Slots) (k : Fin 9) : (bypvWord v).getLsbD k = v[k].byp := by
  rw [bypvWord_getLsbD, if_pos k.isLt, slotBits_getLsbD]

/-- Slot `k`'s coefficients-valid flag is bit `16 + k` of `BYPV[c]` (R49). -/
theorem bypvWord_cv (v : Slots) (k : Fin 9) : (bypvWord v).getLsbD (16 + k) = v[k].cv := by
  rw [bypvWord_getLsbD, if_neg (by omega), if_neg (by omega), Nat.add_sub_cancel_left, slotBits_getLsbD]

/-- The other bits of `BYPV[c]` are zero (R49). -/
theorem bypvWord_unused (v : Slots) {b : Nat} (h : (9 ≤ b ∧ b ≤ 15) ∨ 25 ≤ b) : (bypvWord v).getLsbD b = false := by
  rw [bypvWord_getLsbD, if_neg (by omega)]
  split
  · rfl
  · rw [BitVec.getLsbD_of_ge _ _ (by omega)]

/-! ### Where a register is -/

/-- Each register at its index, on the ports it is on (R40). -/
@[simp] theorem csrRead_id (p : Port) (s : State) : csrRead p 0x00 s = some 0x43455131 := by cases p <;> rfl
@[simp] theorem csrRead_caps (p : Port) (s : State) : csrRead p 0x01 s = some (capsWord s.inst) := by cases p <;> rfl
@[simp] theorem csrRead_blklen (p : Port) (s : State) : csrRead p 0x02 s = some (blklenWord s) := by cases p <;> rfl
@[simp] theorem csrRead_status (p : Port) (s : State) : csrRead p 0x03 s = some (statusWord (s.port p)) := by
  cases p <;> rfl
@[simp] theorem csrRead_floor (s : State) : csrRead .b 0x04 s = some s.floor := rfl
@[simp] theorem csrRead_afprod (s : State) (c : Chan) :
    csrRead .a (BitVec.ofNat 8 (0x10 + c.index)) s = some (afprodWord s c) := by cases c <;> rfl
@[simp] theorem csrRead_afcons (s : State) (c : Chan) :
    csrRead .b (BitVec.ofNat 8 (0x18 + c.index)) s = some (afconsWord s c) := by cases c <;> rfl
@[simp] theorem csrRead_mfstat (s : State) (c : Chan) :
    csrRead .b (BitVec.ofNat 8 (0x20 + c.index)) s = some (mfstatWord s c) := by cases c <;> rfl
@[simp] theorem csrRead_bypv (s : State) (c : Chan) :
    csrRead .a (BitVec.ofNat 8 (0x28 + c.index)) s = some (bypvWord (s.x.get c)) := by cases c <;> rfl

/-- The indices of the registers of a port: the four that both have, then its own. -/
def csrIndices (p : Port) : List Nat :=
  0x00 :: 0x01 :: 0x02 :: 0x03 ::
    match p with
    | .a => [0x10, 0x11, 0x28, 0x29]
    | .b => [0x04, 0x18, 0x19, 0x20, 0x21]

/-- A register that can be read is at one of the port's indices. -/
theorem mem_csrIndices_of_csrRead {p : Port} {idx : BitVec 8} {s : State} {v : W32} (h : csrRead p idx s = some v) :
    idx.toNat ∈ csrIndices p := by
  unfold csrRead at h
  split at h <;> simp_all [csrIndices]

theorem csrRead_eq_none {p : Port} {idx : BitVec 8} (s : State) (h : idx.toNat ∉ csrIndices p) :
    csrRead p idx s = none :=
  Option.eq_none_iff_forall_ne_some.mpr fun _ hv => h (mem_csrIndices_of_csrRead hv)

/-! ### Writing -/

theorem csrWritable_iff (p : Port) (idx : BitVec 8) : csrWritable p idx = true ↔ p = .b ∧ idx = 0x04 := by
  simp [csrWritable]

theorem wrcsrCheck_eq (idx : BitVec 8) (s : State) :
    wrcsrCheck idx s = if s.cur = .b ∧ idx = 0x04 then none else some .csr := by
  simp only [wrcsrCheck, csrWritable_iff]

@[simp] theorem csrWrite_floor (w : W32) (s : State) : csrWrite .b 0x04 w s = { s with floor := w } := rfl

/-- Settles O21: each register's word by its own lemma, absence because an index read is a listed one. -/
theorem csrReadings : Obligations.CsrReadings := by
  unfold Obligations.CsrReadings
  refine ⟨fun s p => ⟨csrRead_id p s, fun h => ?caps, ?blklen, ?status, csrRead_floor s, fun c h => ?afprod,
    fun c => ?afcons, fun c => ?mfstat, fun c => ?bypv⟩, fun s _ => csrRead_eq_none (p := .a) s,
    fun s _ => csrRead_eq_none (p := .b) s, fun s idx w => ⟨wrcsrCheck_eq idx s, ?written⟩⟩
  case caps => rw [csrRead_caps, capsWord_eq h]
  case blklen => rw [csrRead_blklen, blklenWord_eq]
  case status => rw [csrRead_status, statusWord_eq]
  case afprod => rw [csrRead_afprod, afprodWord_eq h]
  case afcons => rw [csrRead_afcons, afconsWord_eq]
  case mfstat => rw [csrRead_mfstat, mfstatWord_eq]
  case bypv =>
    exact ⟨_, csrRead_bypv s c, fun k => ⟨bypvWord_byp _ k, bypvWord_cv _ k⟩, fun _ hb => bypvWord_unused _ hb⟩
  case written => rw [csrWrite_floor, csrRead_floor]

end Sys2Proof.Machine
end

section
/-! Headers as words: the operand counts and the worked encodings (30_encoding.md R95, R110), and the refusal of a header whose
opcode exists on the port but whose bits or fields are not legal (R96, R107 check 3). -/

namespace Sys2Proof

/-- Settles O3: the words of R110 are fixed, so the decoder is run on each. -/
theorem workedEncodings : Obligations.WorkedEncodings := by
  unfold Obligations.WorkedEncodings
  decide

/-- Settles O4: each row of the table is the equation of `Instr.nopnd` at the command the opcode makes of the header. -/
theorem operandCounts : Obligations.OperandCounts := by
  unfold Obligations.OperandCounts
  intro h
  exact ⟨rfl, rfl, rfl, rfl, rfl, rfl, rfl, rfl, rfl, rfl, rfl, rfl, rfl⟩

/-! ### Opcodes and fields by their numbers -/

theorem Opcode.ofCode_of_toNat {c : BitVec 8} {op : Opcode} (h : c.toNat = op.code.toNat) : Opcode.ofCode c = some op := by
  rw [BitVec.eq_of_toNat_eq h, Opcode.ofCode_code]

theorem legalCh_eq_false {ch : BitVec 4} : legalCh ch = false ↔ 2 ≤ ch.toNat := by
  simp [legalCh, Nat.lt_iff_add_one_le]

theorem legalChm_eq_false {chm : BitVec 4} : legalChm chm = false ↔ chm.toNat = 0 ∨ 4 ≤ chm.toNat := by
  rw [← Bool.not_eq_true, legalChm, Bool.and_eq_true, decide_eq_true_iff, decide_eq_true_iff]
  omega

theorem legalSlot_eq_false {slot : BitVec 4} : legalSlot slot = false ↔ 9 ≤ slot.toNat := by
  simp [legalSlot, Nat.lt_iff_add_one_le]

theorem legalStg_eq_false {stg : BitVec 4} : legalStg stg = false ↔ stg.toNat ≠ 0 ∧ stg.toNat ≠ 2 := by
  simp [legalStg]

theorem legalChm_and_legalSlot_eq_false {chm slot : BitVec 4} :
    (legalChm chm && legalSlot slot) = false ↔ (chm.toNat = 0 ∨ 4 ≤ chm.toNat) ∨ 9 ≤ slot.toNat := by
  rw [Bool.and_eq_false_iff, legalChm_eq_false, legalSlot_eq_false]

theorem legalChm_and_legalStg_eq_false {chm stg : BitVec 4} :
    (legalChm chm && legalStg stg) = false ↔ (chm.toNat = 0 ∨ 4 ≤ chm.toNat) ∨ (stg.toNat ≠ 0 ∧ stg.toNat ≠ 2) := by
  rw [Bool.and_eq_false_iff, legalChm_eq_false, legalStg_eq_false]

end Sys2Proof

namespace Sys2Proof.Machine

/-! ### Refused headers -/

/-- Check 3 of R107 fails for a command whose fields are not legal, where checks 1 and 2 pass. -/
theorem headerCheck_illegalField {i : Instr} {late : State → Option ErrCode} {s : State} (h1 : s.strapOk = true)
    (h2 : i.opcode.onPort s.cur = true) (h3 : i.fieldsLegal = false) : headerCheck i late s = some .field := by
  simp [headerCheck, h1, h2, h3]

/-- A must-be-zero bit set in a header whose opcode is of this port, under a strap that is a block length. -/
theorem State.rejectWord_mustBeZero {s : State} {op : Opcode} (h1 : s.strapOk = true) (h2 : op.onPort s.cur = true) :
    s.rejectWord (.mustBeZero op) = s.takeWord.refuse .field := by
  simp [State.rejectWord, h1, h2]

/-- The word a port takes at its turn, refused. -/
theorem State.refuse_turnOf {s : State} {p : Port} {w : W32} {rest : List W32} (h : s.HeaderNext p w rest) (e : ErrCode) :
    (s.turnOf p).takeWord.refuse e = (s.turnOf p).setPort p ((s.port p).afterRefusal rest e.bits) := by
  obtain ⟨_, _, hi⟩ := h
  have hi' : (s.turnOf p).here.input = w :: rest := by rw [State.here_turnOf, hi]
  rw [State.refuse_after _ e hi', State.here_turnOf, State.cur_turnOf]

/-- A header that decodes to a command which fails a check of R107 is refused with that check's error. -/
theorem step_header_refused {s : State} {p : Port} {w : W32} {rest : List W32} {i : Instr} {e : ErrCode}
    (h : s.HeaderNext p w rest) (hd : decode w = .command i) (he : headerCheck i (lateOf i) (s.turnOf p) = some e) :
    step s = .next ((s.turnOf p).setPort p ((s.port p).afterRefusal rest e.bits)) := by
  have ⟨_, hp, hi⟩ := h
  have hi' : (s.turnOf p).here.input = w :: rest := by rw [State.here_turnOf, hi]
  have hp' : (s.turnOf p).seq.phase = .hdr := by rw [State.seq_eq, State.here_turnOf, hp]
  rw [step_header h hd, exec_eq, runWord_refused hi' hp' he, State.refuse_turnOf h]

/-- Check 3 of R107, both halves: at a port where the opcode exists, a must-be-zero bit or an illegal field is `E_FIELD`. -/
theorem step_header_illegalField {s : State} {p : Port} {w : W32} {rest : List W32} {op : Opcode}
    (h : s.HeaderNext p w rest) (hs : s.strapOk = true) (hc : Opcode.ofCode (Header.opc w) = some op)
    (hp : op.onPort p = true) (hb : w &&& op.mbz ≠ 0 ∨ (Instr.ofHeader op w).fieldsLegal = false) :
    step s = .next ((s.turnOf p).setPort p ((s.port p).afterRefusal rest ErrCode.field.bits)) := by
  rcases decode_cases w with ⟨hnone, _⟩ | ⟨op', hc', hd⟩
  · simp [hc] at hnone
  obtain rfl : op' = op := Option.some.inj (hc'.symm.trans hc)
  rcases hd with ⟨hz, hd⟩ | ⟨_, hd⟩
  · have hf := hb.resolve_left (not_not_intro hz)
    exact step_header_refused h hd (headerCheck_illegalField hs (by rwa [Instr.opcode_ofHeader]) hf)
  · rw [step_rejected h hd, State.rejectWord_mustBeZero (s := s.turnOf p) hs hp, State.refuse_turnOf h]

/-- Settles O6: a word of each row of R96 has that row's opcode, whose mask or legal set is the one of the row. -/
theorem illegalFieldsRefused : Obligations.IllegalFieldsRefused := by
  unfold Obligations.IllegalFieldsRefused
  intro s p w rest h hs hrow
  have refused (op : Opcode) (hc : (Header.opc w).toNat = op.code.toNat) :=
    step_header_illegalField h hs (Opcode.ofCode_of_toNat hc)
  obtain ⟨ho, hb⟩ | ⟨ho | ho, hb⟩ | ⟨rfl, ho, hb⟩ | ⟨rfl, ho, hb⟩ | ⟨rfl, ho, hb⟩ | ⟨rfl, ho | ho, hb⟩ |
    ⟨rfl, ho | ho | ho | ho | ho, hb⟩ := hrow
  · exact refused .nop ho rfl (.inl hb)
  · exact refused .rdcsr ho rfl (.inl hb)
  · exact refused .wrcsr ho rfl (.inl hb)
  · exact refused .bqSetc ho rfl (hb.imp_right legalChm_and_legalSlot_eq_false.mpr)
  · exact refused .bqByp ho rfl (hb.imp_right legalChm_and_legalSlot_eq_false.mpr)
  · exact refused .bqCutupd ho rfl (hb.imp_right legalChm_and_legalStg_eq_false.mpr)
  · exact refused .bqProc ho rfl (hb.imp_right legalCh_eq_false.mpr)
  · exact refused .afPushs ho rfl (hb.imp_right legalCh_eq_false.mpr)
  · exact refused .afAvail ho rfl (hb.imp_right legalCh_eq_false.mpr)
  · exact refused .afPull ho rfl (hb.imp_right legalCh_eq_false.mpr)
  · exact refused .mfAvail ho rfl (hb.imp_right legalCh_eq_false.mpr)
  · exact refused .mfPull ho rfl (hb.imp_right legalCh_eq_false.mpr)
  · exact refused .fgStep ho rfl (hb.imp_right legalCh_eq_false.mpr)

end Sys2Proof.Machine
end

section
/-! The biquad cascade: one section, one chain, and the three commands that configure it (41_biquad_cascade.md R142 to R153),
from the per-slot lemmas of the cascade. -/

namespace Sys2Proof.Machine

/-! ### One section (R142) -/

/-- A bypassed section is the identity. -/
theorem secStep_bypassed {r : Section} (h : r.byp = true) (xin : W32) : secStep r xin = (xin, r) := if_pos h

/-- An active section answers its output and shifts its history. -/
theorem secStep_active {r : Section} (h : r.byp = false) (xin : W32) :
    secStep r xin =
      (sectionOut r xin, { r with x2 := r.x1, x1 := xin, y2 := r.y1, y1 := sectionOut r xin }) := by
  unfold secStep; rw [h]; rfl

/-- Settles O27: the two branches of `secStep`; `sectionOut` is the expression of R142. -/
theorem sectionStep : Obligations.SectionStep := by
  unfold Obligations.SectionStep
  exact fun r xin => ⟨fun h => secStep_bypassed h xin, fun h => secStep_active h xin⟩

/-! ### One chain (R147) -/

/-- The value and the slots of a chain after a sample has passed its first `k` slots. -/
def chainPrefix (v : Slots) (xin : W32) : Nat → W32 × Slots
  | 0 => (xin, v)
  | k + 1 => if h : k < 9 then chainSlot (chainPrefix v xin k) ⟨k, h⟩ else chainPrefix v xin k

theorem chainPrefix_succ (v : Slots) (xin : W32) (k : Fin 9) :
    chainPrefix v xin (k.val + 1) = chainSlot (chainPrefix v xin k.val) k := dif_pos k.isLt

/-- A chain is its first nine slots. -/
theorem chainStep_eq_chainPrefix (v : Slots) (xin : W32) : chainStep v xin = chainPrefix v xin 9 := rfl

/-- After `k` slots the slots before `k` have taken their step, each on the value before it, and the others none. -/
theorem chainPrefix_get (v : Slots) (xin : W32) {k : Nat} (hk : k ≤ 9) (j : Fin 9) :
    (chainPrefix v xin k).2[j] = if j.val < k then (secStep v[j] (chainPrefix v xin j.val).1).2 else v[j] := by
  induction k with
  | zero => rfl
  | succ k ih =>
    have ih := ih (by omega)
    rw [chainPrefix_succ v xin ⟨k, hk⟩, chainSlot_get]
    by_cases hj : j = ⟨k, hk⟩
    · subst hj
      rw [ih, if_pos rfl, if_neg (lt_irrefl k), if_pos (Nat.lt_succ_self k)]
    · have hne : j.val ≠ k := fun e => hj (Fin.ext e)
      rw [if_neg hj, ih]
      simp only [show j.val < k + 1 ↔ j.val < k by omega]

/-- The value after slot `k` is what the slot, as it was before the sample, gives for the value before it. -/
theorem chainPrefix_value (v : Slots) (xin : W32) (k : Fin 9) :
    (chainPrefix v xin (k.val + 1)).1 = (secStep v[k] (chainPrefix v xin k.val).1).1 := by
  have hslot : (chainPrefix v xin k.val).2[k] = v[k] := by
    rw [chainPrefix_get v xin k.isLt.le, if_neg (lt_irrefl _)]
  rw [chainPrefix_succ, ← hslot]; rfl

/-- Every slot of a chain takes its own step, on the value before it. -/
theorem chainStep_get (v : Slots) (xin : W32) (k : Fin 9) :
    (chainStep v xin).2[k] = (secStep v[k] (chainPrefix v xin k.val).1).2 := by
  rw [chainStep_eq_chainPrefix, chainPrefix_get v xin le_rfl, if_pos k.isLt]

/-- A bypassed slot is as it was after a sample has passed. -/
theorem chainStep_get_bypassed {v : Slots} {k : Fin 9} (h : v[k].byp = true) (xin : W32) : (chainStep v xin).2[k] = v[k] := by
  rw [chainStep_get, secStep_bypassed h]

/-- Bypassed slots pass the value on. -/
theorem chainPrefix_bypassed {v : Slots} (h : ∀ k : Fin 9, v[k].byp = true) (xin : W32) {k : Nat} (hk : k ≤ 9) :
    (chainPrefix v xin k).1 = xin := by
  induction k with
  | zero => rfl
  | succ k ih => rw [chainPrefix_value v xin ⟨k, hk⟩, secStep_bypassed (h _), ih (by omega)]

/-- Slots are equal when they are equal slot by slot. -/
theorem Slots.ext_get {v w : Slots} (h : ∀ k : Fin 9, v[k] = w[k]) : v = w := Vector.ext fun i hi => h ⟨i, hi⟩

/-- Settles O28: the values between the slots are those of the chain's prefixes. -/
theorem chainPassesSlotsInOrder : Obligations.ChainPassesSlotsInOrder := by
  unfold Obligations.ChainPassesSlotsInOrder
  refine ⟨fun v xin => ⟨fun k => (chainPrefix v xin k).1, rfl, fun k => ?_, rfl⟩, fun v xin h => Prod.ext ?value ?slots⟩
  · exact ⟨chainPrefix_value v xin k, chainStep_get v xin k⟩
  case value => exact chainPrefix_bypassed h xin le_rfl
  case slots => exact Slots.ext_get fun k => chainStep_get_bypassed (h k) xin

/-! ### The history registers (R153) -/

/-- The four history registers of a section (10_state.md R25). -/
def Section.history (r : Section) : W32 × W32 × W32 × W32 := (r.x1, r.x2, r.y1, r.y2)

@[simp] theorem Section.history_withCoefs (r : Section) (k : Coefs) : (r.withCoefs k).history = r.history := rfl
@[simp] theorem Section.history_withByp (r : Section) (b : Bool) : (r.withByp b).history = r.history := rfl

/-- Every slot has the same history in two states. -/
def SameHistory (s t : State) : Prop := ∀ c k, (t.slot c k).history = (s.slot c k).history

theorem SameHistory.trans {s t u : State} (h1 : SameHistory s t) (h2 : SameHistory t u) : SameHistory s u :=
  fun c k => (h2 c k).trans (h1 c k)

theorem sameHistory_setPort (s : State) (p : Port) (q : PortState) : SameHistory s (s.setPort p q) :=
  fun c k => by rw [State.slot_setPort]

/-- A slot after a change made to the selected channels (R148). -/
theorem State.slot_onSelected (s : State) (chm : BitVec 4) (f : Slots → Slots) (c : Chan) (k : Fin 9) :
    (s.onSelected chm f).slot c k = if chm.getLsbD c.index = true then (f (s.x.get c))[k] else s.slot c k := by
  rw [State.slot_eq, State.x_onSelected, selects_eq]; split <;> rfl

theorem sameHistory_onSelected (s : State) (chm : BitVec 4) {f : Slots → Slots}
    (hf : ∀ (v : Slots) (k : Fin 9), (f v)[k].history = v[k].history) : SameHistory s (s.onSelected chm f) := by
  intro c k
  rw [State.slot_onSelected]
  split
  · exact hf _ k
  · rfl

theorem installCoefs_history (i : Fin 9) (q : Coefs) (v : Slots) (k : Fin 9) :
    (installCoefs i q v)[k].history = v[k].history := by
  rw [installCoefs_get]; split <;> rfl

theorem setByp_history (i : Fin 9) (b : Bool) (v : Slots) (k : Fin 9) : (setByp i b v)[k].history = v[k].history := by
  rw [setByp_get]; split <;> rfl

theorem cutUpdate_history (stg : BitVec 4) (m : Nat) (ws : List W32) (v : Slots) (k : Fin 9) :
    (cutUpdate stg m ws v)[k].history = v[k].history := by
  rw [cutUpdate_get]; split
  · split <;> rfl
  · rfl

/-- No word of a command that configures the cascade writes a history register: operands are kept in the port, and what the
last one does to a slot is `withCoefs` and `withByp`. -/
theorem exec_config_history {i : Instr} {s t : State} (hi : i.opcode = .bqSetc ∨ i.opcode = .bqByp ∨ i.opcode = .bqCutupd)
    (h : exec i s = .next t) : SameHistory s t := by
  have hop : ∀ w s, SameHistory s (operandOf i w s) := by
    cases i
    case bqSetc | bqByp | bqCutupd => exact fun w s => sameHistory_setPort s _ _
    all_goals simp [Instr.opcode] at hi
  have hfin : ∀ s, SameHistory s (finishOf i s) := by
    intro s
    cases i
    case bqSetc chm slot =>
      exact (sameHistory_onSelected s chm (installCoefs_history _ _)).trans (sameHistory_setPort _ _ _)
    case bqByp chm slot v => exact (sameHistory_onSelected s chm (setByp_history _ _)).trans (sameHistory_setPort _ _ _)
    case bqCutupd chm stg slope =>
      exact (sameHistory_onSelected s chm (cutUpdate_history _ _ _)).trans (sameHistory_setPort _ _ _)
    all_goals simp [Instr.opcode] at hi
  exact exec_rel i SameHistory (fun _ _ _ => rfl) (fun _ _ _ => SameHistory.trans) (fun s q => sameHistory_setPort s _ q)
    hop hfin h

/-- Bypassing an active section and making it active again changes nothing. -/
theorem setByp_false_setByp_true {v : Slots} {k : Fin 9} (h : v[k].byp = false) : setByp k false (setByp k true v) = v := by
  refine Slots.ext_get fun j => ?_
  rw [setByp_get, setByp_get]
  split
  · rename_i hj
    rw [← hj] at h
    calc ((v[j]).withByp true).withByp false = (v[j]).withByp v[j].byp := by rw [h]; rfl
      _ = v[j] := rfl
  · rfl

/-- Settles O26: the frame of the three commands on histories, and a bypassed section in `setByp` and in a chain. -/
theorem bypassKeepsHistory : Obligations.BypassKeepsHistory := by
  unfold Obligations.BypassKeepsHistory
  refine ⟨fun i s t hi h c k => ?_, fun v k => setByp_false_setByp_true, fun v xin k h => chainStep_get_bypassed h xin⟩
  simpa [Section.history] using exec_config_history hi h c k

/-! ### `BQ.CUTUPD` (R145, R149) -/

/-- A port that has taken and kept the last operand word of a command, `ws` being all of them. -/
def PortState.kept (q : PortState) (rest ws : List W32) : PortState :=
  { q with input := rest, seq := { q.seq with left := 0, buf := ws } }

@[simp] theorem PortState.buf_kept (q : PortState) (rest ws : List W32) : (q.kept rest ws).seq.buf = ws := rfl

/-- The last operand word of a command that keeps its operands: the command finishes over the full buffer. -/
theorem exec_lastOperand {i : Instr} {s : State} {ws : List W32} {w : W32} {rest : List W32}
    (hop : operandOf i = State.keepOperand) (h : s.AtOperand 0 ws w rest) :
    exec i s = .next ((finishOf i (s.setPort s.cur (s.here.kept rest (ws ++ [w])))).setPhase .hdr) := by
  obtain ⟨hph, hleft, hbuf, hin⟩ := h
  have hkept : (s.takeWord.keepOperand w).countDown = s.setPort s.cur (s.here.kept rest (ws ++ [w])) := by
    rw [State.seq_eq] at hleft hbuf
    simp [PortState.kept, hleft, hbuf, hin]
  have hlast : (s.takeWord.keepOperand w).countDown.seq.left = 0 := by rw [hkept, State.seq_eq, State.here_setPort]; rfl
  rw [exec_eq, hop, runWord_last hin hph hlast, hkept]

/-- The response `OK` with `AUX = n` to a command whose operands are kept leaves its port as `PortState.afterLast` says. -/
theorem respondOk_kept (s : State) (q : PortState) (rest ws : List W32) {n : Nat} (hn : n < 2 ^ 16) :
    ((s.setPort s.cur (q.kept rest ws)).respondOk n []).setPhase .hdr =
      s.setPort s.cur (q.afterLast rest ws [BitVec.ofNat 32 n]) := by
  rw [State.respondOk_eq, State.respond_eq, respHeader_ok hn]
  simp [PortState.kept, PortState.afterLast]

theorem State.onSelected_setPort (s : State) (p : Port) (q : PortState) (chm : BitVec 4) (f : Slots → Slots) :
    (s.setPort p q).onSelected chm f = (s.onSelected chm f).setPort p q := by cases p <;> rfl

/-- A change of the selected channels answered with `OK` and `AUX = n`, where the operands are kept. -/
theorem onSelected_respondOk_kept (s : State) (chm : BitVec 4) (f : Slots → Slots) (rest ws : List W32) {n : Nat}
    (hn : n < 2 ^ 16) :
    (((s.setPort s.cur (s.here.kept rest ws)).onSelected chm f).respondOk n []).setPhase .hdr =
      (s.onSelected chm f).setPort s.cur (s.here.afterLast rest ws [BitVec.ofNat 32 n]) := by
  rw [State.onSelected_setPort]
  exact respondOk_kept (s.onSelected chm f) s.here rest ws hn

theorem nsec_lt (slope : BitVec 4) : nsec slope < 2 ^ 16 := by unfold nsec; split <;> omega

/-- `BQ.CUTUPD` at its last operand word: `cutUpdate` on the selected channels, and the response. -/
theorem exec_bqCutupd_last {s : State} {ws : List W32} {w : W32} {rest : List W32} (chm stg slope : BitVec 4)
    (h : s.AtOperand 0 ws w rest) :
    exec (.bqCutupd chm stg slope) s = .next ((s.onSelected chm (cutUpdate stg (nsec slope) (ws ++ [w]))).setPort s.cur
      (s.here.afterLast rest (ws ++ [w]) [BitVec.ofNat 32 (nsec slope)])) := by
  rw [exec_lastOperand rfl h, finishOf, finishCutupd, State.seq_eq, State.here_setPort, PortState.buf_kept,
    onSelected_respondOk_kept s chm _ rest _ (nsec_lt slope)]

/-- Settles O25: a slot after the command is the slot of `cutUpdate` on a selected channel, else the slot before. -/
theorem cutupdUpdates : Obligations.CutupdUpdates := by
  unfold Obligations.CutupdUpdates
  intro s chm stg slope ws w rest _ hc h m base _
  have hhere : s.here = s.portA := by rw [State.here, hc, State.port_a]
  have hexec := exec_bqCutupd_last chm stg slope h
  rw [hc, hhere] at hexec
  refine ⟨_, hexec, rfl, fun c k => ?_⟩
  rw [State.slot_setPort, State.slot_onSelected]
  by_cases hsel : chm.getLsbD c.index = true
  · rw [if_pos hsel, cutUpdate_get]; simp only [hsel, true_and]; rfl
  · rw [if_neg hsel, if_neg fun hk => hsel hk.1]

end Sys2Proof.Machine
end

section
/-! The block FIFO: how the ring counts move and the bracket every step keeps them in (42_block_fifo.md R170 to R175), one
sample of AF.PUSHS (R176, R177), and the Gray code of an index (R171). -/

namespace Sys2Proof.Machine

/-! ### Counts as indices move (R170) -/

/-- A count that is not 59 goes up by one when the write index advances. -/
theorem ringCount_add_one_left {w r : RingIdx} (h : ringCount w r < 59) : ringCount (w + 1) r = ringCount w r + 1 := by
  unfold ringCount at *; omega

/-- A count that is not 0 goes down by one when the read index advances. -/
theorem ringCount_add_one_right {w r : RingIdx} (h : ringCount w r ≠ 0) : ringCount w (r + 1) = ringCount w r - 1 := by
  unfold ringCount at *; omega

/-- Two counts up to one write index agree exactly when their read indices do. -/
theorem ringCount_right_inj {w r r' : RingIdx} : ringCount w r = ringCount w r' ↔ r = r' := by
  unfold ringCount; rw [Fin.val_inj, sub_right_inj]

/-- Two counts from one read index agree exactly when their write indices do. -/
theorem ringCount_left_inj {w w' r : RingIdx} : ringCount w r = ringCount w' r ↔ w = w' := by
  unfold ringCount; rw [Fin.val_inj, sub_left_inj]

/-- The producer's view is exact exactly when domain A's copy of the read index is. -/
theorem State.occA_eq_occ_iff {s : State} {c : Chan} : s.occA c = s.occ c ↔ s.rptrSeen.get c = s.rptr.get c :=
  ringCount_right_inj

/-- The consumer's view is exact exactly when domain B's copy of the write index is. -/
theorem State.availB_eq_occ_iff {s : State} {c : Chan} : s.availB c = s.occ c ↔ s.wptrSeen.get c = s.wptr.get c :=
  ringCount_left_inj

/-! ### The bracket of the counts, through every word of a command (R175) -/

/-- Between two states the copies of a channel's indices stay, and the bracket of its counts is kept. -/
def RingsKept (c : Chan) (s t : State) : Prop :=
  t.wptrSeen.get c = s.wptrSeen.get c ∧ t.rptrSeen.get c = s.rptrSeen.get c ∧ (s.ringsOk c → t.ringsOk c)

section
variable {c d : Chan} {s t u : State}

theorem RingsKept.refl (c : Chan) (s : State) : RingsKept c s s := ⟨rfl, rfl, id⟩

theorem RingsKept.trans (h1 : RingsKept c s t) (h2 : RingsKept c t u) : RingsKept c s u :=
  ⟨h2.1.trans h1.1, h2.2.1.trans h1.2.1, h2.2.2 ∘ h1.2.2⟩

theorem ringsKept_setPort (c : Chan) (s : State) (p : Port) (q : PortState) : RingsKept c s (s.setPort p q) := by
  cases p <;> exact RingsKept.refl c s

/-- A push on `AF` finds room in the producer's view, so the true count and that view go up by one within the bracket. -/
theorem ringsKept_afPush {item : List W32} (h : s.afPush d item = some t) (c : Chan) : RingsKept c s t := by
  obtain ⟨hroom, rfl⟩ := State.afPush_some h
  refine ⟨rfl, rfl, fun ⟨havail, hocc, hcap, hm⟩ => ?_⟩
  by_cases hc : c = d
  · subst hc
    have hA := ringCount_add_one_left (w := s.wptr.get c) (r := s.rptrSeen.get c)
    have hO := ringCount_add_one_left (w := s.wptr.get c) (r := s.rptr.get c)
    simp only [State.ringsOk, State.availB, State.occ, State.occA, State.mocc, cap, PerChan.get_set_self] at *
    omega
  · simp only [State.ringsOk, State.availB, State.occ, State.occA, State.mocc, PerChan.get_set_ne _ hc] at *
    exact ⟨havail, hocc, hcap, hm⟩

/-- A pull on `AF` finds a block in the consumer's view, so the true count and that view go down by one within the bracket. -/
theorem ringsKept_afPull {item : List W32} (h : s.afPull d = some (item, t)) (c : Chan) : RingsKept c s t := by
  obtain ⟨hsome, -, rfl⟩ := State.afPull_some h
  refine ⟨rfl, rfl, fun ⟨havail, hocc, hcap, hm⟩ => ?_⟩
  by_cases hc : c = d
  · subst hc
    have hB := ringCount_add_one_right (w := s.wptrSeen.get c) (r := s.rptr.get c)
    have hO := ringCount_add_one_right (w := s.wptr.get c) (r := s.rptr.get c)
    simp only [State.ringsOk, State.availB, State.occ, State.occA, State.mocc, cap, PerChan.get_set_self] at *
    omega
  · simp only [State.ringsOk, State.availB, State.occ, State.occA, State.mocc, PerChan.get_set_ne _ hc] at *
    exact ⟨havail, hocc, hcap, hm⟩

/-- A push on `MF` finds the ring not full. -/
theorem ringsKept_mfPush {item : List W32} (h : s.mfPush d item = some t) (c : Chan) : RingsKept c s t := by
  obtain ⟨hroom, rfl⟩ := State.mfPush_some h
  refine ⟨rfl, rfl, fun ⟨havail, hocc, hcap, hm⟩ => ⟨havail, hocc, hcap, ?_⟩⟩
  by_cases hc : c = d
  · subst hc
    have hM := ringCount_add_one_left (w := s.mw.get c) (r := s.mr.get c)
    simp only [State.mocc, cap, PerChan.get_set_self] at *
    omega
  · simpa only [State.mocc, PerChan.get_set_ne _ hc] using hm

/-- A pull on `MF` finds the ring not empty. -/
theorem ringsKept_mfPull {item : List W32} (h : s.mfPull d = some (item, t)) (c : Chan) : RingsKept c s t := by
  obtain ⟨hsome, -, rfl⟩ := State.mfPull_some h
  refine ⟨rfl, rfl, fun ⟨havail, hocc, hcap, hm⟩ => ⟨havail, hocc, hcap, ?_⟩⟩
  by_cases hc : c = d
  · subst hc
    have hM := ringCount_add_one_right (w := s.mw.get c) (r := s.mr.get c)
    simp only [State.mocc, cap, PerChan.get_set_self] at *
    omega
  · simpa only [State.mocc, PerChan.get_set_ne _ hc] using hm

/-- A sample fed moves the cursor, and where it completes a block that finds room it pushes the block after that. -/
theorem State.feed_cases (s : State) (c : Chan) (w : W32) :
    (∃ f, (s.feed c w).2 = s.withSample c w f) ∨
      (s.withSample c w 0).afPush c (s.fullBlock c w) = some (s.feed c w).2 := by
  by_cases h : s.fill.get c + 1 < s.blkLen
  · rw [State.feed_partial w h]; exact .inl ⟨_, rfl⟩
  · by_cases hf : s.occA c = cap
    · rw [State.feed_dropped w h hf]; exact .inl ⟨_, rfl⟩
    · rw [State.feed_pushed w h hf, State.afPush, if_neg (show ¬ (s.withSample c w 0).occA c = cap from hf)]
      exact .inr rfl

theorem ringsKept_feed (c d : Chan) (w : W32) (s : State) : RingsKept c s (s.feed d w).2 := by
  have hsample (f : Nat) : RingsKept c s (s.withSample d w f) := RingsKept.refl c s
  obtain ⟨f, hf⟩ | hpush := s.feed_cases d w
  · rw [hf]; exact hsample f
  · exact (hsample 0).trans (ringsKept_afPush hpush c)

theorem ringsKept_operandOf (c : Chan) (i : Instr) (w : W32) (s : State) : RingsKept c s (operandOf i w s) := by
  cases i
  case bqProc ch n => exact RingsKept.trans (t := s.setSlots _ _) (RingsKept.refl c s) (ringsKept_setPort c _ _ _)
  case afPushs ch n => exact (ringsKept_feed c (chanOf ch) w s).trans (ringsKept_setPort c _ _ _)
  all_goals exact ringsKept_setPort c _ _ _

theorem ringsKept_csrWrite (c : Chan) (p : Port) (idx : BitVec 8) (w : W32) (s : State) :
    RingsKept c s (csrWrite p idx w s) := by
  unfold csrWrite; split <;> exact RingsKept.refl c s

theorem ringsKept_extract (c d : Chan) (blk : List W32) (s : State) : RingsKept c s (s.extract d blk) := by
  have hslide : RingsKept c s (s.slideIn d blk) := RingsKept.refl c s
  unfold State.extract
  simp only
  split
  · rename_i h; exact hslide.trans ((ringsKept_mfPush h c).trans (ringsKept_setPort c _ _ _))
  · exact hslide.trans (ringsKept_setPort c _ _ _)

theorem ringsKept_finishOf (c : Chan) (i : Instr) (s : State) : RingsKept c s (finishOf i s) := by
  cases i
  case wrcsr idx => exact (ringsKept_csrWrite c _ _ _ s).trans (ringsKept_setPort c _ _ _)
  case bqSetc | bqByp | bqCutupd =>
    exact RingsKept.trans (t := s.onSelected _ _) (RingsKept.refl c s) (ringsKept_setPort c _ _ _)
  case afPull ch =>
    simp only [finishOf, finishAfPull]; split
    · exact ringsKept_setPort c _ _ _
    · rename_i h; exact (ringsKept_afPull h c).trans (ringsKept_setPort c _ _ _)
  case mfPull ch =>
    simp only [finishOf, finishMfPull]; split
    · exact ringsKept_setPort c _ _ _
    · rename_i h; exact (ringsKept_mfPull h c).trans (ringsKept_setPort c _ _ _)
  case fgStep ch =>
    simp only [finishOf, finishFgStep]; split
    · exact ringsKept_setPort c _ _ _
    · rename_i h; exact (ringsKept_afPull h c).trans (ringsKept_extract c _ _ _)
  all_goals exact ringsKept_setPort c _ _ _

/-! ### The bracket through every step (R175) -/

/-- A step on the turn of the synchroniser that tells domain B of pushes. -/
theorem step_syncW {d : Chan} (h : s.nextTurn = .syncW d) : step s = .next (s.passTurn.syncW d) := by
  unfold step; rw [h]

/-- A step on the turn of the synchroniser that tells domain A of pulls. -/
theorem step_syncR {d : Chan} (h : s.nextTurn = .syncR d) : step s = .next (s.passTurn.syncR d) := by
  unfold step; rw [h]

/-- An operand word for a latched header that is no command stops the machine (log 15). -/
theorem step_corrupt {p : Port} {w : W32} {rest : List W32} {e : DecodeError} (hp : s.nextTurn = .port p)
    (hph : (s.port p).seq.phase = .opnd) (hin : (s.port p).input = w :: rest)
    (hd : decode (s.port p).seq.hdr = .rejected e) : step s = .fault .sequencerCorrupt := by
  have hin' : ({ s.passTurn with cur := p } : State).here.input = w :: rest := by rw [← hin]; cases p <;> rfl
  have hseq : ({ s.passTurn with cur := p } : State).seq = (s.port p).seq := by cases p <;> rfl
  simp only [step_port hp, State.portStep, hin', hseq, hph, hd]

/-- A relation that every update of the port, every operand word and every finish keeps holds across a port's step: the way
to a frame or an invariant of all of a port's steps. -/
theorem step_port_rel (R : State → State → Prop) (hrefl : ∀ s, R s s) (htrans : ∀ a b c, R a b → R b c → R a c)
    (hport : ∀ s q, R s (s.setPort s.cur q)) (hop : ∀ i w s, R s (operandOf i w s)) (hfin : ∀ i s, R s (finishOf i s))
    {s t : State} {p : Port} (hp : s.nextTurn = .port p) (h : step s = .next t) : R (s.turnOf p) t := by
  have hexec {i : Instr} (h : exec i (s.turnOf p) = .next t) : R (s.turnOf p) t :=
    exec_rel i R hrefl htrans hport (hop i) (hfin i) h
  cases hin : (s.port p).input with
  | nil => rw [step_idle hp hin] at h; cases h; exact hrefl _
  | cons w rest =>
    cases hph : (s.port p).seq.phase with
    | hdr =>
      cases hd : decode w with
      | command i => exact hexec (step_header ⟨hp, hph, hin⟩ hd ▸ h)
      | rejected e =>
        rw [step_rejected ⟨hp, hph, hin⟩ hd] at h; cases h
        unfold State.rejectWord
        rw [State.refuse_eq]
        exact htrans _ _ _ (hport _ _) (hport _ _)
    | opnd =>
      cases hd : decode (s.port p).seq.hdr with
      | command i => exact hexec (step_operand hp hph hin hd ▸ h)
      | rejected e => rw [step_corrupt hp hph hin hd] at h; cases h

theorem ringsKept_step_port {p : Port} (hp : s.nextTurn = .port p) (h : step s = .next t) (c : Chan) : RingsKept c s t :=
  step_port_rel (RingsKept c) (RingsKept.refl c) (fun _ _ _ => RingsKept.trans) (fun s q => ringsKept_setPort c s s.cur q)
    (ringsKept_operandOf c) (ringsKept_finishOf c) hp h

/-- A copy that agrees with its original on a channel still does when any channel is copied across. -/
theorem PerChan.get_set_of_eq {α : Type} {v w : PerChan α} (h : v.get c = w.get c) (d : Chan) :
    (v.set d (w.get d)).get c = w.get c := by
  rw [PerChan.get_set]; split
  · rename_i hc; rw [hc]
  · exact h

/-- Domain B learning of pushes keeps the bracket: its view becomes the true count, or stays where it is another channel. -/
theorem State.ringsOk_syncW (h : s.ringsOk c) (d : Chan) : (s.syncW d).ringsOk c := by
  obtain ⟨havail, hocc, hcap, hm⟩ := h
  by_cases hc : c = d
  · subst hc
    have hexact : (s.syncW c).availB c = s.occ c := State.availB_eq_occ_iff.mpr (PerChan.get_set_self _ _ _)
    exact ⟨hexact.le, hocc, hcap, hm⟩
  · have hsame : (s.syncW d).availB c = s.availB c := by
      simp only [State.availB, State.rptr_syncW, State.wptrSeen_syncW, PerChan.get_set_ne _ hc]
    exact ⟨hsame ▸ havail, hocc, hcap, hm⟩

/-- Domain A learning of pulls keeps the bracket: its view becomes the true count, or stays where it is another channel. -/
theorem State.ringsOk_syncR (h : s.ringsOk c) (d : Chan) : (s.syncR d).ringsOk c := by
  obtain ⟨havail, hocc, hcap, hm⟩ := h
  by_cases hc : c = d
  · subst hc
    have hexact : (s.syncR c).occA c = s.occ c := State.occA_eq_occ_iff.mpr (PerChan.get_set_self _ _ _)
    exact ⟨havail, hexact.ge, hexact.le.trans (hocc.trans hcap), hm⟩
  · have hsame : (s.syncR d).occA c = s.occA c := by
      simp only [State.occA, State.wptr_syncR, State.rptrSeen_syncR, PerChan.get_set_ne _ hc]
    exact ⟨havail, hsame ▸ hocc, hsame ▸ hcap, hm⟩

/-- After a reset every ring is empty in every view. -/
theorem State.ringsOk_resetWith (s : State) (strap : BitVec 16) (c : Chan) : (s.resetWith strap).ringsOk c := by
  simp [State.ringsOk, State.availB, State.occ, State.occA, State.mocc, ringCount]

end

/-- Settles O55: ports keep the copies and the bracket, a synchroniser makes its copy exact, and a reset empties the rings; a
view is exact exactly when its copy is. -/
theorem ringCountsStayOk : Obligations.RingCountsStayOk := by
  unfold Obligations.RingCountsStayOk
  intro s t c hs h
  simp only [State.occA_eq_occ_iff, State.availB_eq_occ_iff]
  cases hturn : s.nextTurn with
  | port p =>
    obtain ⟨hw, hr, hkeep⟩ := ringsKept_step_port hturn h c
    exact ⟨hkeep hs, nofun, nofun, fun he hsame => by rw [hr, he, hsame], fun he hsame => by rw [hw, he, hsame]⟩
  | syncW d =>
    rw [step_syncW hturn] at h; cases h
    refine ⟨State.ringsOk_syncW (s := s.passTurn) hs d, nofun, ?consumer, fun he _ => he,
      fun he _ => PerChan.get_set_of_eq he d⟩
    rintro ⟨⟩; exact PerChan.get_set_self _ _ _
  | syncR d =>
    rw [step_syncR hturn] at h; cases h
    refine ⟨State.ringsOk_syncR (s := s.passTurn) hs d, ?producer, nofun, fun he _ => PerChan.get_set_of_eq he d,
      fun he _ => he⟩
    rintro ⟨⟩; exact PerChan.get_set_self _ _ _
  | reset strap =>
    rw [step_reset hturn] at h; cases h
    exact ⟨State.ringsOk_resetWith _ _ _, nofun, nofun, by simp, by simp⟩

/-! ### One sample of `AF.PUSHS` (R176, R177) -/

@[simp] theorem State.blkLen_setPort (s : State) (p : Port) (q : PortState) : (s.setPort p q).blkLen = s.blkLen := by
  cases p <;> rfl
@[simp] theorem State.occA_setPort (s : State) (p : Port) (q : PortState) (c : Chan) : (s.setPort p q).occA c = s.occA c := by
  cases p <;> rfl

/-- The counters and streams of a port play no part in what a sample fed does. -/
theorem State.feed_setPort (s : State) (p : Port) (q : PortState) (c : Chan) (w : W32) :
    (s.setPort p q).feed c w = ((s.feed c w).1, (s.feed c w).2.setPort p q) := by
  by_cases h : s.fill.get c + 1 < s.blkLen
  · rw [State.feed_partial w h, State.feed_partial w (by simpa using h)]; cases p <;> rfl
  · by_cases hf : s.occA c = cap
    · rw [State.feed_dropped w h hf, State.feed_dropped w (by simpa using h) (by simpa using hf)]; cases p <;> rfl
    · rw [State.feed_pushed w h hf, State.feed_pushed w (by simpa using h) (by simpa using hf)]; cases p <;> rfl

@[simp] theorem State.cur_feed (s : State) (c : Chan) (w : W32) : (s.feed c w).2.cur = s.cur := by
  obtain ⟨acc, fill, afmem, wptr, h⟩ := s.feed_frame c w
  rw [h]

/-- A port that has taken an operand word of `AF.PUSHS` with `k` still to come and counted what `feed` returned. -/
def PortState.counted (q : PortState) (rest : List W32) (k : Nat) (r : Fed) : PortState :=
  { q with input := rest, seq := { q.seq.count r with left := k } }

/-- An operand word of `AF.PUSHS` taken, fed and counted. -/
theorem pushSample_countDown {s : State} {k : Nat} {ws rest : List W32} {w : W32} (h : s.AtOperand k ws w rest)
    (ch : BitVec 4) :
    (pushSample ch w s.takeWord).countDown =
      (s.feed (chanOf ch) w).2.setPort s.cur (s.here.counted rest k (s.feed (chanOf ch) w).1) := by
  obtain ⟨-, hleft, -, hin⟩ := h
  rw [State.seq_eq] at hleft
  have hcur := s.cur_feed (chanOf ch) w
  have hfeed : s.takeWord.feed (chanOf ch) w =
      ((s.feed (chanOf ch) w).1, (s.feed (chanOf ch) w).2.setPort s.cur { s.here with input := rest }) := by
    rw [State.takeWord_eq, State.feed_setPort, hin, List.tail_cons]
  unfold pushSample
  rw [hfeed, ← hcur]
  obtain ⟨fed, t⟩ := s.feed (chanOf ch) w
  cases fed <;> simp [PortState.counted, Seq.count, hleft]

/-- While operands are to come, a port that has counted a sample is as `PortState.afterSample` says. -/
theorem PortState.counted_more {q : PortState} {k : Nat} (hph : q.seq.phase = .opnd) (hk : k ≠ 0) (rest : List W32)
    (r : Fed) (n : BitVec 16) :
    q.counted rest k r = q.afterSample rest k (q.seq.count r).pushed (q.seq.count r).dropped n := by
  unfold PortState.counted PortState.afterSample
  cases r <;> simp [hk, Seq.count, hph]

/-- After the last operand the response leaves the port as `PortState.afterSample` says. -/
theorem finishPushs_counted (s : State) (q : PortState) (rest : List W32) (r : Fed) (n : BitVec 16) :
    (finishPushs n (s.setPort s.cur (q.counted rest 0 r))).setPhase .hdr =
      s.setPort s.cur (q.afterSample rest 0 (q.seq.count r).pushed (q.seq.count r).dropped n) := by
  unfold finishPushs
  rw [State.respondOk_eq, State.respond_eq, respHeader_ok_imm]
  cases r <;> simp [PortState.counted, PortState.afterSample, Seq.count, pushReport]

/-- `AF.PUSHS` word by word (R177). -/
theorem exec_afPushs (ch : BitVec 4) (n : BitVec 16) (s : State) :
    exec (.afPushs ch n) s = runWord (.afPushs ch n) noLateCheck startPushs (pushSample ch) (finishPushs n) s := rfl

/-- An operand word of `AF.PUSHS`: fed and counted, and after the last one the response. -/
theorem exec_afPushs_operand {s : State} {k : Nat} {ws rest : List W32} {w : W32} (h : s.AtOperand k ws w rest)
    (ch : BitVec 4) (n : BitVec 16) :
    exec (.afPushs ch n) s = .next ((s.feed (chanOf ch) w).2.setPort s.cur
      (s.here.afterSample rest k (s.here.seq.count (s.feed (chanOf ch) w).1).pushed
        (s.here.seq.count (s.feed (chanOf ch) w).1).dropped n)) := by
  have hsample := pushSample_countDown h ch
  obtain ⟨hph, -, -, hin⟩ := h
  rw [← s.cur_feed (chanOf ch) w] at hsample ⊢
  have hleft : (pushSample ch w s.takeWord).countDown.seq.left = k := by
    rw [hsample, State.seq_eq, State.here_setPort]; rfl
  by_cases hk : k = 0
  · subst hk
    rw [exec_afPushs, runWord_last hin hph hleft, hsample, finishPushs_counted]
  · rw [exec_afPushs, runWord_operand hin hph (hleft ▸ hk), hsample, PortState.counted_more hph hk]

/-- Settles O33: a sample fed does one of three things, and the port follows what it did. -/
theorem pushsTakesSample : Obligations.PushsTakesSample := by
  unfold Obligations.PushsTakesSample
  intro s ch n k ws w rest c hch hcur h
  have hexec := exec_afPushs_operand h ch n
  have hhere : s.here = s.portA := by rw [State.here, hcur, State.port_a]
  rw [chanOf_index hch, hcur, hhere] at hexec
  refine ⟨fun hpart => ?more, fun hfull hroom => ?pushed, fun hfull hocc => ?dropped⟩
  case more => rw [hexec, State.feed_partial w hpart]; rfl
  case pushed => rw [hexec, State.feed_pushed w hfull.not_gt hroom]; rfl
  case dropped => rw [hexec, State.feed_dropped w hfull.not_gt hocc]; rfl

/-! ### The Gray code (R171) -/

/-- The second formula of R171 undoes the first. -/
theorem ungray_gray (q : RingIdx) : ungray (gray q) = q.val := by revert q; decide

/-- An increment of an index, the wrap included, changes exactly one bit of its code. -/
theorem gray_add_one (q : RingIdx) : ∃ b : Fin 6, gray q ^^^ gray (q + 1) = (1 : BitVec 6) <<< b.val := by
  revert q; decide

/-- The codes of 0, 1, 62 and 63, which `q + 2` never is, do not occur. -/
theorem gray_unused (q : RingIdx) :
    gray q ≠ 0b000000 ∧ gray q ≠ 0b000001 ∧ gray q ≠ 0b100001 ∧ gray q ≠ 0b100000 := by
  revert q; decide

/-- Settles O42, over the sixty indices; the listed values are computed. -/
theorem grayCode : Obligations.GrayCode := by
  unfold Obligations.GrayCode
  exact ⟨fun q => ⟨rfl, ungray_gray q, gray_add_one q, gray_unused q⟩, by decide⟩

end Sys2Proof.Machine
end

section
/-! The transform of the FFT magnitude extractor: bit reversal and the permutation (43_fft_magnitude.md R213), and the stages of
butterflies (R215, R216). -/

namespace Sys2Proof.Machine

/-! ### Bit reversal (R213) -/

theorem bitrev_succ (p i : Nat) : bitrev (p + 1) i = 2 ^ p * (i % 2) + bitrev p (i / 2) := by
  rw [bitrev, Nat.mul_comm]

/-- A reversed number has no more bits than were reversed, whatever the number. -/
theorem bitrev_lt (p i : Nat) : bitrev p i < 2 ^ p := by
  induction p generalizing i with
  | zero => exact Nat.one_pos
  | succ p ih =>
    have hrest := ih (i / 2)
    have hbit : i % 2 = 0 ∨ i % 2 = 1 := Nat.mod_two_eq_zero_or_one i
    rw [bitrev_succ, pow_succ]
    rcases hbit with h | h <;> rw [h] <;> omega

/-- The bits of a reversed number: the lowest bit comes on top of the others reversed. -/
theorem testBit_bitrev {p j : Nat} (hj : j < p) (i : Nat) : (bitrev p i).testBit j = i.testBit (p - 1 - j) := by
  induction p generalizing i with
  | zero => omega
  | succ p ih =>
    rw [bitrev_succ, Nat.testBit_two_pow_mul_add _ (bitrev_lt p _)]
    by_cases h : j < p
    · have hshift : p + 1 - 1 - j = p - 1 - j + 1 := by omega
      rw [if_pos h, ih h, Nat.testBit_div_two, hshift]
    · obtain rfl : j = p := by omega
      rw [if_neg h, Nat.sub_self, Nat.add_sub_cancel, Nat.sub_self, Nat.testBit_zero, Nat.testBit_zero, Nat.mod_mod]

/-- Numbers of `p` bits are equal when these bits are. -/
theorem eq_of_testBit_eq_of_lt {p a b : Nat} (ha : a < 2 ^ p) (hb : b < 2 ^ p)
    (h : ∀ j, j < p → a.testBit j = b.testBit j) : a = b := by
  refine Nat.eq_of_testBit_eq fun j => ?_
  by_cases hj : j < p
  · exact h j hj
  · have hpow : 2 ^ p ≤ 2 ^ j := Nat.pow_le_pow_right Nat.two_pos (by omega)
    rw [Nat.testBit_lt_two_pow (ha.trans_le hpow), Nat.testBit_lt_two_pow (hb.trans_le hpow)]

/-- Bit reversal is its own inverse: the place of a bit counted from the other end, twice, is its place. -/
theorem bitrev_bitrev {p i : Nat} (h : i < 2 ^ p) : bitrev p (bitrev p i) = i :=
  eq_of_testBit_eq_of_lt (bitrev_lt p _) h fun j hj => by
    have hplace : p - 1 - (p - 1 - j) = j := by omega
    rw [testBit_bitrev hj, testBit_bitrev (by omega), hplace]

/-! ### Lists written entry by entry -/

/-- An entry of a list that a function of the index makes. -/
theorem getD_map_range {α : Type} (f : Nat → α) {n i : Nat} (h : i < n) (d : α) :
    ((List.range n).map f).getD i d = f i := by
  simp [h]

theorem permute_getD (p : Nat) (work : List Cplx) {i : Nat} (h : i < 2 ^ p) :
    (permute p work).getD i Cplx.zero = work.getD (bitrev p i) Cplx.zero :=
  getD_map_range _ h _

theorem stage_getD (p st : Nat) (work : List Cplx) {i : Nat} (h : i < 2 ^ p) :
    (stage p st work).getD i Cplx.zero = stageEntry p st work i :=
  getD_map_range _ h _

@[simp] theorem length_permute (p : Nat) (work : List Cplx) : (permute p work).length = 2 ^ p := by simp [permute]
@[simp] theorem length_stage (p st : Nat) (work : List Cplx) : (stage p st work).length = 2 ^ p := by simp [stage]

/-- Settles O44: the bits of a reversed number give the involution, and the permutation is written entry by entry. -/
theorem bitReversal : Obligations.BitReversal := by
  unfold Obligations.BitReversal
  refine ⟨fun p i hi => ⟨bitrev_lt p i, bitrev_bitrev hi, fun j hj => testBit_bitrev hj i⟩,
    fun p i work _ hi => permute_getD p work hi, ?_⟩
  decide

/-! ### Stages of butterflies (R215, R216) -/

/-- The transform with its stages numbered `1 .. P`. -/
theorem fft_eq_foldl_stages (p : Nat) (work : List Cplx) :
    fft p work = (List.range' 1 p).foldl (fun w st => stage p st w) (permute p work) := by
  rw [List.range'_eq_map_range, List.foldl_map]
  simp only [Nat.add_comm 1]
  rfl

/-- Stages keep the number of entries. -/
theorem length_foldl_stages (p : Nat) (sts : List Nat) {work : List Cplx} (h : work.length = 2 ^ p) :
    (sts.foldl (fun w st => stage p st w) work).length = 2 ^ p := by
  induction sts generalizing work with
  | nil => exact h
  | cons st sts ih => exact ih (length_stage p st work)

@[simp] theorem length_fft (p : Nat) (work : List Cplx) : (fft p work).length = 2 ^ p := by
  rw [fft_eq_foldl_stages]; exact length_foldl_stages p _ (length_permute p work)

/-- Below a multiple of `m` there is room for the multiple of `m` before it and all that follows up to the next. -/
theorem add_lt_of_dvd {m k n b : Nat} (hk : m ∣ k) (hn : m ∣ n) (hkn : k < n) (hb : b < m) : k + b < n := by
  obtain ⟨q, rfl⟩ := hk
  obtain ⟨r, rfl⟩ := hn
  have hqr : q + 1 ≤ r := Nat.lt_of_mul_lt_mul_left hkn
  calc m * q + b < m * (q + 1) := by rw [Nat.mul_succ]; omega
    _ ≤ m * r := Nat.mul_le_mul_left m hqr

section
variable {p st k j : Nat} (work : List Cplx)

/-- In the first half of a group of `2^st` entries stands the upper output of the butterfly with the entry half a group on. -/
theorem stageEntry_upper (hk : k % 2 ^ st = 0) (hm : 2 ^ st = 2 * 2 ^ (st - 1)) (hj : j < 2 ^ (st - 1)) :
    stageEntry p st work (k + j) =
      butterflyUpper (twiddle p (j * (2 ^ p / 2 ^ st))) (work.getD (k + j) Cplx.zero)
        (work.getD (k + j + 2 ^ (st - 1)) Cplx.zero) := by
  have hmod : (k + j) % 2 ^ st = j := by rw [Nat.add_mod, hk, Nat.zero_add, Nat.mod_mod, Nat.mod_eq_of_lt (by omega)]
  simp only [stageEntry, hmod, if_pos hj]

/-- In the second half stands the lower output of the butterfly with the entry half a group before. -/
theorem stageEntry_lower (hk : k % 2 ^ st = 0) (hm : 2 ^ st = 2 * 2 ^ (st - 1)) (hj : j < 2 ^ (st - 1)) :
    stageEntry p st work (k + j + 2 ^ (st - 1)) =
      butterflyLower (twiddle p (j * (2 ^ p / 2 ^ st))) (work.getD (k + j) Cplx.zero)
        (work.getD (k + j + 2 ^ (st - 1)) Cplx.zero) := by
  have hmod : (k + j + 2 ^ (st - 1)) % 2 ^ st = j + 2 ^ (st - 1) := by
    rw [Nat.add_assoc, Nat.add_mod, hk, Nat.zero_add, Nat.mod_mod, Nat.mod_eq_of_lt (by omega)]
  simp only [stageEntry, hmod, if_neg (Nat.not_lt.mpr (Nat.le_add_left _ j)), Nat.add_sub_cancel]

end

/-- Settles O46: the two entries of a pair lie in one group of `2^st` entries, which lies among the `2^P` of the buffer. -/
theorem stagesAreButterflies : Obligations.StagesAreButterflies := by
  unfold Obligations.StagesAreButterflies
  refine ⟨fft_eq_foldl_stages, fun p st k j work hst hstp _ hk hkp hj => ?_⟩
  have hm : 2 ^ st = 2 * 2 ^ (st - 1) := by rw [← pow_succ', Nat.sub_add_cancel hst]
  have inBuffer {b : Nat} (hb : b < 2 ^ st) : k + b < 2 ^ p :=
    add_lt_of_dvd (Nat.dvd_of_mod_eq_zero hk) (Nat.pow_dvd_pow 2 hstp) hkp hb
  have hupper : k + j < 2 ^ p := inBuffer (by omega)
  have hlower : k + j + 2 ^ (st - 1) < 2 ^ p := Nat.add_assoc k j _ ▸ inBuffer (by omega)
  refine ⟨length_stage p st work, ?upper, ?lower⟩
  case upper => rw [stage_getD p st work hupper, stageEntry_upper work hk hm hj]; rfl
  case lower => rw [stage_getD p st work hlower, stageEntry_lower work hk hm hj]; rfl

end Sys2Proof.Machine
end

section
/-! The magnitude extractor's command: sliding a block in (43_fft_magnitude.md R211), the magnitude vector (R212, R217) and
FG.STEP (R219). -/

namespace Sys2Proof.Machine

/-! ### Sliding a block in (R211) -/

/-- The words of a run written, one by one. -/
theorem Memory.read_writeN {m : Memory} (h : m.wf = true) (a : Nat) (vs : List W32) {i : Nat} (hi : i < vs.length) :
    (m.writeN a vs).read (a + i) = vs.getD i 0 := by
  rw [← Memory.getD_readN _ _ _ _ hi, Memory.readN_writeN_self h]

/-- With valid parameters a block length that passes the strap check fits the sliding buffer (00_scope.md R7). -/
theorem State.blkLen_le_n {s : State} (hv : s.inst.valid = true) (hs : s.strapOk = true) : s.blkLen ≤ s.inst.n := by
  have hmax : s.inst.blkMax ≤ s.inst.n := by
    simp only [Params.valid, Bool.and_eq_true, decide_eq_true_eq] at hv
    obtain ⟨⟨⟨⟨⟨⟨-, hmax⟩, -⟩, -⟩, -⟩, -⟩, -⟩ := hv
    exact hmax
  have hlen : s.blkLen ≤ s.inst.blkMax := by
    simp only [State.strapOk, Bool.and_eq_true, decide_eq_true_eq] at hs; exact hs.2
  exact hlen.trans hmax

/-- The words of a sliding buffer after a block is slid in: all but the oldest, then the block. -/
def State.slideWords (s : State) (c : Chan) (blk : List W32) : List W32 := (s.slideBuf c).drop s.blkLen ++ blk

@[simp] theorem State.length_slideBuf (s : State) (c : Chan) : (s.slideBuf c).length = s.inst.n := Memory.length_readN _ _ _

theorem State.slideBuf_getD (s : State) (c : Chan) {i : Nat} (h : i < s.inst.n) :
    (s.slideBuf c).getD i 0 = s.slide.read (slideAddr s.inst c i) :=
  Memory.getD_readN _ _ _ _ h

section
variable {s : State} {c : Chan} {blk : List W32}

theorem State.length_slideWords (hn : s.blkLen ≤ s.inst.n) (hb : blk.length = s.blkLen) :
    (s.slideWords c blk).length = s.inst.n := by
  rw [slideWords, List.length_append, List.length_drop, State.length_slideBuf, hb, Nat.sub_add_cancel hn]

/-- The words before the block are those the buffer held a block length on. -/
theorem State.slideWords_getD_kept {j : Nat} (h : j + s.blkLen < s.inst.n) :
    (s.slideWords c blk).getD j 0 = s.slide.read (slideAddr s.inst c (j + s.blkLen)) := by
  have hj : j < ((s.slideBuf c).drop s.blkLen).length := by rw [List.length_drop, State.length_slideBuf]; omega
  rw [slideWords, List.getD_append _ _ _ _ hj, ← State.slideBuf_getD s c h]
  simp [Nat.add_comm]

/-- The words at the tail are those of the block. -/
theorem State.slideWords_getD_tail (j : Nat) :
    (s.slideWords c blk).getD (s.inst.n - s.blkLen + j) 0 = blk.getD j 0 := by
  have hlen : ((s.slideBuf c).drop s.blkLen).length = s.inst.n - s.blkLen := by
    rw [List.length_drop, State.length_slideBuf]
  rw [slideWords, List.getD_append_right _ _ _ _ (by omega), hlen, Nat.add_sub_cancel_left]

/-- An entry of the channel's buffer after a block is slid in. -/
theorem State.slideIn_read (hw : s.slide.wf = true) (hn : s.blkLen ≤ s.inst.n) (hb : blk.length = s.blkLen) {i : Nat}
    (hi : i < s.inst.n) : (s.slideIn c blk).slide.read (slideAddr s.inst c i) = (s.slideWords c blk).getD i 0 :=
  Memory.read_writeN hw _ _ (hi.trans_eq (State.length_slideWords hn hb).symm)

end

/-- The buffers of the two channels do not overlap (20_memory.md R60). -/
theorem slideAddr_outside (inst : Params) {c d : Chan} (h : d ≠ c) {j : Nat} (hj : j < inst.n) :
    slideAddr inst d j < slideAddr inst c 0 ∨ slideAddr inst c 0 + inst.n ≤ slideAddr inst d j := by
  cases c <;> cases d
  case left.left | right.right => exact absurd rfl h
  all_goals simp only [slideAddr, Chan.index]; omega

/-- Settles O43: the words written are all but the oldest and then the block, and they fill the channel's buffer. -/
theorem slideShiftsAndAppends : Obligations.SlideShiftsAndAppends := by
  unfold Obligations.SlideShiftsAndAppends
  intro s c blk hv hs hw hb
  have hn : s.blkLen ≤ s.inst.n := State.blkLen_le_n hv hs
  refine ⟨rfl, fun j hj => ?kept, fun j hj => ?tail, fun d j hd hj => ?other⟩
  case kept => rw [State.slideIn_read hw hn hb (by omega), State.slideWords_getD_kept hj]
  case tail => rw [State.slideIn_read hw hn hb (by omega), State.slideWords_getD_tail]
  case other =>
    refine Memory.read_writeN_outside _ _ _ ?_
    rw [← State.slideWords, State.length_slideWords hn hb]
    exact slideAddr_outside s.inst hd hj

/-! ### A command without operands, from its header to its response -/

/-- A header that passes its checks, of a command without operands and without a header-time effect: the command finishes in
the state whose port has latched the header. -/
theorem exec_header_finish {i : Instr} {s : State} {w : W32} {rest : List W32} (h : s.AtHeader w rest)
    (he : headerCheck i (lateOf i) s = none) (hn : i.nopnd = 0) (hst : startOf i = noStart) :
    exec i s = .next (finishOf i (s.setPort s.cur (s.here.afterHeader w rest []))) := by
  obtain ⟨hph, hin⟩ := h
  have hlatched : noStart (s.takeWord.latch w 0) = s.setPort s.cur (s.here.afterHeader w rest []) := by
    simp [noStart, PortState.afterHeader, hin]
  rw [exec_eq, runWord_finish hin hph he hn, hst, hlatched]

/-- A response puts its words behind those the port has answered. -/
theorem State.respond_afterHeader (s : State) (q : PortState) (w : W32) (rest : List W32) (k : Kind) (code : BitVec 4)
    (aux : BitVec 16) (data : List W32) :
    (s.setPort s.cur (q.afterHeader w rest [])).respond k code aux data =
      s.setPort s.cur (q.afterHeader w rest (respHeader k code aux :: data)) := by
  simp [PortState.afterHeader]

/-! ### The magnitude vector (R212, R217) -/

/-- The first entries of a list, one by one. -/
theorem take_eq_map_getD {α : Type} {l : List α} {n : Nat} (h : n ≤ l.length) (d : α) :
    l.take n = (List.range n).map fun k => l.getD k d := by
  refine List.ext_getElem (by simpa using h) fun k hk _ => ?_
  have hk' : k < l.length := by simp at hk; omega
  simp [hk']

/-- The vector, bin by bin: the transform has more entries than there are bins. -/
theorem magVector_eq_map (inst : Params) (floor : W32) (samples : List W32) :
    magVector inst floor samples = (List.range inst.nbins).map fun k =>
      toDb inst.magScale floor (magnitude ((fft inst.p (windowed inst.win samples)).getD k Cplx.zero)) := by
  have hlen : inst.nbins ≤ (fft inst.p (windowed inst.win samples)).length := by
    rw [length_fft]; exact Nat.div_le_self _ _
  rw [magVector, take_eq_map_getD hlen Cplx.zero, List.map_map]
  rfl

/-! ### `FG.STEP` (R219) -/

/-- The state in which the next block of a channel is consumed and slid in. -/
def State.fgSlid (s : State) (c : Chan) : State :=
  { s with rptr := s.rptr.set c (s.rptr.get c + 1) }.slideIn c (s.afHead c)

/-- The magnitude vector of a channel's sliding buffer. -/
def State.fgVector (s : State) (c : Chan) : List W32 := magVector s.inst s.floor (s.slideBuf c)

/-- The state in which that vector is stored in the channel's magnitude ring. -/
def State.withVector (s : State) (c : Chan) : State :=
  { s with
    mfmem := s.mfmem.writeN (mfAddr s.inst c (ringSlot (s.mw.get c))) (s.fgVector c)
    mw := s.mw.set c (s.mw.get c + 1) }

theorem State.fgSlid_setPort (s : State) (p : Port) (q : PortState) (c : Chan) :
    (s.setPort p q).fgSlid c = (s.fgSlid c).setPort p q := by cases p <;> rfl
theorem State.withVector_setPort (s : State) (p : Port) (q : PortState) (c : Chan) :
    (s.setPort p q).withVector c = (s.withVector c).setPort p q := by cases p <;> rfl
@[simp] theorem State.availB_setPort (s : State) (p : Port) (q : PortState) (c : Chan) :
    (s.setPort p q).availB c = s.availB c := by cases p <;> rfl
@[simp] theorem State.mocc_setPort (s : State) (p : Port) (q : PortState) (c : Chan) :
    (s.setPort p q).mocc c = s.mocc c := by cases p <;> rfl

/-- A block pulled is slid in, and the vector of the window goes to the magnitude ring unless that is full. -/
theorem State.extract_eq (s : State) (c : Chan) (blk : List W32) :
    s.extract c blk =
      if s.mocc c = 30 then (s.slideIn c blk).respondOk 0 [] else ((s.slideIn c blk).withVector c).respondOk 1 [] := by
  by_cases h : s.mocc c = 30
  · have hpush (v : List W32) : (s.slideIn c blk).mfPush c v = none := if_pos h
    simp only [State.extract, hpush, if_pos h]
  · have hpush (v : List W32) : (s.slideIn c blk).mfPush c v = some _ := if_neg h
    simp only [State.extract, hpush, if_neg h]
    rfl

section
variable {s : State} {ch : BitVec 4} {c : Chan}

/-- No block ready. -/
theorem finishFgStep_empty (hc : chanOf ch = c) (h : s.availB c = 0) : finishFgStep ch s = s.respondEmpty := by
  rw [finishFgStep, hc, State.afPull_none.mpr h]

/-- A block ready: it is consumed and slid in, and the vector goes to the magnitude ring or is dropped. -/
theorem finishFgStep_ready (hc : chanOf ch = c) (h : s.availB c ≠ 0) :
    finishFgStep ch s =
      if s.mocc c = 30 then (s.fgSlid c).respondOk 0 [] else ((s.fgSlid c).withVector c).respondOk 1 [] := by
  have hpull : s.afPull c = some (s.afHead c, { s with rptr := s.rptr.set c (s.rptr.get c + 1) }) := if_neg h
  rw [finishFgStep, hc, hpull]
  exact State.extract_eq _ c _

end

/-- The header of `FG.STEP`: the command finishes in the state whose port has latched it. -/
theorem exec_fgStep {s : State} {ch : BitVec 4} {c : Chan} {w : W32} {rest : List W32} (hch : ch.toNat = c.index)
    (hcur : s.cur = .b) (hs : s.strapOk = true) (h : s.AtHeader w rest) :
    exec (.fgStep ch) s = .next (finishFgStep ch (s.setPort .b (s.portB.afterHeader w rest []))) := by
  have hport : (Instr.fgStep ch).opcode.onPort s.cur = true := by rw [hcur]; rfl
  have hhere : s.here = s.portB := by rw [State.here, hcur, State.port_b]
  have hpass : headerCheck (.fgStep ch) (lateOf (.fgStep ch)) s = none :=
    headerCheck_none hs hport (legalCh_index hch) rfl
  rw [exec_header_finish h hpass rfl rfl, hcur, hhere, finishOf]

/-- A response word of port B at its turn, behind those it has answered. -/
theorem State.respond_portB (t : State) (hcur : t.cur = .b) (q : PortState) (w : W32) (rest : List W32) (k : Kind)
    (code : BitVec 4) (aux : BitVec 16) :
    (t.setPort .b (q.afterHeader w rest [])).respond k code aux [] =
      t.setPort .b (q.afterHeader w rest [respHeader k code aux]) := by
  have h := t.respond_afterHeader q w rest k code aux []
  rwa [hcur] at h

/-- The response `OK` with `AUX = n` of port B at its turn. -/
theorem State.respondOk_portB (t : State) (hcur : t.cur = .b) (q : PortState) (w : W32) (rest : List W32) {n : Nat}
    (hn : n < 2 ^ 16) :
    (t.setPort .b (q.afterHeader w rest [])).respondOk n [] = t.setPort .b (q.afterHeader w rest [BitVec.ofNat 32 n]) := by
  rw [State.respondOk_eq, State.respond_portB t hcur, respHeader_ok hn]

/-- Settles O38: the port's change commutes with the two updates of the extractor, whose fields are those of R219. -/
theorem fgStepExtracts : Obligations.FgStepExtracts := by
  unfold Obligations.FgStepExtracts
  intro s ch c w rest hch hcur hs h blk slide' work vec
  have hc : chanOf ch = c := chanOf_index hch
  have hvec : (s.fgSlid c).fgVector c = vec := magVector_eq_map _ _ _
  have hready (ha : s.availB c ≠ 0) := finishFgStep_ready (s := s.setPort .b (s.portB.afterHeader w rest [])) hc
    (by rwa [State.availB_setPort])
  rw [exec_fgStep hch hcur hs h]
  refine ⟨fun ha => ?empty, fun ha hroom => ?pushed, fun ha hfull => ?dropped⟩
  case empty =>
    rw [finishFgStep_empty hc (by rwa [State.availB_setPort]), State.respondEmpty_eq, s.respond_portB hcur,
      respHeader_empty]
    rfl
  case pushed =>
    rw [hready ha, State.mocc_setPort, if_neg hroom, State.fgSlid_setPort, State.withVector_setPort,
      ((s.fgSlid c).withVector c).respondOk_portB hcur _ _ _ (Nat.one_lt_two_pow (by decide)), State.withVector, hvec]
    rfl
  case dropped =>
    rw [hready ha, State.mocc_setPort, if_pos hfull, State.fgSlid_setPort,
      (s.fgSlid c).respondOk_portB hcur _ _ _ (Nat.two_pow_pos 16)]
    rfl

end Sys2Proof.Machine
end

section
/-! The decibel conversion (43_fft_magnitude.md R218), over what its comparison and its product do (00_scope.md R8): the classes
of words by their magnitude bits, the comparison, and the sign of a product and of a root. -/

namespace Sys2Proof.Machine

open Binary32

/-! ### Words by their magnitude bits -/

namespace Binary32

theorem magBits_lt (a : W32) : magBits a < 2 ^ 31 := BitVec.isLt _

/-- A word is finite when its magnitude bits are below those of an infinity. -/
theorem isFinite_iff {a : W32} : isFinite a = true ↔ magBits a < infBits := by
  have h := magBits_lt a
  simp only [isFinite, expField, infBits, bne_iff_ne, ne_eq]
  omega

/-- A word is a NaN when its magnitude bits are above those of an infinity. -/
theorem isNaN_iff {a : W32} : isNaN a = true ↔ infBits < magBits a := by
  have h := magBits_lt a
  simp only [isNaN, expField, fracField, infBits, bne_iff_ne, ne_eq, Bool.and_eq_true, beq_iff_eq]
  omega

theorem isInf_iff {a : W32} : isInf a = true ↔ magBits a = infBits := by
  have h := magBits_lt a
  simp only [isInf, expField, fracField, infBits, Bool.and_eq_true, beq_iff_eq]
  omega

theorem isNaN_eq_false_iff {a : W32} : isNaN a = false ↔ magBits a ≤ infBits := by
  rw [← Bool.not_eq_true, isNaN_iff, Nat.not_lt]

theorem isFinite_eq_false_iff {a : W32} : isFinite a = false ↔ infBits ≤ magBits a := by
  rw [← Bool.not_eq_true, isFinite_iff, Nat.not_lt]

/-- Only a zero has no magnitude. -/
theorem units_eq_zero_iff {a : W32} : units a = 0 ↔ magBits a = 0 := by
  unfold units unitsOf
  split
  case isTrue h => omega
  case isFalse h =>
    have hpos : 0 < (2 ^ 23 + magBits a % 2 ^ 23) * 2 ^ ulpExp (magBits a) := by positivity
    omega

theorem magBits_zero (s : Bool) : magBits (zero s) = 0 := magBits_ofSignMag s 0 (by decide)
theorem magBits_inf (s : Bool) : magBits (inf s) = infBits := magBits_ofSignMag s infBits (by decide)

/-- A quiet NaN is a NaN: its exponent and the top bit of its fraction are ones. -/
theorem isNaN_quietNaN (d : BitVec 23) : isNaN (quietNaN d) = true := by
  have hpayload := (d.extractLsb' 0 22).isLt
  have hbits : magBits (quietNaN d) = 0x1FF * 2 ^ 22 + (d.extractLsb' 0 22).toNat := by
    simp only [magBits, quietNaN, BitVec.extractLsb'_toNat, toNat_append_eq_add, Nat.shiftRight_zero]
    simp only [BitVec.ofNat_eq_ofNat, BitVec.toNat_ofNat]
    omega
  rw [isNaN_iff, hbits, infBits]
  omega

/-! ### The comparison -/

theorem fgt_iff {a b : W32} : fgt a b = true ↔ isNaN a = false ∧ isNaN b = false ∧ key b < key a := by
  simp [fgt, and_assoc]

/-- Nothing is greater than a word it is less than, or than itself. -/
theorem fgt_asymm {a b : W32} (h : fgt a b = true) : fgt b a = false := by
  obtain ⟨-, -, hkey⟩ := fgt_iff.mp h
  rw [← Bool.not_eq_true, fgt_iff]
  exact fun ⟨_, _, hkey'⟩ => lt_asymm hkey hkey'

theorem fgt_irrefl (a : W32) : fgt a a = false := by simp [fgt]

theorem fgt_nan_right {b : W32} (h : isNaN b = true) (a : W32) : fgt a b = false := by simp [fgt, h]

/-- The keys of numbers lie between those of the infinities. -/
theorem key_bounds {a : W32} {n : Nat} (h : magBits a ≤ n) : -(n : Int) ≤ key a ∧ key a ≤ n := by
  unfold key; split <;> omega

theorem fgt_posInf_right (a : W32) : fgt a 0x7F800000 = false := by
  rw [← Bool.not_eq_true, fgt_iff]
  rintro ⟨ha, -, hkey⟩
  have hinf : key 0x7F800000 = infBits := by decide
  have hle := (key_bounds (isNaN_eq_false_iff.mp ha)).2
  omega

theorem fgt_negInf_right {a : W32} (h : isFinite a = true) : fgt a 0xFF800000 = true := by
  have hinf : key 0xFF800000 = -(infBits : Int) := by decide
  have hlt : magBits a ≤ infBits - 1 := Nat.le_sub_one_of_lt (isFinite_iff.mp h)
  have hge := (key_bounds hlt).1
  have hpos : 0 < infBits := by decide
  exact fgt_iff.mpr ⟨isNaN_eq_false_iff.mpr (by omega), by decide, by omega⟩

/-- A number is not below zero: it has no sign, or it is a zero. -/
theorem fgt_zero_left_eq_false_iff {a : W32} :
    fgt 0x00000000 a = false ↔ isNaN a = true ∨ sign a = false ∨ magBits a = 0 := by
  have hzero : key 0x00000000 = 0 := by decide
  have hnan : isNaN 0x00000000 = false := by decide
  have hkey : 0 ≤ key a ↔ sign a = false ∨ magBits a = 0 := by
    unfold key
    cases sign a <;> simp
  rw [← hkey, ← Bool.not_eq_true, fgt_iff, hzero, hnan]
  simp [imp_iff_not_or]

/-- A word above zero has no sign and is no zero. -/
theorem fgt_zero_right_iff {a : W32} :
    fgt a 0x00000000 = true ↔ isNaN a = false ∧ sign a = false ∧ magBits a ≠ 0 := by
  have hzero : key 0x00000000 = 0 := by decide
  have hnan : isNaN 0x00000000 = false := by decide
  have hkey : 0 < key a ↔ sign a = false ∧ magBits a ≠ 0 := by
    unfold key
    cases sign a <;> simp [Nat.pos_iff_ne_zero]
  rw [fgt_iff, hzero, hkey, hnan]
  simp

end Binary32

/-! ### Products and roots (00_scope.md R8) -/

theorem isNaN_nanResult (op : FpOp) (a b : W32) : isNaN (nanResult op a b) = true := isNaN_quietNaN _

section
variable {a b : W32}

/-- A product with a NaN is a NaN. -/
theorem isNaN_fmul_left (h : isNaN a = true) (b : W32) : isNaN (fmul a b) = true := by
  have hnone : mulNum a b = none := by simp [mulNum, h]
  rw [fmul, hnone]
  exact isNaN_nanResult _ _ _

/-- An infinity times a finite word that is no zero is an infinity. -/
theorem fmul_inf_left (ha : isInf a = true) (hb : isFinite b = true) (h0 : magBits b ≠ 0) :
    fmul a b = inf (sign a != sign b) := by
  have hbits := isInf_iff.mp ha
  have hnan : isNaN a = false := isNaN_eq_false_iff.mpr hbits.le
  have hnan' : isNaN b = false := isNaN_eq_false_iff.mpr (isFinite_iff.mp hb).le
  have hua : units a ≠ 0 := fun h => absurd (hbits.symm.trans (units_eq_zero_iff.mp h)) (by decide)
  have hub : units b ≠ 0 := fun h => h0 (units_eq_zero_iff.mp h)
  have hsome : mulNum a b = some (inf (sign a != sign b)) := by simp [mulNum, hnan, hnan', ha, hua, hub]
  rw [fmul, hsome]; rfl

/-- A zero times a finite word is a zero. -/
theorem fmul_zero_left (ha : magBits a = 0) (hb : isFinite b = true) : fmul a b = zero (sign a != sign b) := by
  have hbits := isFinite_iff.mp hb
  have hnan : isNaN a = false := isNaN_eq_false_iff.mpr (ha ▸ Nat.zero_le _)
  have hnan' : isNaN b = false := isNaN_eq_false_iff.mpr hbits.le
  have hinf : isInf a = false := Bool.eq_false_iff.mpr fun h => absurd (ha.symm.trans (isInf_iff.mp h)) (by decide)
  have hinf' : isInf b = false := Bool.eq_false_iff.mpr fun h => hbits.ne (isInf_iff.mp h)
  have hsome : mulNum a b = some (zero (sign a != sign b)) := by
    simp [mulNum, hnan, hnan', hinf, hinf', units_eq_zero_iff.mpr ha]
  rw [fmul, hsome]; rfl

/-- The sign of a product that is no NaN, an infinity, a zero or a rounded number, is the operands' signs multiplied. -/
theorem sign_of_mulNum {r : W32} (h : mulNum a b = some r) : sign r = (sign a != sign b) := by
  simp only [mulNum] at h
  split at h
  · cases h
  · split at h
    · split at h
      · cases h
      · cases h; exact sign_ofSignMag _ _
    · split at h <;> (cases h; exact sign_ofSignMag _ _)

/-- A product is a NaN, or its sign is the operands' signs multiplied. -/
theorem isNaN_or_sign_fmul (a b : W32) : isNaN (fmul a b) = true ∨ sign (fmul a b) = (sign a != sign b) := by
  rw [fmul]
  cases h : mulNum a b with
  | none => exact .inl (isNaN_nanResult _ _ _)
  | some r => exact .inr (sign_of_mulNum h)

/-- A root is a NaN, a zero, or has no sign. -/
theorem fgt_zero_fsqrt (a : W32) : fgt 0x00000000 (fsqrt a) = false := by
  rw [fgt_zero_left_eq_false_iff, fsqrt, sqrtNum]
  by_cases hnan : isNaN a = true
  · rw [if_pos hnan]; exact .inl (isNaN_nanResult _ _ _)
  rw [if_neg hnan]
  by_cases hzero : magBits a = 0
  · rw [if_pos hzero]; exact .inr (.inr hzero)
  rw [if_neg hzero]
  by_cases hsign : sign a = true
  · rw [if_pos hsign]; exact .inl (isNaN_nanResult _ _ _)
  rw [if_neg hsign]
  by_cases hinf : isInf a = true
  · rw [if_pos hinf]; exact .inr (.inl (Bool.not_eq_true _ ▸ hsign))
  · rw [if_neg hinf]; exact .inr (.inl (sign_ofSignMag _ _))

/-- What is not below zero, times a finite word above zero, is not below zero. -/
theorem fgt_zero_fmul (ha : fgt 0x00000000 a = false) (hb : isFinite b = true) (hpos : fgt b 0x00000000 = true) :
    fgt 0x00000000 (fmul a b) = false := by
  obtain ⟨-, hsign, -⟩ := fgt_zero_right_iff.mp hpos
  rw [fgt_zero_left_eq_false_iff] at ha ⊢
  obtain hnan | hsign' | hzero := ha
  · exact .inl (isNaN_fmul_left hnan b)
  · exact (isNaN_or_sign_fmul a b).imp_right fun h => .inl (by rw [h, hsign, hsign']; rfl)
  · exact .inr (.inr (by rw [fmul_zero_left hzero hb, magBits_zero]))

end

/-! ### The conversion (R218) -/

section
variable {scale floor m : W32}

/-- The floor, for what is not finite after the scale. -/
theorem toDb_of_not_finite (h : isFinite (fmul m scale) = false) : toDb scale floor m = floor := by simp [toDb, h]

/-- The floor, for what is not above zero after the scale. -/
theorem toDb_of_not_pos (h : fgt (fmul m scale) 0x00000000 = false) : toDb scale floor m = floor := by
  simp only [toDb, h]; split <;> rfl

/-- Decibels clamped at the floor, for what is finite and above zero. -/
theorem toDb_of_pos (hf : isFinite (fmul m scale) = true) (hp : fgt (fmul m scale) 0x00000000 = true) :
    toDb scale floor m =
      if fgt (fmul 0x41A00000 (flog10 (fmul m scale))) floor = true then fmul 0x41A00000 (flog10 (fmul m scale))
      else floor := by
  simp only [toDb, hf, hp]; rfl

/-- The result is the floor or is greater than it. -/
theorem toDb_cases (scale floor m : W32) : toDb scale floor m = floor ∨ fgt (toDb scale floor m) floor = true := by
  cases hf : isFinite (fmul m scale)
  case false => exact .inl (toDb_of_not_finite hf)
  cases hp : fgt (fmul m scale) 0x00000000
  case false => exact .inl (toDb_of_not_pos hp)
  rw [toDb_of_pos hf hp]
  split
  case isTrue h => exact .inr h
  case isFalse => exact .inl rfl

/-- A floor than which nothing is greater always comes back. -/
theorem toDb_of_top (h : ∀ d, fgt d floor = false) : toDb scale floor m = floor :=
  (toDb_cases scale floor m).resolve_right (by rw [h]; exact Bool.false_ne_true)

/-- The floor is never greater than the result. -/
theorem fgt_floor_toDb (scale floor m : W32) : fgt floor (toDb scale floor m) = false := by
  obtain h | h := toDb_cases scale floor m
  · rw [h]; exact fgt_irrefl floor
  · exact fgt_asymm h

/-- A magnitude of zero is not above zero after a finite scale. -/
theorem toDb_zero (hs : isFinite scale = true) (hm : units m = 0) : toDb scale floor m = floor := by
  refine toDb_of_not_pos ?_
  rw [fmul_zero_left (units_eq_zero_iff.mp hm) hs, ← Bool.not_eq_true, fgt_zero_right_iff]
  exact fun ⟨_, _, h⟩ => h (magBits_zero _)

/-- An infinite or NaN magnitude is not finite after a finite scale above zero. -/
theorem toDb_not_finite (hs : isFinite scale = true) (hpos : fgt scale 0x00000000 = true) (hm : isFinite m = false) :
    toDb scale floor m = floor := by
  refine toDb_of_not_finite (isFinite_eq_false_iff.mpr ?_)
  obtain ⟨-, -, h0⟩ := fgt_zero_right_iff.mp hpos
  obtain hinf | hnan := (isFinite_eq_false_iff.mp hm).eq_or_lt
  · rw [fmul_inf_left (isInf_iff.mpr hinf.symm) hs h0, magBits_inf]
  · exact (isNaN_iff.mp (isNaN_fmul_left (isNaN_iff.mpr hnan) scale)).le

end

/-- Settles O47: the result is the floor or is greater than it, the comparison knows its corner cases, and a root times a
scale above zero is not below zero. -/
theorem decibelConversion : Obligations.DecibelConversion := by
  unfold Obligations.DecibelConversion
  refine ⟨fun scale floor m => ⟨toDb_of_not_finite, fun _ => toDb_of_not_pos, toDb_of_pos, fun hnan => ?nanFloor,
    toDb_of_top fgt_posInf_right, fun hf hp hd => ?lowestFloor, fgt_floor_toDb scale floor m⟩,
    fun scale floor m hs hpos => ⟨fun hm => ?corners, fun z => fgt_zero_fmul (fgt_zero_fsqrt _) hs hpos⟩⟩
  case nanFloor => exact toDb_of_top (fgt_nan_right hnan)
  case lowestFloor => rw [toDb_of_pos hf hp, if_pos (fgt_negInf_right hd)]
  case corners => exact hm.elim (toDb_zero hs) (toDb_not_finite hs hpos)

end Sys2Proof.Machine
end

section
/-! The first failing check of a header word (30_encoding.md R107) is what the port's step finds: for a word that decodes it is
the command's own header check, for another the code `State.rejectWord` answers with. So a refused header is one equation
between states (60_exceptions.md R265). -/

namespace Sys2Proof.Machine

/-! ### The five checks, one equation each (R107) -/

section
variable {s : State} {p : Port} {w : W32} {op : Opcode}

theorem State.wordError_badStrap (h1 : s.strapOk = false) : s.wordError p w = some .field := if_pos h1

theorem State.wordError_noOpcode (h1 : s.strapOk = true) (h2 : Opcode.ofCode (Header.opc w) = none) :
    s.wordError p w = some .illop := by
  simp [State.wordError, h1, h2]

theorem State.wordError_wrongPort (h1 : s.strapOk = true) (h2 : Opcode.ofCode (Header.opc w) = some op)
    (h3 : op.onPort p = false) : s.wordError p w = some .illop := by
  simp [State.wordError, h1, h2, h3]

theorem State.wordError_illegalField (h1 : s.strapOk = true) (h2 : Opcode.ofCode (Header.opc w) = some op)
    (h3 : op.onPort p = true) (h4 : w &&& op.mbz ≠ 0 ∨ (Instr.ofHeader op w).fieldsLegal = false) :
    s.wordError p w = some .field := by
  simp only [State.wordError, h1, h2, h3, if_pos h4, Bool.true_eq_false, if_false]

theorem rdcsrCheck_eq (idx : BitVec 8) (s : State) :
    rdcsrCheck idx s = if csrRead s.cur idx s = none then some .csr else none := by
  cases h : csrRead s.cur idx s <;> simp [rdcsrCheck, h]

theorem bypCheck_eq (chm slot : BitVec 4) (v : BitVec 1) (s : State) :
    bypCheck chm slot v s =
      if v = 0 ∧ (selects chm .left = true ∧ (s.slot .left (slotOf slot)).cv = false ∨
          selects chm .right = true ∧ (s.slot .right (slotOf slot)).cv = false) then some .nocoef
      else none := by
  simp [bypCheck]

/-- Past the first three checks, the error of a word is that of its command's own check: `RDCSR`, `WRCSR` and `BQ.BYP` have
one. -/
theorem State.wordError_late (h1 : s.strapOk = true) (h2 : Opcode.ofCode (Header.opc w) = some op)
    (h3 : op.onPort p = true) (h4 : w &&& op.mbz = 0) (h5 : (Instr.ofHeader op w).fieldsLegal = true) :
    s.wordError p w = lateOf (Instr.ofHeader op w) (s.turnOf p) := by
  have h45 : ¬ (w &&& op.mbz ≠ 0 ∨ (Instr.ofHeader op w).fieldsLegal = false) := by simp [h4, h5]
  simp only [State.wordError, h1, h2, h3, if_neg h45, Bool.true_eq_false, if_false]
  cases op
  case rdcsr => simp only [Instr.ofHeader, lateOf, rdcsrCheck_eq, State.cur_turnOf, csrRead_turnOf]
  case wrcsr => exact (wrcsrCheck_eq _ (s.turnOf p)).symm
  case bqByp => exact (bypCheck_eq _ _ _ (s.turnOf p)).symm
  all_goals rfl

end

/-! ### The checks are those of the step -/

/-- The error of a word that decodes is what its command's header check finds. -/
theorem State.wordError_of_command {w : W32} {i : Instr} (hd : decode w = .command i) (s : State) (p : Port) :
    s.wordError p w = headerCheck i (lateOf i) (s.turnOf p) := by
  rcases decode_cases w with ⟨_, hr⟩ | ⟨op, hc, ⟨hz, hi⟩ | ⟨_, hr⟩⟩
  · simp [hd] at hr
  · obtain rfl : i = Instr.ofHeader op w := Decoded.command.inj (hd.symm.trans hi)
    cases h1 : s.strapOk with
    | false => simp [State.wordError_badStrap h1, headerCheck, h1]
    | true =>
      cases h2 : op.onPort p with
      | false => simp [State.wordError_wrongPort h1 hc h2, headerCheck, h1, h2]
      | true =>
        have h1' : (s.turnOf p).strapOk = true := h1
        have h2' : (Instr.ofHeader op w).opcode.onPort (s.turnOf p).cur = true := by rwa [Instr.opcode_ofHeader]
        cases h3 : (Instr.ofHeader op w).fieldsLegal with
        | false => rw [State.wordError_illegalField h1 hc h2 (.inr h3), headerCheck_illegalField h1' h2' h3]
        | true => rw [State.wordError_late h1 hc h2 hz h3, headerCheck_late h1' h2' h3]
  · simp [hd] at hr

/-- A word that is no command is refused with the first check it fails. -/
theorem State.rejectWord_of_wordError {w : W32} {d : DecodeError} (hd : decode w = .rejected d) {s : State} {p : Port}
    {e : ErrCode} (he : s.wordError p w = some e) : (s.turnOf p).rejectWord d = (s.turnOf p).takeWord.refuse e := by
  cases h1 : s.strapOk with
  | false =>
    obtain rfl : ErrCode.field = e := Option.some.inj ((State.wordError_badStrap h1).symm.trans he)
    simp [State.rejectWord, h1]
  | true =>
    rcases decode_cases w with ⟨hc, hr⟩ | ⟨op, hc, ⟨_, hi⟩ | ⟨hz, hr⟩⟩
    · obtain rfl : d = .illegalOpcode := Decoded.rejected.inj (hd.symm.trans hr)
      obtain rfl : ErrCode.illop = e := Option.some.inj ((State.wordError_noOpcode h1 hc).symm.trans he)
      simp [State.rejectWord, h1]
    · simp [hd] at hi
    · obtain rfl : d = .mustBeZero op := Decoded.rejected.inj (hd.symm.trans hr)
      cases h2 : op.onPort p with
      | false =>
        obtain rfl : ErrCode.illop = e := Option.some.inj ((State.wordError_wrongPort h1 hc h2).symm.trans he)
        simp [State.rejectWord, h1, h2]
      | true =>
        obtain rfl : ErrCode.field = e := Option.some.inj ((State.wordError_illegalField h1 hc h2 (.inl hz)).symm.trans he)
        exact State.rejectWord_mustBeZero h1 h2

/-- Settles O5: the header is a command that fails its own check, or no command and rejected, with the same error. -/
theorem refusedHeader : Obligations.RefusedHeader := by
  unfold Obligations.RefusedHeader
  intro s p w rest e h he
  cases hd : decode w with
  | command i => exact step_header_refused h hd (State.wordError_of_command hd s p ▸ he)
  | rejected d => rw [step_rejected h hd, State.rejectWord_of_wordError hd he, State.refuse_turnOf h]

end Sys2Proof.Machine
end

section
/-! Reset and the strap: a strap that is no block length puts the block out of service (70_reset_and_hazards.md R301), and the
machine just after reset as the commands see it (R303): identity chains, empty rings, no error. -/

namespace Sys2Proof.Machine

/-! ### The strap (R301) -/

/-- The strap is a block length. -/
theorem State.strapOk_iff {s : State} : s.strapOk = true ↔ 1 ≤ s.blklen.toNat ∧ s.blklen.toNat ≤ s.inst.blkMax := by
  simp [State.strapOk]

/-- The strap is a bad one, in the words of R301. -/
theorem State.strapOk_eq_false {s : State} : s.strapOk = false ↔ s.blklen.toNat = 0 ∨ s.inst.blkMax < s.blklen.toNat := by
  rw [← Bool.not_eq_true, State.strapOk_iff]; omega

/-- Settles O8: a bad strap is the first check of R107, whatever the word; a good one is at most `BLKMAX`, which is at most
`N`. -/
theorem badStrapRefusesEveryHeader : Obligations.BadStrapRefusesEveryHeader := by
  unfold Obligations.BadStrapRefusesEveryHeader
  refine ⟨fun s p w rest h hbad => ?refused, fun s hv hgood => ?bounded⟩
  case refused => exact refusedHeader s p w rest .field h (State.wordError_badStrap (State.strapOk_eq_false.mpr hbad))
  case bounded => exact State.blkLen_le_n hv (eq_true_of_ne_false (mt State.strapOk_eq_false.mp hgood))

/-! ### The commands of port B without operands, and what they answer on empty rings (42_block_fifo.md R178 to R182) -/

/-- A command of port B without operands, header effect or late check: it finishes in the state whose port has latched its
header. -/
theorem exec_portB_finish (i : Instr) {s : State} {w : W32} {rest : List W32} (hcur : s.cur = .b)
    (hs : s.strapOk = true) (h : s.AtHeader w rest) (hport : i.opcode.onPort .b = true) (hf : i.fieldsLegal = true)
    (hlate : lateOf i = noLateCheck) (hstart : startOf i = noStart) (hn : i.nopnd = 0) :
    exec i s = .next (finishOf i (s.setPort .b (s.portB.afterHeader w rest []))) := by
  have hhere : s.here = s.portB := by rw [State.here, hcur, State.port_b]
  have hpass : headerCheck i (lateOf i) s = none := headerCheck_none hs (by rwa [hcur]) hf (by rw [hlate]; rfl)
  rw [exec_header_finish h hpass hn hstart, hcur, hhere]

section
variable {s : State} {ch : BitVec 4} {c : Chan} {w : W32} {rest : List W32}

/-- `AF.AVAIL` answers the consumer's count, and nothing else happens. -/
theorem exec_afAvail (hch : ch.toNat = c.index) (hcur : s.cur = .b) (hs : s.strapOk = true) (h : s.AtHeader w rest) :
    exec (.afAvail ch) s = .next (s.setPort .b (s.portB.afterHeader w rest [BitVec.ofNat 32 (s.availB c)])) := by
  have hcount : s.availB c < 2 ^ 16 := (ringCount_lt _ _).trans (by decide)
  rw [exec_portB_finish (.afAvail ch) hcur hs h rfl (legalCh_index hch) rfl rfl rfl, finishOf, finishAfAvail,
    chanOf_index hch, State.availB_setPort, s.respondOk_portB hcur _ _ _ hcount]

/-- `MF.AVAIL` answers the count of vectors, and nothing else happens. -/
theorem exec_mfAvail (hch : ch.toNat = c.index) (hcur : s.cur = .b) (hs : s.strapOk = true) (h : s.AtHeader w rest) :
    exec (.mfAvail ch) s = .next (s.setPort .b (s.portB.afterHeader w rest [BitVec.ofNat 32 (s.mocc c)])) := by
  have hcount : s.mocc c < 2 ^ 16 := (ringCount_lt _ _).trans (by decide)
  rw [exec_portB_finish (.mfAvail ch) hcur hs h rfl (legalCh_index hch) rfl rfl rfl, finishOf, finishMfAvail,
    chanOf_index hch, State.mocc_setPort, s.respondOk_portB hcur _ _ _ hcount]

/-- FAIL/EMPTY from port B at its turn, behind the words it has answered. -/
theorem State.respondEmpty_portB (hcur : s.cur = .b) (q : PortState) (w : W32) (rest : List W32) :
    (s.setPort .b (q.afterHeader w rest [])).respondEmpty = s.setPort .b (q.afterHeader w rest [0x11000000]) := by
  rw [State.respondEmpty_eq, s.respond_portB hcur, respHeader_empty]

/-- `AF.PULL` with no block ready. -/
theorem exec_afPull_empty (hch : ch.toNat = c.index) (hcur : s.cur = .b) (hs : s.strapOk = true) (h : s.AtHeader w rest)
    (hempty : s.availB c = 0) :
    exec (.afPull ch) s = .next (s.setPort .b (s.portB.afterHeader w rest [0x11000000])) := by
  have hpull : (s.setPort .b (s.portB.afterHeader w rest [])).afPull c = none :=
    State.afPull_none.mpr (by rwa [State.availB_setPort])
  rw [exec_portB_finish (.afPull ch) hcur hs h rfl (legalCh_index hch) rfl rfl rfl, finishOf, finishAfPull,
    chanOf_index hch, hpull, State.respondEmpty_portB hcur]

/-- `MF.PULL` with no vector ready. -/
theorem exec_mfPull_empty (hch : ch.toNat = c.index) (hcur : s.cur = .b) (hs : s.strapOk = true) (h : s.AtHeader w rest)
    (hempty : s.mocc c = 0) :
    exec (.mfPull ch) s = .next (s.setPort .b (s.portB.afterHeader w rest [0x11000000])) := by
  have hpull : (s.setPort .b (s.portB.afterHeader w rest [])).mfPull c = none :=
    State.mfPull_none.mpr (by rwa [State.mocc_setPort])
  rw [exec_portB_finish (.mfPull ch) hcur hs h rfl (legalCh_index hch) rfl rfl rfl, finishOf, finishMfPull,
    chanOf_index hch, hpull, State.respondEmpty_portB hcur]

/-- `FG.STEP` with no block ready (43_fft_magnitude.md R219). -/
theorem exec_fgStep_empty (hch : ch.toNat = c.index) (hcur : s.cur = .b) (hs : s.strapOk = true) (h : s.AtHeader w rest)
    (hempty : s.availB c = 0) :
    exec (.fgStep ch) s = .next (s.setPort .b (s.portB.afterHeader w rest [0x11000000])) :=
  (fgStepExtracts s ch c w rest hch hcur hs h).1 hempty

end

/-! ### The machine just after reset (R303) -/

section
variable (inst : Params) (strap : BitVec 16) (c : Chan)

theorem State.x_resetOf : (State.resetOf inst strap).x.get c = Vector.replicate 9 Section.reset := PerChan.get_both _ c

/-- The rings are empty, and the audio rings in both views (42_block_fifo.md R175). -/
theorem State.occA_resetOf : (State.resetOf inst strap).occA c = 0 := by cases c <;> rfl
theorem State.availB_resetOf : (State.resetOf inst strap).availB c = 0 := by cases c <;> rfl
theorem State.mocc_resetOf : (State.resetOf inst strap).mocc c = 0 := by cases c <;> rfl

/-- Every slot is bypassed, so a sample passes unchanged. -/
theorem chainStep_resetOf (xin : W32) :
    chainStep ((State.resetOf inst strap).x.get c) xin = (xin, (State.resetOf inst strap).x.get c) := by
  refine chainPassesSlotsInOrder.2 _ xin fun k => ?_
  rw [State.x_resetOf, Fin.getElem_fin, Vector.getElem_replicate]
  rfl

/-- Every slot is bypassed and without coefficients. -/
theorem csrRead_bypv_resetOf :
    csrRead .a (BitVec.ofNat 8 (0x28 + c.index)) (State.resetOf inst strap) = some 0x000001FF := by
  rw [csrRead_bypv, State.x_resetOf]; decide

theorem csrRead_afprod_resetOf :
    csrRead .a (BitVec.ofNat 8 (0x10 + c.index)) (State.resetOf inst strap) = some 0 := by
  have hfill : (State.resetOf inst strap).fill.get c = 0 := PerChan.get_both 0 c
  rw [csrRead_afprod, afprodWord_eq (by rw [hfill]; decide), hfill, State.occA_resetOf]; rfl

theorem csrRead_afcons_resetOf :
    csrRead .b (BitVec.ofNat 8 (0x18 + c.index)) (State.resetOf inst strap) = some 0 := by
  rw [csrRead_afcons, afconsWord_eq, State.availB_resetOf]; rfl

theorem csrRead_mfstat_resetOf :
    csrRead .b (BitVec.ofNat 8 (0x20 + c.index)) (State.resetOf inst strap) = some 0 := by
  rw [csrRead_mfstat, mfstatWord_eq, State.mocc_resetOf]; rfl

/-- Neither port has had an error. -/
theorem csrRead_status_resetOf (p : Port) : csrRead p 0x03 (State.resetOf inst strap) = some 0 := by
  have hport : (State.resetOf inst strap).port p = PortState.reset := by cases p <;> rfl
  rw [csrRead_status, hport]; decide

end

/-- Settles O16: the registers' words by their own lemmas, the answers by those of commands on empty rings. -/
theorem afterReset : Obligations.AfterReset := by
  unfold Obligations.AfterReset
  intro inst strap hlo hhi s
  have bypv := csrRead_bypv_resetOf inst strap
  have afprod := csrRead_afprod_resetOf inst strap
  have afcons := csrRead_afcons_resetOf inst strap
  have mfstat := csrRead_mfstat_resetOf inst strap
  have status := csrRead_status_resetOf inst strap
  refine ⟨chainStep_resetOf inst strap, bypv .left, bypv .right, afprod .left, afprod .right, afcons .left, afcons .right,
    mfstat .left, mfstat .right, status .a, status .b, csrRead_floor s, ?commands⟩
  case commands =>
    intro ch w rest hch r answers
    have hidx : ch.toNat = (chanOf ch).index := index_chanOf (decide_eq_true hch)
    have hstrap : r.strapOk = true := State.strapOk_iff.mpr ⟨hlo, hhi⟩
    have hheader : r.AtHeader w rest := ⟨rfl, rfl⟩
    have havail : r.availB (chanOf ch) = 0 := State.availB_resetOf inst strap _
    have hmocc : r.mocc (chanOf ch) = 0 := State.mocc_resetOf inst strap _
    have hafAvail := exec_afAvail hidx rfl hstrap hheader
    have hmfAvail := exec_mfAvail hidx rfl hstrap hheader
    rw [havail] at hafAvail
    rw [hmocc] at hmfAvail
    exact ⟨hafAvail, hmfAvail, exec_afPull_empty hidx rfl hstrap hheader havail,
      exec_mfPull_empty hidx rfl hstrap hheader hmocc, exec_fgStep_empty hidx rfl hstrap hheader havail⟩

end Sys2Proof.Machine
end

section
/-! The encoder and the decoder undo each other (30_encoding.md R92, R94, R96): a header word is its four fields side by side,
and a must-be-zero mask is four masks side by side, so "no ignored bit is set" is said field by field. -/

namespace Sys2Proof

/-! ### A header word and its fields (R92) -/

/-- A word is the header made of its own fields. -/
theorem Header.make_fields (w : W32) : Header.make (Header.opc w) (Header.ch w) (Header.slot w) (Header.imm w) = w := by
  apply BitVec.eq_of_toNat_eq
  have h := w.isLt
  simp only [Header.make_toNat, Header.opc, Header.ch, Header.slot, Header.imm, BitVec.extractLsb'_toNat,
    Nat.shiftRight_eq_div_pow]
  omega

/-- A mask that spares `OPC` meets no bit of a word exactly when it meets none of each other field. -/
theorem Header.and_eq_zero_iff {w m : W32} (hm : Header.opc m = 0) :
    w &&& m = 0 ↔ Header.ch w &&& Header.ch m = 0 ∧ Header.slot w &&& Header.slot m = 0 ∧
      Header.imm w &&& Header.imm m = 0 := by
  have hsplit : w &&& m = Header.make 0 (Header.ch w &&& Header.ch m) (Header.slot w &&& Header.slot m)
      (Header.imm w &&& Header.imm m) := by
    rw [← Header.make_fields (w &&& m)]
    simp only [Header.opc, Header.ch, Header.slot, Header.imm, BitVec.extractLsb'_and] at hm ⊢
    rw [hm, BitVec.ofNat_eq_ofNat, BitVec.and_zero]
  constructor
  · intro h
    simp only [Header.ch, Header.slot, Header.imm, ← BitVec.extractLsb'_and, h]
    decide
  · rintro ⟨hc, hs, hi⟩
    rw [hsplit, hc, hs, hi]; decide

/-- A mask meets no bit of a field widened to the bits the mask spares. -/
theorem setWidth_and_eq_zero {k n : Nat} {m : BitVec n} (hm : ∀ j, j < k → m.getLsbD j = false) (x : BitVec k) :
    x.setWidth n &&& m = 0 := by
  refine BitVec.eq_of_getLsbD_eq fun j hj => ?_
  rw [BitVec.getLsbD_and, BitVec.getLsbD_setWidth]
  by_cases h : j < k
  · simp [hm j h]
  · simp [BitVec.getLsbD_of_ge x j (by omega)]

/-- A field whose upper bits the mask finds zero is its lower bits. -/
theorem setWidth_setWidth_of_and_eq_zero {n : Nat} (k : Nat) {x m : BitVec n}
    (hm : ∀ j, k ≤ j → j < n → m.getLsbD j = true) (h : x &&& m = 0) : (x.setWidth k).setWidth n = x := by
  refine BitVec.eq_of_getLsbD_eq fun j hj => ?_
  have hbit : (x &&& m).getLsbD j = false := by rw [h]; simp
  rw [BitVec.getLsbD_and] at hbit
  by_cases hk : j < k
  · simp [hj, hk]
  · rw [hm j (by omega) hj, Bool.and_true] at hbit
    rw [BitVec.getLsbD_setWidth, BitVec.getLsbD_setWidth, hbit]
    simp [hk]

/-- The lower bits of a word are those of its `IMM`. -/
theorem Header.extractLsb'_imm (w : W32) {k : Nat} (hk : k ≤ 16) : w.extractLsb' 0 k = (Header.imm w).setWidth k := by
  refine BitVec.eq_of_getLsbD_eq fun j hj => ?_
  simp [Header.imm, hj, show j < 16 by omega]

theorem Header.idx_eq (w : W32) : Header.idx w = (Header.imm w).setWidth 8 := Header.extractLsb'_imm w (by decide)
theorem Header.slope_eq (w : W32) : Header.slope w = (Header.imm w).setWidth 4 := Header.extractLsb'_imm w (by decide)
theorem Header.bit_eq (w : W32) : Header.bit w = (Header.imm w).setWidth 1 := Header.extractLsb'_imm w (by decide)

/-- No opcode's must-be-zero bits lie in `OPC`. -/
theorem Opcode.opc_mbz (op : Opcode) : Header.opc op.mbz = 0 := by cases op <;> decide

/-! ### Decode after encode -/

/-- A command's header word carries the code of its opcode. -/
@[simp] theorem opc_encode (i : Instr) : Header.opc (encode i) = i.opcode.code := by cases i <;> exact Header.opc_make _ _ _ _

/-- A command's header word has no must-be-zero bit set (R96). -/
theorem encode_and_mbz (i : Instr) : encode i &&& i.opcode.mbz = 0 := by
  rw [Header.and_eq_zero_iff (Opcode.opc_mbz _)]
  cases i <;> simp only [encode, Header.ch_make, Header.slot_make, Header.imm_make, Instr.opcode]
  case nop => decide
  case rdcsr idx | wrcsr idx => exact ⟨by decide, by decide, setWidth_and_eq_zero (by decide) idx⟩
  case bqSetc chm slot => exact ⟨BitVec.and_zero, BitVec.and_zero, by decide⟩
  case bqByp chm slot v => exact ⟨BitVec.and_zero, BitVec.and_zero, setWidth_and_eq_zero (by decide) v⟩
  case bqCutupd chm stg slope => exact ⟨BitVec.and_zero, BitVec.and_zero, setWidth_and_eq_zero (by decide) slope⟩
  case bqProc ch n | afPushs ch n => exact ⟨BitVec.and_zero, by decide, BitVec.and_zero⟩
  all_goals exact ⟨BitVec.and_zero, by decide, by decide⟩

/-- The command an opcode makes of a command's own header word is the command. -/
theorem ofHeader_encode (i : Instr) : Instr.ofHeader i.opcode (encode i) = i := by
  cases i <;> simp [Instr.ofHeader, Instr.opcode, encode, Header.idx_eq, Header.slope_eq, Header.bit_eq]

/-- Settles O1: the word has the command's opcode and no must-be-zero bit, and its fields are the command's. -/
theorem decodeOfEncode : Obligations.DecodeOfEncode := by
  unfold Obligations.DecodeOfEncode
  intro i
  rw [decode, opc_encode, Opcode.ofCode_code]
  simp only [if_pos (encode_and_mbz i), ofHeader_encode]

/-! ### Encode after decode -/

/-- A word whose opcode is known and none of whose must-be-zero bits is set is the header word of the command made of it. -/
theorem encode_ofHeader {w : W32} {op : Opcode} (hc : Opcode.ofCode (Header.opc w) = some op) (hz : w &&& op.mbz = 0) :
    encode (Instr.ofHeader op w) = w := by
  obtain ⟨hch, hslot, himm⟩ := (Header.and_eq_zero_iff (Opcode.opc_mbz op)).mp hz
  conv_rhs => rw [← Header.make_fields w, ← Opcode.code_of_ofCode hc]
  have covered {n : Nat} {x m : BitVec n} (hm : m = BitVec.allOnes n) (h : x &&& m = 0) : x = 0 := by
    rwa [hm, BitVec.and_allOnes] at h
  cases op <;> simp only [Instr.ofHeader, encode, Instr.opcode, Header.idx_eq, Header.slope_eq, Header.bit_eq]
  case nop => rw [covered rfl hch, covered rfl hslot, covered rfl himm]
  case rdcsr | wrcsr =>
    rw [covered rfl hch, covered rfl hslot, setWidth_setWidth_of_and_eq_zero 8 (by decide) himm]
  case bqSetc => rw [covered rfl himm]
  case bqByp => rw [setWidth_setWidth_of_and_eq_zero 1 (by decide) himm]
  case bqCutupd => rw [setWidth_setWidth_of_and_eq_zero 4 (by decide) himm]
  case bqProc | afPushs => rw [covered rfl hslot]
  all_goals rw [covered rfl hslot, covered rfl himm]

/-- Settles O2: a word that decodes has a known opcode and passes its mask, so it is the encoding of what is made of it. -/
theorem encodeOfDecode : Obligations.EncodeOfDecode := by
  unfold Obligations.EncodeOfDecode
  intro w i hd
  rcases Machine.decode_cases w with ⟨_, hr⟩ | ⟨op, hc, ⟨hz, hi⟩ | ⟨_, hr⟩⟩
  · simp [hd] at hr
  · obtain rfl : i = Instr.ofHeader op w := Decoded.command.inj (hd.symm.trans hi)
    exact encode_ofHeader hc hz
  · simp [hd] at hr

end Sys2Proof
end

section
/-! What a word of a command does, in three parts kept apart (30_encoding.md R91): what it does outside the port, what it
leaves in the port's sequencer, and the words it answers. `exec_cases` says once what a command can do; frames, invariants and
the commands' own claims are read off it. -/

namespace Sys2Proof.Machine

/-! ### The three parts -/

/-- What an operand word changes outside the port: `BQ.PROC` runs its chain, `AF.PUSHS` feeds its accumulator. -/
def sampleOf : Instr → W32 → State → State
  | .bqProc ch _, w, s => s.setSlots (chanOf ch) (chainStep (s.x.get (chanOf ch)) w).2
  | .afPushs ch _, w, s => (s.feed (chanOf ch) w).2
  | _, _, s => s

/-- What an operand word leaves in the sequencer, the count of words to come apart. -/
def operandSeq : Instr → W32 → State → Seq → Seq
  | .bqProc ch _, w, s, q => { q with outs := q.outs ++ [(chainStep (s.x.get (chanOf ch)) w).1] }
  | .afPushs ch _, w, s, q => q.count (s.feed (chanOf ch) w).1
  | _, w, _, q => { q with buf := q.buf ++ [w] }

/-- What a command changes outside the port when it finishes, `ws` being the operand words it has kept. -/
def effectOf : Instr → List W32 → State → State
  | .wrcsr idx, ws, s => csrWrite s.cur idx (ws.getD 0 0) s
  | .bqSetc chm slot, ws, s => s.onSelected chm (installCoefs (slotOf slot) (coefsAt ws 0))
  | .bqByp chm slot v, _, s => s.onSelected chm (setByp (slotOf slot) (v == 1))
  | .bqCutupd chm stg slope, ws, s => s.onSelected chm (cutUpdate stg (nsec slope) ws)
  | .afPull ch, _, s =>
    if s.availB (chanOf ch) = 0 then s
    else { s with rptr := s.rptr.set (chanOf ch) (s.rptr.get (chanOf ch) + 1) }
  | .mfPull ch, _, s =>
    if s.mocc (chanOf ch) = 0 then s
    else { s with mr := s.mr.set (chanOf ch) (s.mr.get (chanOf ch) + 1) }
  | .fgStep ch, _, s =>
    if s.availB (chanOf ch) = 0 then s
    else if s.mocc (chanOf ch) = 30 then s.fgSlid (chanOf ch)
    else (s.fgSlid (chanOf ch)).withVector (chanOf ch)
  | _, _, s => s

/-- The words of the response `OK` with `AUX = n` (30_encoding.md R93). -/
def okWords (n : Nat) (data : List W32) : List W32 := respHeader .ok 0 (BitVec.ofNat 16 n) :: data

/-- The words a command answers when it finishes in a state. -/
def answerOf : Instr → State → List W32
  | .nop, _ | .wrcsr _, _ | .bqSetc _ _, _ | .bqByp _ _ _, _ => okWords 0 []
  | .rdcsr idx, s => okWords 0 [(csrRead s.cur idx s).getD 0]
  | .bqCutupd _ _ slope, _ => okWords (nsec slope) []
  | .bqProc _ n, s => okWords n.toNat s.here.seq.outs
  | .afPushs _ n, s => okWords n.toNat [pushReport s.here.seq]
  | .afAvail ch, s => okWords (s.availB (chanOf ch)) []
  | .mfAvail ch, s => okWords (s.mocc (chanOf ch)) []
  | .afPull ch, s => if s.availB (chanOf ch) = 0 then [0x11000000] else okWords s.blkLen (s.afHead (chanOf ch))
  | .mfPull ch, s => if s.mocc (chanOf ch) = 0 then [0x11000000] else okWords s.inst.nbins (s.mfHead (chanOf ch))
  | .fgStep ch, s =>
    if s.availB (chanOf ch) = 0 then [0x11000000] else if s.mocc (chanOf ch) = 30 then okWords 0 [] else okWords 1 []

/-- A port that answers. -/
def PortState.answer (q : PortState) (resp : List W32) : PortState := { q with output := q.output ++ resp }

theorem okWords_eq {n : Nat} (h : n < 2 ^ 16) (data : List W32) : okWords n data = BitVec.ofNat 32 n :: data := by
  rw [okWords, respHeader_ok h]

theorem okWords_imm (n : BitVec 16) (data : List W32) : okWords n.toNat data = ((0 : BitVec 16) ++ n) :: data := by
  rw [okWords, respHeader_ok_imm]

/-! ### The parts make the command -/

/-- An answer given in a state that differs from an earlier one outside the ports. -/
theorem State.respondOk_answer {s t : State} (hcur : t.cur = s.cur) (hhere : t.here = s.here) (n : Nat) (data : List W32) :
    t.respondOk n data = t.setPort s.cur (s.here.answer (okWords n data)) := by
  rw [State.respondOk_eq, State.respond_eq, hcur, hhere]; rfl

theorem State.respondEmpty_answer (s : State) : s.respondEmpty = s.setPort s.cur (s.here.answer [0x11000000]) := by
  rw [State.respondEmpty_eq, State.respond_eq, respHeader_empty]; rfl

theorem csrWrite_cases (p : Port) (idx : BitVec 8) (w : W32) (s : State) :
    csrWrite p idx w s = if csrWritable p idx = true then { s with floor := w } else s := rfl

/-- A command finishes with a change outside its port and an answer. -/
theorem finishOf_eq (i : Instr) (s : State) :
    finishOf i s = (effectOf i s.here.seq.buf s).setPort s.cur (s.here.answer (answerOf i s)) := by
  cases i
  case wrcsr idx =>
    simp only [finishOf, finishWrcsr, State.seq_eq, effectOf, answerOf, csrWrite_cases]
    split <;> exact State.respondOk_answer rfl rfl _ _
  case afPull ch =>
    simp only [finishOf, finishAfPull, effectOf, answerOf, State.afPull]
    by_cases h : s.availB (chanOf ch) = 0
    · simp only [if_pos h]; exact s.respondEmpty_answer
    · simp only [if_neg h]; exact State.respondOk_answer rfl rfl _ _
  case mfPull ch =>
    simp only [finishOf, finishMfPull, effectOf, answerOf, State.mfPull]
    by_cases h : s.mocc (chanOf ch) = 0
    · simp only [if_pos h]; exact s.respondEmpty_answer
    · simp only [if_neg h]; exact State.respondOk_answer rfl rfl _ _
  case fgStep ch =>
    simp only [finishOf, effectOf, answerOf]
    by_cases h : s.availB (chanOf ch) = 0
    · rw [finishFgStep_empty rfl h]; simp only [if_pos h]; exact s.respondEmpty_answer
    · rw [finishFgStep_ready rfl h]; simp only [if_neg h]
      split <;> exact State.respondOk_answer rfl rfl _ _
  all_goals exact State.respondOk_answer rfl rfl _ _

/-- An operand word goes through the chain or the accumulator, and into the sequencer. -/
theorem operandOf_setPort (i : Instr) (w : W32) (s : State) (q : PortState) :
    operandOf i w (s.setPort s.cur q) =
      (sampleOf i w s).setPort s.cur { q with seq := operandSeq i w s q.seq } := by
  cases i
  case bqProc ch n =>
    simp only [operandOf, procSample, sampleOf, operandSeq]
    cases hc : s.cur <;> simp [State.setPort_a, State.setPort_b, State.setSlots, State.here, hc]
  case afPushs ch n =>
    simp only [operandOf, pushSample, sampleOf, operandSeq, State.feed_setPort, State.seq_eq, State.setSeq_eq]
    have hcur := s.cur_feed (chanOf ch) w
    generalize s.feed (chanOf ch) w = r at hcur ⊢
    rw [← hcur]
    simp
  all_goals simp [operandOf, sampleOf, operandSeq]

/-! ### No part reads a port (30_encoding.md R35) -/

theorem csrWrite_setPort (p' : Port) (idx : BitVec 8) (w : W32) (s : State) (p : Port) (q : PortState) :
    csrWrite p' idx w (s.setPort p q) = (csrWrite p' idx w s).setPort p q := by
  simp only [csrWrite_cases]
  split
  · cases p <;> rfl
  · rfl

theorem effectOf_setPort (i : Instr) (ws : List W32) (s : State) (p : Port) (q : PortState) :
    effectOf i ws (s.setPort p q) = (effectOf i ws s).setPort p q := by
  cases i
  case wrcsr idx => rw [effectOf, effectOf, State.cur_setPort, csrWrite_setPort]
  case bqSetc | bqByp | bqCutupd => exact State.onSelected_setPort _ _ _ _ _
  case afPull ch =>
    simp only [effectOf, State.availB_setPort]
    split
    · rfl
    · cases p <;> rfl
  case mfPull ch =>
    simp only [effectOf, State.mocc_setPort]
    split
    · rfl
    · cases p <;> rfl
  case fgStep ch =>
    simp only [effectOf, State.availB_setPort, State.mocc_setPort, State.fgSlid_setPort, State.withVector_setPort]
    split
    · rfl
    · split <;> rfl
  all_goals rfl

@[simp] theorem cur_sampleOf (i : Instr) (w : W32) (s : State) : (sampleOf i w s).cur = s.cur := by
  cases i
  case afPushs ch n => exact s.cur_feed _ _
  all_goals rfl

@[simp] theorem cur_effectOf (i : Instr) (ws : List W32) (s : State) : (effectOf i ws s).cur = s.cur := by
  cases i
  case wrcsr idx => simp only [effectOf, csrWrite_cases]; split <;> rfl
  case afPull ch | mfPull ch => simp only [effectOf]; split <;> rfl
  case fgStep ch =>
    simp only [effectOf]
    split
    · rfl
    · split <;> rfl
  all_goals rfl

/-- A finish in a state whose port is replaced. -/
theorem finishOf_setPort (i : Instr) (s : State) (q : PortState) :
    finishOf i (s.setPort s.cur q) =
      (effectOf i q.seq.buf s).setPort s.cur (q.answer (answerOf i (s.setPort s.cur q))) := by
  rw [finishOf_eq, State.here_setPort, effectOf_setPort, State.cur_setPort, State.setPort_setPort]

/-! ### A word that is accepted -/

/-- A port after an accepted header word (30_encoding.md R91): the word taken and latched, and the phase `hdr` kept where no
operands are to come. -/
def PortState.accepted (q : PortState) (i : Instr) (w : W32) (rest : List W32) : PortState :=
  { q with input := rest, seq := { q.seq.begun w i with phase := if i.nopnd = 0 then .hdr else .opnd } }

@[simp] theorem left_begun (q : Seq) (w : W32) (i : Instr) : (q.begun w i).left = i.nopnd := by cases i <;> rfl
@[simp] theorem hdr_begun (q : Seq) (w : W32) (i : Instr) : (q.begun w i).hdr = w := by cases i <;> rfl

/-- A port that has taken an operand word in a state. -/
def PortState.took (q : PortState) (i : Instr) (w : W32) (rest : List W32) (s : State) : PortState :=
  { q with input := rest, seq := { operandSeq i w s q.seq with left := q.seq.left - 1 } }

/-- A port between commands. -/
def PortState.betweenCommands (q : PortState) : PortState := { q with seq := { q.seq with phase := .hdr } }

/-- The next state after a word that is no refused header: latched, or taken as an operand, and after the last word the
effect and the answer. -/
inductive Runs (i : Instr) (s : State) (w : W32) (rest : List W32) : State → Prop
  | latched (h : s.AtHeader w rest) (he : headerCheck i (lateOf i) s = none) (hn : i.nopnd ≠ 0) :
    Runs i s w rest (s.setPort s.cur (s.here.accepted i w rest))
  | finished (h : s.AtHeader w rest) (he : headerCheck i (lateOf i) s = none) (hn : i.nopnd = 0) :
    Runs i s w rest ((effectOf i [] s).setPort s.cur ((s.here.accepted i w rest).answer
      (answerOf i (s.setPort s.cur (s.here.accepted i w rest)))))
  | operand (hp : s.here.seq.phase = .opnd) (hi : s.here.input = w :: rest) (hl : s.here.seq.left - 1 ≠ 0) :
    Runs i s w rest ((sampleOf i w s).setPort s.cur (s.here.took i w rest s))
  | last (hp : s.here.seq.phase = .opnd) (hi : s.here.input = w :: rest) (hl : s.here.seq.left - 1 = 0) :
    Runs i s w rest ((effectOf i (s.here.took i w rest s).seq.buf (sampleOf i w s)).setPort s.cur
      ((s.here.took i w rest s).answer
        (answerOf i ((sampleOf i w s).setPort s.cur (s.here.took i w rest s)))).betweenCommands)

section
variable {i : Instr} {s t : State} {w : W32} {rest : List W32}

/-- A header that fails a check: the refusal in the words of the claims. -/
theorem exec_refused {e : ErrCode} (h : s.AtHeader w rest) (he : headerCheck i (lateOf i) s = some e) :
    exec i s = .next (s.setPort s.cur (s.here.afterRefusal rest e.bits)) := by
  rw [exec_eq, runWord_refused h.2 h.1 he, s.refuse_after e h.2]

/-- The header-time effect on a latched header. -/
theorem startOf_latch (hi : s.here.input = w :: rest) :
    startOf i (s.takeWord.latch w i.nopnd) = s.setPort s.cur
      { s.here with input := rest, seq := { s.here.seq.begun w i with phase := s.here.seq.phase } } := by
  cases i <;> simp [startOf, noStart, startProc, startPushs, Seq.begun, hi]

/-- An accepted header of a command with operands is latched. -/
theorem exec_latched (h : s.AtHeader w rest) (he : headerCheck i (lateOf i) s = none) (hn : i.nopnd ≠ 0) :
    exec i s = .next (s.setPort s.cur (s.here.accepted i w rest)) := by
  rw [exec_eq, runWord_latch h.2 h.1 he hn, startOf_latch h.2]
  simp [PortState.accepted, hn]

/-- An accepted header of a command without operands has its effect and its answer at once. -/
theorem exec_finished (h : s.AtHeader w rest) (he : headerCheck i (lateOf i) s = none) (hn : i.nopnd = 0) :
    exec i s = .next ((effectOf i [] s).setPort s.cur ((s.here.accepted i w rest).answer
      (answerOf i (s.setPort s.cur (s.here.accepted i w rest))))) := by
  obtain ⟨hp, hi⟩ := h
  have hstart : startOf i (s.takeWord.latch w 0) = s.setPort s.cur (s.here.accepted i w rest) := by
    have hl := startOf_latch (i := i) hi
    rw [hn] at hl
    rw [hl, PortState.accepted, if_pos hn, ← hp, State.seq_eq]
  have hbuf : (s.here.accepted i w rest).seq.buf = [] := by cases i <;> rfl
  rw [exec_eq, runWord_finish hi hp he hn, hstart, finishOf_setPort, hbuf]

/-- An operand word taken and counted. -/
theorem operandOf_countDown (hi : s.here.input = w :: rest) :
    (operandOf i w s.takeWord).countDown = (sampleOf i w s).setPort s.cur (s.here.took i w rest s) := by
  rw [State.takeWord_eq, operandOf_setPort, hi, List.tail_cons, State.countDown_eq, ← cur_sampleOf i w s]
  simp only [State.here_setPort, State.cur_setPort, State.setPort_setPort]
  congr 1
  cases i
  case afPushs ch n =>
    simp only [operandSeq, PortState.took]
    cases (s.feed (chanOf ch) w).1 <;> rfl
  all_goals rfl

/-- An operand word that is not the last. -/
theorem exec_operand (hp : s.here.seq.phase = .opnd) (hi : s.here.input = w :: rest) (hl : s.here.seq.left - 1 ≠ 0) :
    exec i s = .next ((sampleOf i w s).setPort s.cur (s.here.took i w rest s)) := by
  have hcd := operandOf_countDown (i := i) hi
  have hleft : (operandOf i w s.takeWord).countDown.seq.left = s.here.seq.left - 1 := by
    rw [hcd, State.seq_eq, ← cur_sampleOf i w s, State.here_setPort]; rfl
  rw [exec_eq, runWord_operand hi hp (hleft ▸ hl), hcd]

/-- The last operand word. -/
theorem exec_last (hp : s.here.seq.phase = .opnd) (hi : s.here.input = w :: rest) (hl : s.here.seq.left - 1 = 0) :
    exec i s = .next ((effectOf i (s.here.took i w rest s).seq.buf (sampleOf i w s)).setPort s.cur
      ((s.here.took i w rest s).answer
        (answerOf i ((sampleOf i w s).setPort s.cur (s.here.took i w rest s)))).betweenCommands) := by
  have hcd := operandOf_countDown (i := i) hi
  have hleft : (operandOf i w s.takeWord).countDown.seq.left = s.here.seq.left - 1 := by
    rw [hcd, State.seq_eq, ← cur_sampleOf i w s, State.here_setPort]; rfl
  rw [exec_eq, runWord_last hi hp (hleft.trans hl), hcd, ← cur_sampleOf i w s, finishOf_setPort, State.setPhase_eq,
    ← cur_effectOf i (s.here.took i w rest s).seq.buf (sampleOf i w s)]
  simp only [State.here_setPort, State.cur_setPort, State.setPort_setPort]
  rfl

/-- A header word that passes the checks runs. -/
theorem runs_of_header (h : s.AtHeader w rest) (he : headerCheck i (lateOf i) s = none) (hx : exec i s = .next t) :
    Runs i s w rest t := by
  by_cases hn : i.nopnd = 0
  · rw [exec_finished h he hn] at hx; cases hx; exact .finished h he hn
  · rw [exec_latched h he hn] at hx; cases hx; exact .latched h he hn

/-- An operand word runs. -/
theorem runs_of_operand (hp : s.here.seq.phase = .opnd) (hi : s.here.input = w :: rest) (hx : exec i s = .next t) :
    Runs i s w rest t := by
  by_cases hl : s.here.seq.left - 1 = 0
  · rw [exec_last hp hi hl] at hx; cases hx; exact .last hp hi hl
  · rw [exec_operand hp hi hl] at hx; cases hx; exact .operand hp hi hl

/-- What a command can do: wait for a word, refuse it, or run. -/
theorem exec_cases (h : exec i s = .next t) :
    (s.here.input = [] ∧ t = s) ∨
    (∃ w rest e, s.AtHeader w rest ∧ headerCheck i (lateOf i) s = some e ∧
      t = s.setPort s.cur (s.here.afterRefusal rest e.bits)) ∨
    ∃ w rest, Runs i s w rest t := by
  cases hi : s.here.input with
  | nil => rw [exec_eq, runWord_idle hi] at h; cases h; exact .inl ⟨rfl, rfl⟩
  | cons w rest =>
    refine .inr ?_
    cases hp : s.here.seq.phase with
    | hdr =>
      cases he : headerCheck i (lateOf i) s with
      | some e => rw [exec_refused ⟨hp, hi⟩ he] at h; cases h; exact .inl ⟨w, rest, e, ⟨hp, hi⟩, rfl, rfl⟩
      | none => exact .inr ⟨w, rest, runs_of_header ⟨hp, hi⟩ he h⟩
    | opnd => exact .inr ⟨w, rest, runs_of_operand hp hi h⟩

/-- A command never stops the machine (60_exceptions.md R265). -/
theorem exec_next (i : Instr) (s : State) : ∃ t, exec i s = .next t := by
  obtain ⟨t, ht, -⟩ := runWord_cases i (lateOf i) (startOf i) (operandOf i) (finishOf i) s
  exact ⟨t, by rw [exec_eq, ht]⟩

/-! ### What a step of a port can do -/

/-- A word that is no command fails a check. -/
theorem State.wordError_of_rejected {d : DecodeError} (hd : decode w = .rejected d) (s : State) (p : Port) :
    s.wordError p w ≠ none := by
  cases h1 : s.strapOk with
  | false => simp [State.wordError_badStrap h1]
  | true =>
    rcases decode_cases w with ⟨hc, -⟩ | ⟨op, hc, ⟨-, hi⟩ | ⟨hz, -⟩⟩
    · simp [State.wordError_noOpcode h1 hc]
    · simp [hd] at hi
    · cases h2 : op.onPort p with
      | false => simp [State.wordError_wrongPort h1 hc h2]
      | true => simp [State.wordError_illegalField h1 hc h2 (.inl hz)]

/-- A header word that passes the checks is a command, and that command's checks pass. -/
theorem decode_of_wordError_none {p : Port} (he : s.wordError p w = none) :
    ∃ i, decode w = .command i ∧ headerCheck i (lateOf i) (s.turnOf p) = none := by
  cases hd : decode w with
  | command i => exact ⟨i, rfl, State.wordError_of_command hd s p ▸ he⟩
  | rejected d => exact absurd he (State.wordError_of_rejected hd s p)

theorem State.atHeader_turnOf {p : Port} (h : s.HeaderNext p w rest) : (s.turnOf p).AtHeader w rest := by
  obtain ⟨-, hp, hi⟩ := h
  exact ⟨by rw [State.seq_eq, State.here_turnOf, hp], by rw [State.here_turnOf, hi]⟩

/-- The command a port's next word belongs to: the one the word decodes to, accepted, or the one whose header is latched. -/
def State.WordOf (s : State) (p : Port) (w : W32) (rest : List W32) (i : Instr) : Prop :=
  (s.HeaderNext p w rest ∧ decode w = .command i ∧ s.wordError p w = none) ∨
    ((s.port p).seq.phase = .opnd ∧ (s.port p).input = w :: rest ∧ decode (s.port p).seq.hdr = .command i)

/-- What a port's step can do: wait for a word, refuse a header, or run a command's word. -/
theorem step_port_cases {p : Port} (hp : s.nextTurn = .port p) (h : step s = .next t) :
    ((s.port p).input = [] ∧ t = s.turnOf p) ∨
    (∃ w rest e, s.HeaderNext p w rest ∧ s.wordError p w = some e ∧
      t = (s.turnOf p).setPort p ((s.port p).afterRefusal rest e.bits)) ∨
    ∃ w rest i, s.WordOf p w rest i ∧ Runs i (s.turnOf p) w rest t := by
  cases hi : (s.port p).input with
  | nil => rw [step_idle hp hi] at h; cases h; exact .inl ⟨rfl, rfl⟩
  | cons w rest =>
    refine .inr ?_
    cases hph : (s.port p).seq.phase with
    | hdr =>
      have hnext : s.HeaderNext p w rest := ⟨hp, hph, hi⟩
      cases he : s.wordError p w with
      | some e =>
        rw [refusedHeader s p w rest e hnext he] at h; cases h
        exact .inl ⟨w, rest, e, hnext, he, rfl⟩
      | none =>
        obtain ⟨i, hd, hcheck⟩ := decode_of_wordError_none he
        rw [step_header hnext hd] at h
        exact .inr ⟨w, rest, i, .inl ⟨hnext, hd, he⟩, runs_of_header (State.atHeader_turnOf hnext) hcheck h⟩
    | opnd =>
      cases hd : decode (s.port p).seq.hdr with
      | rejected e => rw [step_corrupt hp hph hi hd] at h; cases h
      | command i =>
        rw [step_operand hp hph hi hd] at h
        exact .inr ⟨w, rest, i, .inr ⟨hph, hi, hd⟩,
          runs_of_operand (by rw [State.here_turnOf, hph]) (by rw [State.here_turnOf, hi]) h⟩

end

end Sys2Proof.Machine
end

section
/-! The sequencer's claims (30_encoding.md R91, R107, 10_state.md R37): which headers are refused and with which code, what an
accepted header does, and that only a refusal touches the error flags. -/

namespace Sys2Proof.Machine

/-- Settles O13: the three equations of a port's step. -/
theorem stepRunsDecoded : Obligations.StepRunsDecoded := by
  unfold Obligations.StepRunsDecoded
  exact fun s p ht => ⟨fun w rest i hp hi hd => step_header ⟨ht, hp, hi⟩ hd,
    fun w rest i hp hi hd => step_operand ht hp hi hd, step_idle ht⟩

/-! ### Refusals (R107) -/

/-- The codes of a port's opcodes: the three that both have, then its own (R94, 60_exceptions.md R278). -/
def opcodesOf : Port → List Nat
  | .a => [0x00, 0x01, 0x02, 0x10, 0x11, 0x12, 0x13, 0x20]
  | .b => [0x00, 0x01, 0x02, 0x30, 0x31, 0x38, 0x39, 0x40]

theorem Opcode.code_mem_opcodesOf {op : Opcode} {p : Port} (h : op.onPort p = true) : op.code.toNat ∈ opcodesOf p := by
  revert h; cases p <;> cases op <;> decide

/-- Settles O7: such an opcode is in no row of the map, or in one of the other port. -/
theorem illegalOpcodeRefused : Obligations.IllegalOpcodeRefused := by
  unfold Obligations.IllegalOpcodeRefused
  intro s p w rest h hs hopc
  refine refusedHeader s p w rest .illop h ?_
  cases hc : Opcode.ofCode (Header.opc w) with
  | none => exact State.wordError_noOpcode hs hc
  | some op =>
    refine State.wordError_wrongPort hs hc (Bool.eq_false_iff.mpr fun hp => hopc ?_)
    have hmem := Opcode.code_mem_opcodesOf hp
    rw [Opcode.code_of_ofCode hc] at hmem
    cases p <;> exact hmem

/-- `BQ.BYP` to active fails its own check where some selected channel has no coefficients in the slot (R144). -/
theorem bypCheck_nocoef {s : State} {chm slot : BitVec 4} {c : Chan} {k : Fin 9} (hslot : legalSlot slot = true)
    (hsel : chm.getLsbD c.index = true) (hk : k.val = slot.toNat) (hcv : (s.slot c k).cv = false) :
    bypCheck chm slot 0 s = some .nocoef := by
  obtain rfl : slotOf slot = k := Fin.ext ((slotOf_val hslot).trans hk.symm)
  rw [← selects_eq] at hsel
  rw [bypCheck_eq, if_pos]
  cases c
  · exact ⟨rfl, .inl ⟨hsel, hcv⟩⟩
  · exact ⟨rfl, .inr ⟨hsel, hcv⟩⟩

/-- Settles O9: the first three checks pass, so the command's own check decides, and it fails. -/
theorem lateErrors : Obligations.LateErrors := by
  unfold Obligations.LateErrors
  intro s w rest hs h
  refine ⟨fun idx hnone => exec_refused (e := .csr) h ?rdcsr, fun idx hne => exec_refused (e := .csr) h ?wrcsr,
    fun chm slot c k hcur hwf hsel hk hcv => exec_refused (e := .nocoef) h ?bqByp⟩
  case rdcsr => rw [headerCheck_late hs (by cases s.cur <;> rfl) rfl, lateOf, rdcsrCheck_eq, if_pos hnone]
  case wrcsr => rw [headerCheck_late hs (by cases s.cur <;> rfl) rfl, lateOf, wrcsrCheck_eq, if_neg hne]
  case bqByp =>
    rw [headerCheck_late hs (by rw [hcur]; rfl) hwf]
    exact bypCheck_nocoef (Bool.and_eq_true_iff.mp hwf).2 hsel hk hcv

/-! ### Accepted headers (R91) -/

/-- Settles O11: the word is a command whose checks pass, so it is latched, or has its effect and its answer at once. -/
theorem acceptedHeader : Obligations.AcceptedHeader := by
  unfold Obligations.AcceptedHeader
  intro s p w rest h he
  obtain ⟨i, hd, hcheck⟩ := decode_of_wordError_none he
  have hat := State.atHeader_turnOf h
  refine ⟨i, hd, fun hn => ?latched, fun hn => ?finished⟩
  case latched =>
    have hphase : ((s.port p).seq.begun w i).phase = .opnd := by cases i <;> rfl
    rw [step_header h hd, exec_latched hat hcheck hn, State.here_turnOf, State.cur_turnOf, PortState.accepted, if_neg hn,
      ← hphase]
  case finished =>
    refine ⟨_, (step_header h hd).trans (exec_finished hat hcheck hn), ?_⟩
    rw [State.cur_turnOf, State.port_setPort_self, State.here_turnOf]
    refine ⟨rfl, if_pos hn, ?_, ?_, rfl, rfl⟩
    · exact hdr_begun _ w i
    · exact (left_begun _ w i).trans hn

/-- Settles O12: both commands keep their operands, and one word of several is left. -/
theorem operandKept : Obligations.OperandKept := by
  unfold Obligations.OperandKept
  rintro s n ws w rest chm slot stg slope ⟨hp, hleft, rfl, hi⟩
  have hl : s.here.seq.left - 1 = n + 1 := by rw [← State.seq_eq, hleft]; rfl
  constructor <;> rw [exec_operand hp hi (by omega), PortState.took, hl] <;> rfl

/-- Settles O17: a port waits, refuses or runs a command, none of which stops the machine; an operand's command is the one the
sequencer holds. -/
theorem everyStepCompletes : Obligations.EveryStepCompletes := by
  unfold Obligations.EveryStepCompletes
  intro s hseq
  cases hturn : s.nextTurn with
  | syncW c => exact ⟨_, step_syncW hturn⟩
  | syncR c => exact ⟨_, step_syncR hturn⟩
  | reset strap => exact ⟨_, step_reset hturn⟩
  | port p =>
    cases hi : (s.port p).input with
    | nil => exact ⟨_, step_idle hturn hi⟩
    | cons w rest =>
      cases hph : (s.port p).seq.phase with
      | hdr =>
        cases hd : decode w with
        | command i => rw [step_header ⟨hturn, hph, hi⟩ hd]; exact exec_next i _
        | rejected e => exact ⟨_, step_rejected ⟨hturn, hph, hi⟩ hd⟩
      | opnd =>
        have hok := hseq p
        rw [State.seqOk, hph] at hok
        obtain ⟨-, i, hd, -⟩ := hok
        rw [step_operand hturn hph hi hd]
        exact exec_next i _

/-! ### The error flags (10_state.md R37) -/

@[simp] theorem port_csrWrite (p p' : Port) (idx : BitVec 8) (w : W32) (s : State) :
    (csrWrite p' idx w s).port p = s.port p := by
  rw [csrWrite_cases]; split <;> cases p <;> rfl

@[simp] theorem port_sampleOf (i : Instr) (w : W32) (s : State) (p : Port) : (sampleOf i w s).port p = s.port p := by
  cases i
  case afPushs ch n =>
    obtain ⟨acc, fill, afmem, wptr, h⟩ := s.feed_frame (chanOf ch) w
    rw [sampleOf, h]; cases p <;> rfl
  all_goals cases p <;> rfl

@[simp] theorem port_effectOf (i : Instr) (ws : List W32) (s : State) (p : Port) : (effectOf i ws s).port p = s.port p := by
  cases i
  case wrcsr idx => exact port_csrWrite _ _ _ _ _
  case afPull ch | mfPull ch => simp only [effectOf]; split <;> cases p <;> rfl
  case fgStep ch =>
    simp only [effectOf]
    split
    · rfl
    · split <;> cases p <;> rfl
  all_goals cases p <;> rfl

/-- Two ports with the same error flags. -/
def PortState.SameFlags (q q' : PortState) : Prop := q'.err = q.err ∧ q'.ecode = q.ecode

theorem State.port_setPort (s : State) (p p' : Port) (q : PortState) :
    (s.setPort p q).port p' = if p' = p then q else s.port p' := by
  split
  · rename_i h; rw [h, State.port_setPort_self]
  · rename_i h; exact State.port_setPort_ne s h q

/-- A port's word that runs changes that port and no other. -/
theorem Runs.port_ne {i : Instr} {s t : State} {w : W32} {rest : List W32} (h : Runs i s w rest t) {p : Port}
    (hp : p ≠ s.cur) : t.port p = s.port p := by
  cases h <;> rw [State.port_setPort_ne _ hp] <;> simp

/-- A word that runs leaves every error flag as it was. -/
theorem Runs.sameFlags {i : Instr} {s t : State} {w : W32} {rest : List W32} (h : Runs i s w rest t) (p : Port) :
    (s.port p).SameFlags (t.port p) := by
  by_cases hp : p = s.cur
  · subst hp
    cases h <;> rw [State.port_setPort_self] <;> exact ⟨rfl, rfl⟩
  · rw [h.port_ne hp]; exact ⟨rfl, rfl⟩

/-- Settles O10: only a refusal touches the flags, those of its own port: it sets `ERR` and keeps the first code. -/
theorem errorsAreSticky : Obligations.ErrorsAreSticky := by
  unfold Obligations.ErrorsAreSticky
  intro s t p hreset h
  have same (hf : (s.port p).SameFlags (t.port p)) :
      ((s.port p).err = true → (t.port p).err = true ∧ (t.port p).ecode = (s.port p).ecode) ∧
      ((s.port p).err = false → (t.port p).err = true →
        ∃ w rest e, s.HeaderNext p w rest ∧ s.wordError p w = some e ∧ (t.port p).ecode = e.bits) := by
    obtain ⟨herr, hcode⟩ := hf
    exact ⟨fun hs => ⟨herr.trans hs, hcode⟩, fun hs ht => absurd (herr.symm.trans ht) (by simp [hs])⟩
  cases hturn : s.nextTurn with
  | reset strap => exact absurd hturn (hreset strap)
  | syncW c => rw [step_syncW hturn] at h; cases h; exact same (by cases p <;> exact ⟨rfl, rfl⟩)
  | syncR c => rw [step_syncR hturn] at h; cases h; exact same (by cases p <;> exact ⟨rfl, rfl⟩)
  | port p' =>
    rcases step_port_cases hturn h with ⟨-, rfl⟩ | ⟨w, rest, e, hw, he, rfl⟩ | ⟨w, rest, i, -, hrun⟩
    · exact same (by rw [State.port_turnOf]; exact ⟨rfl, rfl⟩)
    · by_cases hp : p = p'
      · subst hp
        rw [State.port_setPort_self]
        exact ⟨fun hs => ⟨rfl, if_pos hs⟩, fun hs _ => ⟨w, rest, e, hw, he, if_neg (by simp [hs])⟩⟩
      · exact same (by rw [State.port_setPort_ne _ hp, State.port_turnOf]; exact ⟨rfl, rfl⟩)
    · exact same (by simpa using hrun.sameFlags p)

end Sys2Proof.Machine
end

section
/-! What a word of a command can change outside its port, said once (10_state.md R20, column "written by"): eleven changes, each
written out as the fields it replaces. The frame of every command (R20, 20_memory.md R60) and what every step keeps of the
memories are read off the list. -/

namespace Sys2Proof.Machine

/-- The changes outside the port that a word of a command can make. -/
inductive Changes : Instr → State → State → Prop
  | same (i : Instr) (s : State) : Changes i s s
  | chain (ch : BitVec 4) (n : BitVec 16) (s : State) (w : W32) :
    Changes (.bqProc ch n) s (s.setSlots (chanOf ch) (chainStep (s.x.get (chanOf ch)) w).2)
  | sample (ch : BitVec 4) (n : BitVec 16) (s : State) (w : W32) (f : Nat) (hf : f = 0 ∨ f < s.blkLen) :
    Changes (.afPushs ch n) s (s.withSample (chanOf ch) w f)
  | push (ch : BitVec 4) (n : BitVec 16) (s : State) (w : W32) :
    Changes (.afPushs ch n) s { s.withSample (chanOf ch) w 0 with
      afmem := s.afmem.writeN (afAddr s.inst (chanOf ch) (ringSlot (s.wptr.get (chanOf ch)))) (s.fullBlock (chanOf ch) w)
      wptr := s.wptr.set (chanOf ch) (s.wptr.get (chanOf ch) + 1) }
  | floor (idx : BitVec 8) (s : State) (w : W32) (h : csrWritable s.cur idx = true) :
    Changes (.wrcsr idx) s { s with floor := w }
  | setc (chm slot : BitVec 4) (s : State) (k : Coefs) :
    Changes (.bqSetc chm slot) s (s.onSelected chm (installCoefs (slotOf slot) k))
  | byp (chm slot : BitVec 4) (v : BitVec 1) (s : State) :
    Changes (.bqByp chm slot v) s (s.onSelected chm (setByp (slotOf slot) (v == 1)))
  | cutupd (chm stg slope : BitVec 4) (s : State) (ws : List W32) :
    Changes (.bqCutupd chm stg slope) s (s.onSelected chm (cutUpdate stg (nsec slope) ws))
  | afPull (ch : BitVec 4) (s : State) :
    Changes (.afPull ch) s { s with rptr := s.rptr.set (chanOf ch) (s.rptr.get (chanOf ch) + 1) }
  | mfPull (ch : BitVec 4) (s : State) :
    Changes (.mfPull ch) s { s with mr := s.mr.set (chanOf ch) (s.mr.get (chanOf ch) + 1) }
  | slid (ch : BitVec 4) (s : State) : Changes (.fgStep ch) s (s.fgSlid (chanOf ch))
  | vector (ch : BitVec 4) (s : State) : Changes (.fgStep ch) s ((s.fgSlid (chanOf ch)).withVector (chanOf ch))

section
variable {i : Instr} {s t u : State} {w : W32} {rest : List W32}

/-- A sample fed is in the accumulator, and where it completes a block that finds room the block is in the ring. -/
theorem changes_feed (ch : BitVec 4) (n : BitVec 16) (w : W32) (s : State) :
    Changes (.afPushs ch n) s (s.feed (chanOf ch) w).2 := by
  by_cases h : s.fill.get (chanOf ch) + 1 < s.blkLen
  · rw [State.feed_partial w h]; exact .sample ch n s w _ (.inr h)
  · by_cases hf : s.occA (chanOf ch) = cap
    · rw [State.feed_dropped w h hf]; exact .sample ch n s w 0 (.inl rfl)
    · rw [State.feed_pushed w h hf]; exact .push ch n s w

theorem changes_sampleOf (i : Instr) (w : W32) (s : State) : Changes i s (sampleOf i w s) := by
  cases i
  case bqProc ch n => exact .chain ch n s w
  case afPushs ch n => exact changes_feed ch n w s
  all_goals exact .same _ s

theorem changes_effectOf (i : Instr) (ws : List W32) (s : State) : Changes i s (effectOf i ws s) := by
  cases i
  case wrcsr idx =>
    rw [effectOf, csrWrite_cases]
    split
    · rename_i h; exact .floor idx s _ h
    · exact .same _ s
  case bqSetc chm slot => exact .setc chm slot s _
  case bqByp chm slot v => exact .byp chm slot v s
  case bqCutupd chm stg slope => exact .cutupd chm stg slope s ws
  case afPull ch =>
    rw [effectOf]; split
    · exact .same _ s
    · exact .afPull ch s
  case mfPull ch =>
    rw [effectOf]; split
    · exact .same _ s
    · exact .mfPull ch s
  case fgStep ch =>
    rw [effectOf]; split
    · exact .same _ s
    · split
      · exact .slid ch s
      · exact .vector ch s
  all_goals exact .same _ s

/-- A command that does something with each operand word has no effect left when it finishes. -/
theorem changes_effectOf_sampleOf (i : Instr) (ws : List W32) (w : W32) (s : State) :
    Changes i s (effectOf i ws (sampleOf i w s)) := by
  cases i
  case bqProc ch n => exact .chain ch n s w
  case afPushs ch n => exact changes_feed ch n w s
  all_goals exact changes_effectOf _ ws s

theorem Runs.changes (h : Runs i s w rest t) : ∃ u q, Changes i s u ∧ t = u.setPort s.cur q := by
  cases h with
  | latched => exact ⟨_, _, .same i s, rfl⟩
  | finished => exact ⟨_, _, changes_effectOf i [] s, rfl⟩
  | operand => exact ⟨_, _, changes_sampleOf i w s, rfl⟩
  | last => exact ⟨_, _, changes_effectOf_sampleOf i _ w s, rfl⟩

/-- A command changes its own port, and outside it one of the listed things or nothing. -/
theorem exec_changes (h : exec i s = .next t) : ∃ u q, Changes i s u ∧ t = u.setPort s.cur q := by
  rcases exec_cases h with ⟨-, rfl⟩ | ⟨w, rest, e, -, -, rfl⟩ | ⟨w, rest, hrun⟩
  · exact ⟨t, t.here, .same i t, (State.setPort_port t t.cur).symm⟩
  · exact ⟨s, _, .same i s, rfl⟩
  · exact hrun.changes

/-- So does a port's step. -/
theorem step_port_changes {p : Port} (hp : s.nextTurn = .port p) (h : step s = .next t) :
    ∃ i u q, Changes i (s.turnOf p) u ∧ t = u.setPort p q := by
  rcases step_port_cases hp h with ⟨-, rfl⟩ | ⟨w, rest, e, -, -, rfl⟩ | ⟨w, rest, i, -, hrun⟩
  · exact ⟨.nop, _, _, .same _ _, (State.setPort_port _ p).symm⟩
  · exact ⟨.nop, _, _, .same _ _, rfl⟩
  · obtain ⟨u, q, hu, rfl⟩ := hrun.changes
    exact ⟨i, u, q, hu, rfl⟩

/-! ### Which command writes which state (10_state.md R20) -/

/-- What no command writes: the copies, the strap, the parameters and the model's own fields. -/
theorem Changes.constants (h : Changes i s u) :
    u.wptrSeen = s.wptrSeen ∧ u.rptrSeen = s.rptrSeen ∧ u.blklen = s.blklen ∧ u.inst = s.inst ∧
      u.cur = s.cur ∧ u.sched = s.sched ∧ u.ticks = s.ticks := by
  cases h <;> exact ⟨rfl, rfl, rfl, rfl, rfl, rfl, rfl⟩

theorem Changes.port (h : Changes i s u) (p : Port) : u.port p = s.port p := by cases h <;> cases p <;> rfl

theorem Changes.accumulator (h : Changes i s u) (hi : ∀ ch n, i ≠ .afPushs ch n) :
    u.acc = s.acc ∧ u.fill = s.fill ∧ u.afmem = s.afmem ∧ u.wptr = s.wptr := by
  cases h
  case sample ch n _ _ _ | push ch n _ => exact absurd rfl (hi ch n)
  all_goals exact ⟨rfl, rfl, rfl, rfl⟩

theorem Changes.rptr (h : Changes i s u) (hi : ∀ ch, i ≠ .afPull ch) (hi' : ∀ ch, i ≠ .fgStep ch) : u.rptr = s.rptr := by
  cases h
  case afPull ch => exact absurd rfl (hi ch)
  case slid ch | vector ch => exact absurd rfl (hi' ch)
  all_goals rfl

theorem Changes.extractor (h : Changes i s u) (hi : ∀ ch, i ≠ .fgStep ch) :
    u.slide = s.slide ∧ u.mfmem = s.mfmem ∧ u.mw = s.mw := by
  cases h
  case slid ch | vector ch => exact absurd rfl (hi ch)
  all_goals exact ⟨rfl, rfl, rfl⟩

theorem Changes.mr (h : Changes i s u) (hi : ∀ ch, i ≠ .mfPull ch) : u.mr = s.mr := by
  cases h
  case mfPull ch => exact absurd rfl (hi ch)
  all_goals rfl

theorem Changes.floor_eq (h : Changes i s u) (hi : ¬ (i = .wrcsr 0x04 ∧ s.cur = .b)) : u.floor = s.floor := by
  cases h
  case floor idx w hw =>
    obtain ⟨hb, rfl⟩ := (csrWritable_iff _ _).mp hw
    exact absurd ⟨rfl, hb⟩ hi
  all_goals rfl

/-! ### The section slots (10_state.md R21 to R25) -/

theorem State.slot_setSlots (s : State) (d : Chan) (v : Slots) (c : Chan) (k : Fin 9) :
    (s.setSlots d v).slot c k = if c = d then v[k] else s.slot c k := by
  rw [State.slot_eq, State.x_setSlots, PerChan.get_set]; split <;> rfl

/-- What a word of a command can do to a section. -/
inductive SlotChanges : Instr → Section → Section → Prop
  | same (i : Instr) (r : Section) : SlotChanges i r r
  | step (ch : BitVec 4) (n : BitVec 16) (r : Section) (x : W32) : SlotChanges (.bqProc ch n) r (secStep r x).2
  | setc (chm slot : BitVec 4) (r : Section) (k : Coefs) : SlotChanges (.bqSetc chm slot) r (r.withCoefs k)
  | byp (chm slot : BitVec 4) (v : BitVec 1) (r : Section) : SlotChanges (.bqByp chm slot v) r (r.withByp (v == 1))
  | enabled (chm stg slope : BitVec 4) (r : Section) (k : Coefs) :
    SlotChanges (.bqCutupd chm stg slope) r ((r.withCoefs k).withByp false)
  | disabled (chm stg slope : BitVec 4) (r : Section) : SlotChanges (.bqCutupd chm stg slope) r (r.withByp true)

theorem slotChanges_onSelected {chm : BitVec 4} {f : Slots → Slots}
    (hf : ∀ (v : Slots) (k : Fin 9), SlotChanges i v[k] (f v)[k]) (c : Chan) (k : Fin 9) :
    SlotChanges i (s.slot c k) ((s.onSelected chm f).slot c k) := by
  rw [State.slot_onSelected]; split
  · exact hf _ k
  · exact .same i _

theorem Changes.slot (h : Changes i s u) (c : Chan) (k : Fin 9) : SlotChanges i (s.slot c k) (u.slot c k) := by
  cases h
  case chain ch n w =>
    rw [State.slot_setSlots]; split
    · rename_i hc; subst hc; rw [chainStep_get]; exact .step ch n _ _
    · exact .same _ _
  case setc chm slot q =>
    refine slotChanges_onSelected (fun v k => ?_) c k
    rw [installCoefs_get]; split
    · exact .setc chm slot _ q
    · exact .same _ _
  case byp chm slot v =>
    refine slotChanges_onSelected (fun v' k => ?_) c k
    rw [setByp_get]; split
    · exact .byp chm slot v _
    · exact .same _ _
  case cutupd chm stg slope ws =>
    refine slotChanges_onSelected (fun v k => ?_) c k
    rw [cutUpdate_get]; split
    · split
      · exact .enabled chm stg slope _ _
      · exact .disabled chm stg slope _
    · exact .same _ _
  all_goals exact .same _ _

section
variable {r r' : Section}

theorem SlotChanges.coefs (h : SlotChanges i r r') (hi : Writers.coefs i = false) : r'.coef = r.coef ∧ r'.cv = r.cv := by
  cases h
  case step x => obtain ⟨hk, hcv, -⟩ := secStep_keeps r x; exact ⟨hk, hcv⟩
  case setc | enabled | disabled => cases hi
  all_goals exact ⟨rfl, rfl⟩

theorem SlotChanges.byp_eq (h : SlotChanges i r r') (hi : Writers.byp i = false) : r'.byp = r.byp := by
  cases h
  case step x => obtain ⟨-, -, hb⟩ := secStep_keeps r x; exact hb
  case byp | enabled | disabled => cases hi
  all_goals rfl

theorem SlotChanges.history_eq (h : SlotChanges i r r') (hi : Writers.history i = false ∨ r.byp = true) :
    r'.history = r.history := by
  cases h
  case step x =>
    obtain hw | hb := hi
    · cases hw
    · rw [secStep_bypassed hb]
  all_goals rfl

end

/-- Settles O18: each clause is read off the list of changes. -/
theorem writersOfState : Obligations.WritersOfState := by
  unfold Obligations.WritersOfState
  intro i s t h
  obtain ⟨u, q, hu, rfl⟩ := exec_changes h
  obtain ⟨hws, hrs, hb, hinst, hcur, hsched, hticks⟩ := hu.constants
  simp only [State.slot_setPort, State.acc_setPort, State.fill_setPort, State.afmem_setPort, State.wptr_setPort,
    State.rptr_setPort, State.slide_setPort, State.mfmem_setPort, State.mw_setPort, State.mr_setPort, State.floor_setPort,
    State.wptrSeen_setPort, State.rptrSeen_setPort, State.blklen_setPort, State.inst_setPort, State.cur_setPort,
    State.sched_setPort, State.ticks_setPort]
  refine ⟨fun hi c k => (hu.slot c k).coefs hi, fun hi c k => (hu.slot c k).byp_eq hi, fun c k hi => ?histories,
    hu.accumulator, hu.rptr, hu.extractor, hu.mr, hu.floor_eq, hws, hrs, hb, hinst, fun p hp => ?ports, hcur, hsched, hticks⟩
  case histories => simpa [Section.history] using (hu.slot c k).history_eq hi
  case ports => rw [State.port_setPort_ne _ hp, hu.port]

/-! ### The words a store leaves alone (20_memory.md R60) -/

theorem State.length_fullBlock (s : State) (c : Chan) (w : W32) : (s.fullBlock c w).length = s.blkLen :=
  Memory.length_readN _ _ _

@[simp] theorem length_magVector (inst : Params) (floor : W32) (samples : List W32) :
    (magVector inst floor samples).length = inst.nbins := by
  rw [magVector_eq_map, List.length_map, List.length_range]

/-- Sliding a block in writes no word outside the channel's buffer. -/
theorem State.slideIn_read_outside {c : Chan} {blk : List W32} {a : Nat} (hn : s.blkLen ≤ s.inst.n)
    (hb : blk.length = s.blkLen) (ha : a < c.index * s.inst.n ∨ c.index * s.inst.n + s.inst.n ≤ a) :
    (s.slideIn c blk).slide.read a = s.slide.read a := by
  refine Memory.read_writeN_outside _ _ _ ?_
  rw [← State.slideWords, State.length_slideWords hn hb]
  exact ha

/-- Settles O39: a sample writes the cursor's word and a block the slot of the write index; a slide fills the channel's buffer
and a vector the slot of the write index. -/
theorem storesLeaveOtherWords : Obligations.StoresLeaveOtherWords := by
  unfold Obligations.StoresLeaveOtherWords
  refine ⟨fun s t ch n c hch h => ?_, fun s t ch c hch hn h => ?_⟩
  · obtain ⟨u, q, hu, rfl⟩ := exec_changes h
    rw [State.acc_setPort, State.afmem_setPort]
    obtain rfl := chanOf_index hch
    cases hu
    case same => exact ⟨fun _ _ => rfl, fun _ _ => rfl⟩
    case sample w f hf => exact ⟨fun a ha => Memory.read_write_ne _ ha w, fun _ _ => rfl⟩
    case push w =>
      refine ⟨fun a ha => Memory.read_write_ne _ ha w, fun a ha => Memory.read_writeN_outside _ _ _ ?_⟩
      rw [State.length_fullBlock]; exact ha
  · obtain ⟨u, q, hu, rfl⟩ := exec_changes h
    rw [State.slide_setPort, State.mfmem_setPort]
    obtain rfl := chanOf_index hch
    have hslid (a : Nat) := State.slideIn_read_outside (c := chanOf ch)
      (s := { s with rptr := s.rptr.set (chanOf ch) (s.rptr.get (chanOf ch) + 1) }) (blk := s.afHead (chanOf ch)) (a := a)
      hn (Memory.length_readN _ _ _)
    cases hu
    case same => exact ⟨fun _ _ => rfl, fun _ _ => rfl⟩
    case slid => exact ⟨hslid, fun _ _ => rfl⟩
    case vector =>
      refine ⟨hslid, fun a ha => Memory.read_writeN_outside _ _ _ ?_⟩
      rw [State.fgVector, length_magVector]; exact ha

end

end Sys2Proof.Machine
end

section
/-! The machine's invariant (10_state.md, 42_block_fifo.md R175, 30_encoding.md R91): each clause is kept by every change a word
can make and by the port's own update, so by every port's step; the synchronisers touch the ring counts alone, and a reset
starts afresh. -/

namespace Sys2Proof.Machine

section
variable {i : Instr} {s t u : State} {w : W32} {rest : List W32}

/-! ### Canonical memories -/

theorem State.memoryCanonical_iff :
    s.memoryCanonical = true ↔ s.acc.wf = true ∧ s.afmem.wf = true ∧ s.slide.wf = true ∧ s.mfmem.wf = true := by
  simp [State.memoryCanonical, and_assoc]

/-- A word writes memories by `Memory.write` and `Memory.writeN` alone, which keep the canonical form. -/
theorem Changes.memoryCanonical (h : Changes i s u) (hs : s.memoryCanonical = true) : u.memoryCanonical = true := by
  rw [State.memoryCanonical_iff] at hs ⊢
  obtain ⟨hacc, haf, hslide, hmf⟩ := hs
  cases h
  case sample => exact ⟨Memory.wf_write hacc _ _, haf, hslide, hmf⟩
  case push => exact ⟨Memory.wf_write hacc _ _, Memory.wf_writeN haf _ _, hslide, hmf⟩
  case slid => exact ⟨hacc, haf, Memory.wf_writeN hslide _ _, hmf⟩
  case vector => exact ⟨hacc, haf, Memory.wf_writeN hslide _ _, Memory.wf_writeN hmf _ _⟩
  all_goals exact ⟨hacc, haf, hslide, hmf⟩

theorem memoryCanonical_setPort (s : State) (p : Port) (q : PortState) :
    (s.setPort p q).memoryCanonical = s.memoryCanonical := by cases p <;> rfl

/-- Settles O54: a port changes memories as its words do, a synchroniser none, and a reset empties them. -/
theorem memoryStaysCanonical : Obligations.MemoryStaysCanonical := by
  unfold Obligations.MemoryStaysCanonical
  intro s t hs h
  cases hturn : s.nextTurn with
  | syncW c => rw [step_syncW hturn] at h; cases h; exact hs
  | syncR c => rw [step_syncR hturn] at h; cases h; exact hs
  | reset strap => rw [step_reset hturn] at h; cases h; rfl
  | port p =>
    obtain ⟨i, u, q, hu, rfl⟩ := step_port_changes hturn h
    rw [memoryCanonical_setPort]
    exact hu.memoryCanonical hs

/-! ### Cursors (10_state.md R26) -/

theorem State.strapOk_congr (hb : t.blklen = s.blklen) (hi : t.inst = s.inst) : t.strapOk = s.strapOk := by
  unfold State.strapOk; rw [hb, hi]

theorem Changes.strapOk (h : Changes i s u) : u.strapOk = s.strapOk := by
  obtain ⟨-, -, hb, hinst, -⟩ := h.constants
  exact State.strapOk_congr hb hinst

/-- A sample moves the cursor on within the block, or back to 0, which is within a block of any length. -/
theorem Changes.cursorOk (h : Changes i s u) {c : Chan} (hs : s.cursorOk c) : u.cursorOk c := by
  intro hstrap
  rw [h.strapOk] at hstrap
  have hfill := hs hstrap
  have hpos : 0 < s.blkLen := (State.strapOk_iff.mp hstrap).1
  cases h
  case sample ch n w f hf =>
    have hlt : f < s.blkLen := hf.elim (fun h0 => h0 ▸ hpos) id
    show (s.fill.set (chanOf ch) f).get c < s.blkLen
    rw [PerChan.get_set]; split <;> assumption
  case push ch n w =>
    show (s.fill.set (chanOf ch) 0).get c < s.blkLen
    rw [PerChan.get_set]; split <;> assumption
  all_goals exact hfill

/-! ### Coefficients behind every active section (10_state.md R24) -/

/-- Only `BQ.BYP` can make a section active without giving it coefficients. -/
theorem SlotChanges.active {r r' : Section} (h : SlotChanges i r r') (hi : i.opcode ≠ .bqByp)
    (hr : r.byp = false → r.cv = true) : r'.byp = false → r'.cv = true := by
  cases h
  case step x =>
    obtain ⟨-, hcv, hb⟩ := secStep_keeps r x
    rw [hcv, hb]; exact hr
  case byp => exact absurd rfl hi
  case setc | enabled => exact fun _ => rfl
  case disabled => nofun
  case same => exact hr

theorem Changes.activeHaveCoefs (h : Changes i s u) (hi : i.opcode ≠ .bqByp) (hs : s.activeHaveCoefs) : u.activeHaveCoefs :=
  fun c k => (h.slot c k).active hi (hs c k)

/-- `BQ.BYP` makes a section active only after its check that every selected channel has coefficients there (R144). -/
theorem effectOf_bqByp_activeHaveCoefs {chm slot : BitVec 4} {v : BitVec 1} (hcheck : bypCheck chm slot v s = none)
    (hs : s.activeHaveCoefs) (ws : List W32) : (effectOf (.bqByp chm slot v) ws s).activeHaveCoefs := by
  intro c k
  rw [effectOf, State.slot_onSelected]
  split
  · rename_i hsel
    rw [setByp_get]; split
    · rename_i hk
      subst hk
      intro hb
      have hv : v = 0 := (by decide : ∀ v : BitVec 1, (v == 1) = false → v = 0) v hb
      rw [bypCheck_eq] at hcheck
      by_contra hcv
      have hcv' : (s.slot c (slotOf slot)).cv = false := Bool.eq_false_iff.mpr hcv
      rw [← selects_eq] at hsel
      rw [if_pos ⟨hv, by cases c <;> simp [hsel, hcv']⟩] at hcheck
      cases hcheck
    · exact hs c k
  · exact hs c k

/-- The three checks every accepted header has passed (R107), and its command's own. -/
theorem headerCheck_eq_none {late : State → Option ErrCode} (h : headerCheck i late s = none) :
    s.strapOk = true ∧ i.opcode.onPort s.cur = true ∧ i.fieldsLegal = true ∧ late s = none := by
  unfold headerCheck at h
  cases h1 : s.strapOk <;> cases h2 : i.opcode.onPort s.cur <;> cases h3 : i.fieldsLegal <;> simp_all

theorem activeHaveCoefs_setPort (p : Port) (q : PortState) : (s.setPort p q).activeHaveCoefs ↔ s.activeHaveCoefs := by
  simp only [State.activeHaveCoefs, State.slot_setPort]

/-! ### The sequencer (30_encoding.md R91) -/

theorem State.seqOk_hdr {p : Port} (h : (s.port p).seq.phase = .hdr) : s.seqOk p ↔ (s.port p).seq.left = 0 := by
  unfold State.seqOk; rw [h]

theorem State.seqOk_opnd {p : Port} (h : (s.port p).seq.phase = .opnd) :
    s.seqOk p ↔ s.strapOk = true ∧ ∃ i, decode (s.port p).seq.hdr = .command i ∧ i.opcode.onPort p = true ∧
      i.fieldsLegal = true ∧ 1 ≤ (s.port p).seq.left ∧ (s.port p).seq.left ≤ i.nopnd ∧ (s.port p).seq.holds p i := by
  unfold State.seqOk; rw [h]

/-- The state of a port's sequencer and the strap decide whether the sequencer is in order. -/
theorem State.seqOk_congr {p : Port} (hq : (t.port p).seq = (s.port p).seq) (hs : t.strapOk = s.strapOk) :
    t.seqOk p ↔ s.seqOk p := by
  unfold State.seqOk; rw [hq, hs]

/-- In mid-command the latched header's command is one of this port with an operand to come. -/
theorem State.seqOk.inCommand {p : Port} (h : s.seqOk p) (hph : (s.port p).seq.phase = .opnd)
    (hd : decode (s.port p).seq.hdr = .command i) :
    s.strapOk = true ∧ i.opcode.onPort p = true ∧ i.fieldsLegal = true ∧ 1 ≤ (s.port p).seq.left ∧
      (s.port p).seq.left ≤ i.nopnd ∧ (s.port p).seq.holds p i := by
  obtain ⟨hstrap, i', hd', hrest⟩ := (State.seqOk_opnd hph).mp h
  obtain rfl : i' = i := Decoded.command.inj (hd'.symm.trans hd)
  exact ⟨hstrap, hrest⟩

/-- A latched header leaves what its command holds before the first operand. -/
theorem Seq.holds_begun (q : Seq) {p : Port} (hlate : lateOf i s = none) (hcur : s.cur = p) (w : W32) :
    (q.begun w i).holds p i := by
  cases i
  case bqProc ch n => exact Nat.zero_add _
  case afPushs ch n => simp [Seq.begun, Seq.holds, Instr.nopnd]
  case wrcsr idx =>
    have hw : csrWritable s.cur idx = true := by
      by_contra hne
      rw [lateOf, wrcsrCheck, if_neg hne] at hlate
      cases hlate
    exact ⟨rfl, hcur ▸ hw⟩
  all_goals exact Nat.zero_add _

/-- An operand word taken leaves what its command holds one operand later. -/
theorem Seq.holds_operandSeq {q : Seq} {p : Port} (h : q.holds p i) (hl : 1 ≤ q.left) (w : W32) (s : State) :
    ({ operandSeq i w s q with left := q.left - 1 } : Seq).holds p i := by
  cases i
  case bqProc ch n => simp only [Seq.holds, operandSeq, List.length_append, List.length_singleton] at h ⊢; omega
  case afPushs ch n =>
    simp only [Seq.holds, operandSeq] at h ⊢
    cases (s.feed (chanOf ch) w).1 <;> simp only [Seq.count] <;> omega
  case wrcsr idx =>
    simp only [Seq.holds, operandSeq, List.length_append, List.length_singleton] at h ⊢
    exact ⟨by omega, h.2⟩
  all_goals simp only [Seq.holds, operandSeq, List.length_append, List.length_singleton] at h ⊢; omega

@[simp] theorem phase_operandSeq (i : Instr) (w : W32) (s : State) (q : Seq) : (operandSeq i w s q).phase = q.phase := by
  cases i
  case afPushs ch n => simp only [operandSeq]; cases (s.feed (chanOf ch) w).1 <;> rfl
  all_goals rfl

@[simp] theorem hdr_operandSeq (i : Instr) (w : W32) (s : State) (q : Seq) : (operandSeq i w s q).hdr = q.hdr := by
  cases i
  case afPushs ch n => simp only [operandSeq]; cases (s.feed (chanOf ch) w).1 <;> rfl
  all_goals rfl

theorem Runs.strapOk (h : Runs i s w rest t) : t.strapOk = s.strapOk := by
  obtain ⟨u, q, hu, rfl⟩ := h.changes
  rw [← hu.strapOk]
  exact State.strapOk_congr (State.blklen_setPort _ _ _) (State.inst_setPort _ _ _)

/-- The words `i` is the command of: the header that decodes to it, or an operand while its header is latched. -/
def State.DecodesTo (s : State) (w : W32) (i : Instr) : Prop :=
  (s.here.seq.phase = .hdr → decode w = .command i) ∧ (s.here.seq.phase = .opnd → decode s.here.seq.hdr = .command i)

/-- A word that runs leaves its own port's sequencer in order: a latched header counts its operands, an operand counts one
down, and after the last nothing is to come. -/
theorem Runs.seqOk (h : Runs i s w rest t) (hs : s.seqOk s.cur) (hd : s.DecodesTo w i) : t.seqOk s.cur := by
  have hstrap := h.strapOk
  cases h with
  | latched hat he hn =>
    obtain ⟨h1, h2, h3, h4⟩ := headerCheck_eq_none he
    have hport := State.port_setPort_self s s.cur (s.here.accepted i w rest)
    refine (State.seqOk_opnd (by rw [hport]; exact if_neg hn)).mpr ?_
    rw [hport]
    refine ⟨hstrap.trans h1, i, ?_, h2, h3, ?_, ?_, ?_⟩
    · exact (congrArg decode (hdr_begun _ w i)).trans (hd.1 hat.1)
    · exact (Nat.one_le_iff_ne_zero.mpr hn).trans_eq (left_begun _ w i).symm
    · exact (left_begun _ w i).le
    · have hholds := Seq.holds_begun s.here.seq h4 rfl w
      cases i <;> exact hholds
  | finished hat he hn =>
    have hport := State.port_setPort_self (effectOf i [] s) s.cur ((s.here.accepted i w rest).answer
      (answerOf i (s.setPort s.cur (s.here.accepted i w rest))))
    refine (State.seqOk_hdr (by rw [hport]; exact if_pos hn)).mpr ?_
    rw [hport]
    exact (left_begun _ w i).trans hn
  | operand hp hi hl =>
    obtain ⟨h1, h2, h3, hlo, hhi, hholds⟩ := hs.inCommand hp (hd.2 hp)
    have hport := State.port_setPort_self (sampleOf i w s) s.cur (s.here.took i w rest s)
    refine (State.seqOk_opnd (by rw [hport]; exact (phase_operandSeq _ _ _ _).trans hp)).mpr ?_
    rw [hport]
    refine ⟨hstrap.trans h1, i, ?_, h2, h3, ?_, ?_, ?_⟩
    · exact (congrArg decode (hdr_operandSeq i w s _)).trans (hd.2 hp)
    · exact Nat.one_le_iff_ne_zero.mpr hl
    · exact (Nat.sub_le _ 1).trans hhi
    · exact Seq.holds_operandSeq hholds hlo w s
  | last hp hi hl =>
    refine (State.seqOk_hdr (by rw [State.port_setPort_self]; rfl)).mpr ?_
    rw [State.port_setPort_self]
    exact hl

/-! ### Through every step -/

/-- A command's word at a port's turn is one of its command. -/
theorem State.WordOf.decodesTo {p : Port} (h : s.WordOf p w rest i) : (s.turnOf p).DecodesTo w i := by
  unfold State.DecodesTo
  rw [State.here_turnOf]
  rcases h with ⟨⟨-, hph, -⟩, hd, -⟩ | ⟨hph, -, hd⟩
  · exact ⟨fun _ => hd, fun h => nomatch hph.symm.trans h⟩
  · exact ⟨fun h => (nomatch hph.symm.trans h), fun _ => hd⟩

theorem State.seqOk_turnOf (p p' : Port) : (s.turnOf p).seqOk p' ↔ s.seqOk p' :=
  State.seqOk_congr (by rw [State.port_turnOf]) rfl

/-- A port's step leaves both sequencers in order. -/
theorem seqOk_step_port {p : Port} (hp : s.nextTurn = .port p) (h : step s = .next t) (hs : ∀ p', s.seqOk p') (p' : Port) :
    t.seqOk p' := by
  rcases step_port_cases hp h with ⟨-, rfl⟩ | ⟨w, rest, e, -, -, rfl⟩ | ⟨w, rest, i, hw, hrun⟩
  · exact (State.seqOk_turnOf p p').mpr (hs p')
  · refine (State.seqOk_congr ?_ (State.strapOk_congr (by simp) (by simp))).mpr ((State.seqOk_turnOf p p').mpr (hs p'))
    rw [State.port_setPort]
    split
    · rename_i hpp; rw [hpp, State.port_turnOf]; rfl
    · rfl
  · by_cases hpp : p' = p
    · subst hpp
      exact hrun.seqOk ((State.seqOk_turnOf p' p').mpr (hs p')) hw.decodesTo
    · exact (State.seqOk_congr (by rw [hrun.port_ne hpp]) hrun.strapOk).mpr ((State.seqOk_turnOf p p').mpr (hs p'))

/-- After a reset both sequencers are between commands. -/
theorem State.seqOk_resetWith (s : State) (strap : BitVec 16) (p : Port) : (s.resetWith strap).seqOk p := by
  cases p <;> exact rfl

/-- Every step leaves both sequencers in order. -/
theorem seqOk_step (hs : ∀ p, s.seqOk p) (h : step s = .next t) (p : Port) : t.seqOk p := by
  cases hturn : s.nextTurn with
  | port p' => exact seqOk_step_port hturn h hs p
  | syncW c => rw [step_syncW hturn] at h; cases h; exact (State.seqOk_congr (by cases p <;> rfl) rfl).mpr (hs p)
  | syncR c => rw [step_syncR hturn] at h; cases h; exact (State.seqOk_congr (by cases p <;> rfl) rfl).mpr (hs p)
  | reset strap => rw [step_reset hturn] at h; cases h; exact State.seqOk_resetWith _ _ _

/-- A refusal's flags are those of an error (60_exceptions.md R265). -/
theorem PortState.flagsOk_afterRefusal {q : PortState} (h : q.flagsOk) (rest : List W32) (e : ErrCode) :
    (q.afterRefusal rest e.bits).flagsOk := by
  obtain ⟨hle, hiff⟩ := h
  unfold PortState.flagsOk PortState.afterRefusal
  cases herr : q.err with
  | true =>
    have hne : q.ecode ≠ 0 := fun h0 => by simp [herr] at hiff; exact hiff h0
    simpa [hle] using hne
  | false => cases e <;> simp [ErrCode.bits]

theorem flagsOk_congr {q q' : PortState} (h : q.SameFlags q') : q'.flagsOk ↔ q.flagsOk := by
  unfold PortState.flagsOk; rw [h.1, h.2]

/-- A port's step keeps the error flags of both ports in order. -/
theorem flagsOk_step_port {p : Port} (hp : s.nextTurn = .port p) (h : step s = .next t) (p' : Port)
    (hs : (s.port p').flagsOk) : (t.port p').flagsOk := by
  rcases step_port_cases hp h with ⟨-, rfl⟩ | ⟨w, rest, e, -, -, rfl⟩ | ⟨w, rest, i, -, hrun⟩
  · rwa [State.port_turnOf]
  · rw [State.port_setPort]
    split
    · rename_i hpp; exact PortState.flagsOk_afterRefusal (hpp ▸ hs) rest e
    · rwa [State.port_turnOf]
  · exact (flagsOk_congr (hrun.sameFlags p')).mpr (by rwa [State.port_turnOf])

/-- A port's step makes no section active without coefficients: `BQ.BYP` has no operands, so it acts on its header, after its
check. -/
theorem activeHaveCoefs_step_port {p : Port} (hp : s.nextTurn = .port p) (h : step s = .next t) (hseq : s.seqOk p)
    (hs : s.activeHaveCoefs) : t.activeHaveCoefs := by
  rcases step_port_cases hp h with ⟨-, rfl⟩ | ⟨w, rest, e, -, -, rfl⟩ | ⟨w, rest, i, hw, hrun⟩
  · exact hs
  · exact (activeHaveCoefs_setPort _ _).mpr hs
  · by_cases hi : i.opcode = .bqByp
    · cases i
      case bqByp chm slot v =>
        cases hrun with
        | latched _ _ hn => exact absurd rfl hn
        | finished hat he hn =>
          obtain ⟨-, -, -, hcheck⟩ := headerCheck_eq_none he
          exact (activeHaveCoefs_setPort _ _).mpr (effectOf_bqByp_activeHaveCoefs hcheck hs [])
        | operand hph hin _ | last hph hin _ =>
          obtain ⟨-, -, -, hlo, hhi, -⟩ :=
            ((State.seqOk_turnOf p p).mpr hseq).inCommand (by rwa [State.here_turnOf] at hph) (hw.decodesTo.2 hph)
          exact absurd (hlo.trans hhi) (Nat.not_succ_le_zero 0)
      all_goals cases hi
    · obtain ⟨u, q, hu, rfl⟩ := hrun.changes
      exact (activeHaveCoefs_setPort _ _).mpr (hu.activeHaveCoefs hi hs)

/-! ### The whole invariant -/

theorem ringsOk_step (hs : ∀ c, s.ringsOk c) (h : step s = .next t) (c : Chan) : t.ringsOk c :=
  (ringCountsStayOk s t c (hs c) h).1

/-- A port's step keeps the parameters and every cursor in its bound. -/
theorem cursorOk_step_port {p : Port} (hp : s.nextTurn = .port p) (h : step s = .next t) :
    t.inst = s.inst ∧ ∀ c, s.cursorOk c → t.cursorOk c := by
  obtain ⟨i, u, q, hu, rfl⟩ := step_port_changes hp h
  obtain ⟨-, -, -, hinst, -⟩ := hu.constants
  refine ⟨(State.inst_setPort _ _ _).trans hinst, fun c hc => ?_⟩
  have hkeep := hu.cursorOk (c := c) hc
  cases p <;> exact hkeep

/-- A reset with valid parameters establishes the invariant, whatever the strap: memories and rings are empty, the cursors at 0,
every section bypassed, no error, both ports between commands. -/
theorem State.inv_resetWith {s : State} (hv : s.inst.valid = true) (strap : BitVec 16) : (s.resetWith strap).Inv where
  inst := hv
  memory := rfl
  rings := State.ringsOk_resetWith s strap
  cursors c hstrap := by
    rw [State.fill_resetWith, PerChan.get_both]
    exact (State.strapOk_iff.mp hstrap).1
  active c k hb := by rw [State.slot_resetWith] at hb; cases hb
  flags p := by rw [State.port_resetWith]; exact ⟨(by decide : (0 : BitVec 4).toNat ≤ 4), iff_of_true rfl rfl⟩
  seqs := State.seqOk_resetWith s strap

/-- Settles O56: a state after reset is what one more reset makes of it. -/
theorem invariantAtReset : Obligations.InvariantAtReset := by
  unfold Obligations.InvariantAtReset
  have hreset (inst : Params) (strap : BitVec 16) (hv : inst.valid = true) : (State.resetOf inst strap).Inv :=
    State.inv_resetWith (s := State.resetOf inst strap) hv strap
  exact ⟨hreset _ _ (by decide), hreset⟩

/-- Settles O57: clause by clause on a port's turn; a synchroniser moves a ring count only; a reset establishes it anew. -/
theorem invariantKept : Obligations.InvariantKept := by
  unfold Obligations.InvariantKept
  intro s t hs h
  have hmemory := memoryStaysCanonical s t hs.memory h
  have hrings := ringsOk_step hs.rings h
  have hseqs := seqOk_step hs.seqs h
  cases hturn : s.nextTurn with
  | port p =>
    obtain ⟨hinst, hcursors⟩ := cursorOk_step_port hturn h
    exact ⟨hinst ▸ hs.inst, hmemory, hrings, fun c => hcursors c (hs.cursors c),
      activeHaveCoefs_step_port hturn h (hs.seqs p) hs.active,
      fun p' => flagsOk_step_port hturn h p' (hs.flags p'), hseqs⟩
  | syncW c =>
    rw [step_syncW hturn] at h; cases h
    exact ⟨hs.inst, hmemory, hrings, hs.cursors, hs.active, fun p => by cases p; exacts [hs.flags .a, hs.flags .b], hseqs⟩
  | syncR c =>
    rw [step_syncR hturn] at h; cases h
    exact ⟨hs.inst, hmemory, hrings, hs.cursors, hs.active, fun p => by cases p; exacts [hs.flags .a, hs.flags .b], hseqs⟩
  | reset strap =>
    rw [step_reset hturn] at h; cases h
    exact State.inv_resetWith (s := s.passTurn) hs.inst strap

end

end Sys2Proof.Machine
end

section
/-! The two clock domains (20_memory.md R61, R71, 60_exceptions.md R280): a port's step does the same whatever stands in the fields
its domain neither holds nor sees, and leaves them alone. Both are one equation: the step commutes with replacing these
fields. -/

namespace Sys2Proof.Machine

/-- The state with everything that a port's domain neither holds nor sees taken from another state. -/
def State.withUnseen (s : State) (p : Port) (u : State) : State :=
  match p with
  | .a => { s with rptr := u.rptr, wptrSeen := u.wptrSeen, slide := u.slide, mfmem := u.mfmem, mw := u.mw, mr := u.mr
                   floor := u.floor, portB := u.portB, sched := u.sched, ticks := u.ticks }
  | .b => { s with x := u.x, acc := u.acc, fill := u.fill, wptr := u.wptr, rptrSeen := u.rptrSeen
                   portA := u.portA, sched := u.sched, ticks := u.ticks }

section
variable {s t u : State} {p : Port} {i : Instr} {w : W32} {rest : List W32}

/-! ### What a command reads of the state -/

@[simp] theorem State.cur_withUnseen : (s.withUnseen p u).cur = s.cur := by cases p <;> rfl
@[simp] theorem State.port_withUnseen : (s.withUnseen p u).port p = s.port p := by cases p <;> rfl
@[simp] theorem State.strapOk_withUnseen : (s.withUnseen p u).strapOk = s.strapOk := by cases p <;> rfl

theorem State.here_withUnseen (hp : s.cur = p) : (s.withUnseen p u).here = s.here := by
  rw [State.here, State.here, State.cur_withUnseen, hp, State.port_withUnseen]

theorem State.setPort_withUnseen (q : PortState) : (s.withUnseen p u).setPort p q = (s.setPort p q).withUnseen p u := by
  cases p <;> rfl

/-- A port's registers show its own domain (10_state.md R40). -/
theorem csrRead_withUnseen (idx : BitVec 8) : csrRead p idx (s.withUnseen p u) = csrRead p idx s := by
  unfold csrRead
  cases p
  all_goals
    split
    any_goals contradiction
    all_goals rfl

theorem lateOf_withUnseen (hp : s.cur = p) (hi : i.opcode.onPort p = true) :
    lateOf i (s.withUnseen p u) = lateOf i s := by
  cases i
  case rdcsr idx => simp only [lateOf, rdcsrCheck, State.cur_withUnseen, hp, csrRead_withUnseen]
  case wrcsr idx => simp only [lateOf, wrcsrCheck, State.cur_withUnseen]
  case bqByp chm slot v =>
    cases p
    · rfl
    · cases hi
  all_goals rfl

theorem headerCheck_withUnseen (hp : s.cur = p) :
    headerCheck i (lateOf i) (s.withUnseen p u) = headerCheck i (lateOf i) s := by
  unfold headerCheck
  rw [State.strapOk_withUnseen, State.cur_withUnseen, hp]
  cases hi : i.opcode.onPort p with
  | false => rfl
  | true => rw [lateOf_withUnseen hp hi]

/-- A sample fed reads domain A only. -/
theorem State.feed_withUnseen (c : Chan) :
    (s.withUnseen .a u).feed c w = ((s.feed c w).1, (s.feed c w).2.withUnseen .a u) := by
  by_cases h : s.fill.get c + 1 < s.blkLen
  · rw [State.feed_partial w h, State.feed_partial w (s := s.withUnseen .a u) h]; rfl
  · by_cases hf : s.occA c = cap
    · rw [State.feed_dropped w h hf, State.feed_dropped w (s := s.withUnseen .a u) h hf]; rfl
    · rw [State.feed_pushed w h hf, State.feed_pushed w (s := s.withUnseen .a u) h hf]; rfl

theorem sampleOf_withUnseen (hi : i.opcode.onPort p = true) :
    sampleOf i w (s.withUnseen p u) = (sampleOf i w s).withUnseen p u := by
  cases i
  case bqProc ch n =>
    cases p
    · rfl
    · cases hi
  case afPushs ch n =>
    cases p
    · simp only [sampleOf, State.feed_withUnseen]
    · cases hi
  all_goals rfl

theorem operandSeq_withUnseen (hi : i.opcode.onPort p = true) (q : Seq) :
    operandSeq i w (s.withUnseen p u) q = operandSeq i w s q := by
  cases i
  case bqProc ch n =>
    cases p
    · rfl
    · cases hi
  case afPushs ch n =>
    cases p
    · simp only [operandSeq, State.feed_withUnseen]
    · cases hi
  all_goals rfl

theorem effectOf_withUnseen (hp : s.cur = p) (hi : i.opcode.onPort p = true) (ws : List W32) :
    effectOf i ws (s.withUnseen p u) = (effectOf i ws s).withUnseen p u := by
  cases i
  case wrcsr idx =>
    cases p
    · simp [effectOf, csrWrite_cases, hp, csrWritable]
    · simp only [effectOf, csrWrite_cases, State.cur_withUnseen]; split <;> rfl
  case bqSetc | bqByp | bqCutupd =>
    cases p
    · rfl
    · cases hi
  case afPull ch | mfPull ch | fgStep ch =>
    cases p
    · cases hi
    · simp only [effectOf, apply_ite (fun t : State => t.withUnseen .b u)]; rfl
  all_goals rfl

theorem answerOf_withUnseen (hp : s.cur = p) (hi : i.opcode.onPort p = true) :
    answerOf i (s.withUnseen p u) = answerOf i s := by
  cases i
  case rdcsr idx => simp only [answerOf, State.cur_withUnseen, hp, csrRead_withUnseen]
  case bqProc | afPushs => simp only [answerOf, State.here_withUnseen hp]
  case afAvail | afPull | mfAvail | mfPull | fgStep =>
    cases p
    · cases hi
    · rfl
  all_goals rfl

/-! ### A word, and a step -/

/-- A word that runs does the same whatever its domain does not see. -/
theorem Runs.withUnseen (h : Runs i s w rest t) (hp : s.cur = p) (hi : i.opcode.onPort p = true) (u : State) :
    Runs i (s.withUnseen p u) w rest (t.withUnseen p u) := by
  have hhere := State.here_withUnseen (u := u) hp
  have hset (x : State) (q : PortState) : (x.withUnseen p u).setPort s.cur q = (x.setPort s.cur q).withUnseen p u := by
    rw [hp, State.setPort_withUnseen]
  have hat : s.AtHeader w rest → (s.withUnseen p u).AtHeader w rest := fun h => by
    rwa [State.AtHeader, State.seq_eq, hhere]
  have htook : s.here.took i w rest (s.withUnseen p u) = s.here.took i w rest s := by
    unfold PortState.took; rw [operandSeq_withUnseen hi]
  cases h with
  | latched h he hn =>
    have hrun := Runs.latched (hat h) ((headerCheck_withUnseen hp).trans he) hn
    rwa [State.cur_withUnseen, hhere, hset] at hrun
  | finished h he hn =>
    have hrun := Runs.finished (hat h) ((headerCheck_withUnseen hp).trans he) hn
    rwa [State.cur_withUnseen, hhere, effectOf_withUnseen hp hi, hset, hset,
      answerOf_withUnseen (by rw [State.cur_setPort, hp]) hi] at hrun
  | operand hph hin hl =>
    have hrun := Runs.operand (i := i) (s := s.withUnseen p u) (w := w) (rest := rest) (by rwa [hhere]) (by rwa [hhere])
      (by rwa [hhere])
    rwa [State.cur_withUnseen, hhere, sampleOf_withUnseen hi, htook, hset] at hrun
  | last hph hin hl =>
    have hrun := Runs.last (i := i) (s := s.withUnseen p u) (w := w) (rest := rest) (by rwa [hhere]) (by rwa [hhere])
      (by rwa [hhere])
    rwa [State.cur_withUnseen, hhere, sampleOf_withUnseen hi, htook,
      effectOf_withUnseen ((cur_sampleOf i w s).trans hp) hi, hset, hset,
      answerOf_withUnseen (by rw [State.cur_setPort, cur_sampleOf, hp]) hi] at hrun

/-- A word that runs is what the command answers. -/
theorem Runs.exec_eq (h : Runs i s w rest t) : exec i s = .next t := by
  cases h with
  | latched h he hn => exact exec_latched h he hn
  | finished h he hn => exact exec_finished h he hn
  | operand hp hi hl => exact exec_operand hp hi hl
  | last hp hi hl => exact exec_last hp hi hl

theorem State.wordError_turnOf (s : State) (p : Port) (w : W32) : (s.turnOf p).wordError p w = s.wordError p w := by
  simp only [State.wordError, State.strapOk_turnOf, csrRead_turnOf, State.slot_turnOf]
  rfl

theorem State.turnOf_withUnseen : (s.withUnseen p u).turnOf p = (s.turnOf p).withUnseen p (u.turnOf p) := by
  cases p <;> rfl

/-- The checks of a header word look at the port's own domain. -/
theorem State.wordError_withUnseen : (s.withUnseen p u).wordError p w = s.wordError p w := by
  have hs := State.strapOk_withUnseen (s := s) (p := p) (u := u)
  cases h1 : s.strapOk with
  | false => rw [State.wordError_badStrap h1, State.wordError_badStrap (hs.trans h1)]
  | true =>
    have h1' := hs.trans h1
    cases h2 : Opcode.ofCode (Header.opc w) with
    | none => rw [State.wordError_noOpcode h1 h2, State.wordError_noOpcode h1' h2]
    | some op =>
      cases h3 : op.onPort p with
      | false => rw [State.wordError_wrongPort h1 h2 h3, State.wordError_wrongPort h1' h2 h3]
      | true =>
        by_cases h4 : w &&& op.mbz = 0
        · cases h5 : (Instr.ofHeader op w).fieldsLegal with
          | false =>
            rw [State.wordError_illegalField h1 h2 h3 (.inr h5), State.wordError_illegalField h1' h2 h3 (.inr h5)]
          | true =>
            rw [State.wordError_late h1 h2 h3 h4 h5, State.wordError_late h1' h2 h3 h4 h5, State.turnOf_withUnseen,
              lateOf_withUnseen (State.cur_turnOf s p) (by rwa [Instr.opcode_ofHeader])]
        · rw [State.wordError_illegalField h1 h2 h3 (.inl h4), State.wordError_illegalField h1' h2 h3 (.inl h4)]

/-- The command of a port's next word is one of that port. -/
theorem State.WordOf.onPort (h : s.WordOf p w rest i) (hseq : s.seqOk p) : i.opcode.onPort p = true := by
  rcases h with ⟨-, hd, he⟩ | ⟨hph, -, hd⟩
  · rw [State.wordError_of_command hd] at he
    obtain ⟨-, hport, -⟩ := headerCheck_eq_none he
    exact hport
  · obtain ⟨-, hport, -⟩ := hseq.inCommand hph hd
    exact hport

/-- Two states that agree on what a port's domain holds or sees, at that port's turn in both. -/
def SameView (p : Port) (s s' : State) : Prop :=
  s.nextTurn = .port p ∧ s'.nextTurn = .port p ∧ s'.turnOf p = (s.turnOf p).withUnseen p (s'.turnOf p)

/-- A port's step in one of two such states is its step in the other, the unseen replaced. -/
theorem step_withUnseen {s' : State} (hv : SameView p s s') (hseq : s.seqOk p) (h : step s = .next t) :
    step s' = .next (t.withUnseen p (s'.turnOf p)) := by
  obtain ⟨hp, hp', hturn⟩ := hv
  have hport : s'.port p = s.port p := by
    rw [← State.port_turnOf s' p, hturn, State.port_withUnseen, State.port_turnOf]
  rcases step_port_cases hp h with ⟨hi, rfl⟩ | ⟨w, rest, e, ⟨-, hph, hi⟩, he, rfl⟩ | ⟨w, rest, i, hw, hrun⟩
  · rw [step_idle hp' (by rw [hport, hi]), ← hturn]
  · have he' : s'.wordError p w = some e := by
      rw [← State.wordError_turnOf, hturn, State.wordError_withUnseen, State.wordError_turnOf, he]
    rw [refusedHeader s' p w rest e ⟨hp', by rw [hport, hph], by rw [hport, hi]⟩ he', hport,
      ← State.setPort_withUnseen, ← hturn]
  · have hexec := (hrun.withUnseen (State.cur_turnOf s p) (hw.onPort hseq) (s'.turnOf p)).exec_eq
    rw [← hturn] at hexec
    rw [← hexec]
    rcases hw with ⟨⟨-, hph, hi⟩, hd, -⟩ | ⟨hph, hi, hd⟩
    · exact step_header ⟨hp', by rw [hport, hph], by rw [hport, hi]⟩ hd
    · exact step_operand hp' (by rw [hport, hph]) (by rw [hport, hi]) (by rw [hport, hd])

/-! ### The claims -/

theorem AgreeForA.turnOf {s' : State} (h : AgreeForA s s') : s'.turnOf .a = (s.turnOf .a).withUnseen .a (s'.turnOf .a) := by
  obtain ⟨h1, h2, h3, h4, h5, h6, h7, h8, h9⟩ := h
  simp only [State.turnOf, State.passTurn, State.withUnseen, h1, h2, h3, h4, h5, h6, h7, h8, h9]

theorem AgreeForB.turnOf {s' : State} (h : AgreeForB s s') : s'.turnOf .b = (s.turnOf .b).withUnseen .b (s'.turnOf .b) := by
  obtain ⟨h1, h2, h3, h4, h5, h6, h7, h8, h9, h10, h11⟩ := h
  simp only [State.turnOf, State.passTurn, State.withUnseen, h1, h2, h3, h4, h5, h6, h7, h8, h9, h10, h11]

/-- Settles O59: the two next states differ in what the domain does not see only. -/
theorem domainsIsolated : Obligations.DomainsIsolated := by
  unfold Obligations.DomainsIsolated
  refine ⟨fun s s' t t' hagree hseq hp hp' h h' => ?_, fun s s' t t' hagree hseq hp hp' h h' => ?_⟩
  · rw [step_withUnseen ⟨hp, hp', hagree.turnOf⟩ hseq h] at h'
    cases h'
    exact ⟨rfl, rfl, rfl, rfl, rfl, rfl, rfl, rfl, rfl⟩
  · rw [step_withUnseen ⟨hp, hp', hagree.turnOf⟩ hseq h] at h'
    cases h'
    exact ⟨rfl, rfl, rfl, rfl, rfl, rfl, rfl, rfl, rfl, rfl, rfl⟩

/-- A port's step leaves alone what its domain does not see: replacing it by itself changes nothing. -/
theorem step_port_unseen (hp : s.nextTurn = .port p) (hseq : s.seqOk p) (h : step s = .next t) :
    t = t.withUnseen p (s.turnOf p) := by
  have hself := step_withUnseen ⟨hp, hp, by cases p <;> rfl⟩ hseq h
  rw [h] at hself
  exact Host.Outcome.next.inj hself

/-- What no port writes: the copies, the strap and the parameters. -/
theorem step_port_constants (hp : s.nextTurn = .port p) (h : step s = .next t) :
    t.wptrSeen = s.wptrSeen ∧ t.rptrSeen = s.rptrSeen ∧ t.blklen = s.blklen ∧ t.inst = s.inst ∧ t.cur = p := by
  obtain ⟨i, v, q, hv, rfl⟩ := step_port_changes hp h
  obtain ⟨hw, hr, hb, hinst, hcur, -⟩ := hv.constants
  cases p <;> exact ⟨hw, hr, hb, hinst, hcur⟩

/-- No command of port B writes the audio blocks (20_memory.md R60). -/
theorem step_portB_afmem (hp : s.nextTurn = .port .b) (hseq : s.seqOk .b) (h : step s = .next t) : t.afmem = s.afmem := by
  rcases step_port_cases hp h with ⟨-, rfl⟩ | ⟨w, rest, e, -, -, rfl⟩ | ⟨w, rest, i, hw, hrun⟩
  · rfl
  · rfl
  · obtain ⟨v, q, hv, rfl⟩ := hrun.changes
    obtain ⟨-, -, haf, -⟩ := hv.accumulator fun ch n hi => by
      have hb := hw.onPort hseq
      rw [hi] at hb
      cases hb
    exact haf

/-- Settles O58: what a domain sees and no command writes stays; the rest is what it does not see. -/
theorem portsOwnTheirDomain : Obligations.PortsOwnTheirDomain := by
  unfold Obligations.PortsOwnTheirDomain
  refine fun s t h => ⟨fun hp hseq => ?_, fun hp hseq => ?_⟩
  all_goals
    obtain ⟨hw, hr, hb, hinst, hcur⟩ := step_port_constants hp h
    obtain ⟨hsched, hticks⟩ := step_turns h
    refine (step_port_unseen hp hseq h).trans ?_
  · simp only [State.withUnseen, State.turnOf, State.passTurn, hr, hb, hinst, hcur, hsched, hticks]
  · have haf := step_portB_afmem hp hseq h
    simp only [State.withUnseen, State.turnOf, State.passTurn, hw, hb, hinst, hcur, hsched, hticks, haf]

/-! ### The synchronisers (42_block_fifo.md R174) -/

/-- Only a channel's own synchroniser, and a reset, change its copy of the write index. -/
theorem wptrSeen_step {c : Chan} (h : step s = .next t) (hreset : ∀ strap, s.nextTurn ≠ .reset strap)
    (hc : s.nextTurn ≠ .syncW c) : t.wptrSeen.get c = s.wptrSeen.get c := by
  cases hturn : s.nextTurn with
  | port p => rw [(step_port_constants hturn h).1]
  | syncW d => rw [step_syncW hturn] at h; cases h; exact PerChan.get_set_ne _ (by rintro rfl; exact hc hturn) _
  | syncR d => rw [step_syncR hturn] at h; cases h; rfl
  | reset strap => exact absurd hturn (hreset strap)

/-- So with the read index. -/
theorem rptrSeen_step {c : Chan} (h : step s = .next t) (hreset : ∀ strap, s.nextTurn ≠ .reset strap)
    (hc : s.nextTurn ≠ .syncR c) : t.rptrSeen.get c = s.rptrSeen.get c := by
  cases hturn : s.nextTurn with
  | port p => rw [(step_port_constants hturn h).2.1]
  | syncW d => rw [step_syncW hturn] at h; cases h; rfl
  | syncR d => rw [step_syncR hturn] at h; cases h; exact PerChan.get_set_ne _ (by rintro rfl; exact hc hturn) _
  | reset strap => exact absurd hturn (hreset strap)

/-- A machine whose sequencers are in order runs for any number of steps, each using up one turn. -/
theorem run_next (n : Nat) (hs : ∀ p, s.seqOk p) :
    ∃ t, core.run n s = .next t ∧ t.sched = s.sched.drop n ∧ t.ticks = s.ticks + n := by
  induction n generalizing s with
  | zero => exact ⟨s, rfl, rfl, rfl⟩
  | succ n ih =>
    obtain ⟨t, ht⟩ := everyStepCompletes s hs
    obtain ⟨u, hu, hsched, hticks⟩ := ih (seqOk_step hs ht)
    obtain ⟨hs', ht'⟩ := step_turns ht
    refine ⟨u, ?_, ?_, by omega⟩
    · exact (show core.run (n + 1) s = core.run n t by simp only [Host.Core.run, show core.step s = .next t from ht]).trans hu
    · rw [hsched, hs', List.drop_tail]

/-- The run comes to each turn that the schedule has after the state's own list of turns. -/
theorem run_reaches {m : Nat} (hs : ∀ p, s.seqOk p) (hm : s.ticks + s.sched.length ≤ m) :
    ∃ n t, core.run n s = .next t ∧ t.nextTurn = Config.schedule.turn m := by
  obtain ⟨t, hrun, hsched, hticks⟩ := run_next (m - s.ticks) hs
  refine ⟨m - s.ticks, t, hrun, ?_⟩
  rw [List.drop_eq_nil_of_le (by omega)] at hsched
  have hcount : t.ticks = m := by omega
  simp only [State.nextTurn, hsched, hcount]

/-- Settles O14: the two steps as they stand; the run reaches every turn of the schedule, which is fair. -/
theorem synchroniserSteps : Obligations.SynchroniserSteps := by
  unfold Obligations.SynchroniserSteps
  intro s c
  refine ⟨fun h => ⟨step_syncW h, (ungray_gray _).symm⟩, fun h => ⟨step_syncR h, (ungray_gray _).symm⟩,
    fun t h hreset => ⟨wptrSeen_step h hreset, rptrSeen_step h hreset⟩, fun hs => ?_⟩
  obtain ⟨⟨m, hm, hw⟩, ⟨m', hm', hr⟩⟩ := Config.schedule.fair (s.ticks + s.sched.length) c
  constructor
  · obtain ⟨n, t, hrun, hturn⟩ := run_reaches hs hm
    rw [hw] at hturn
    exact ⟨n, t, _, hrun, hturn, step_syncW hturn, State.availB_eq_occ_iff.mpr (PerChan.get_set_self _ _ _)⟩
  · obtain ⟨n, t, hrun, hturn⟩ := run_reaches hs hm'
    rw [hr] at hturn
    exact ⟨n, t, _, hrun, hturn, step_syncR hturn, State.occA_eq_occ_iff.mpr (PerChan.get_set_self _ _ _)⟩

end

end Sys2Proof.Machine
end

section
/-! The commands one by one (41_biquad_cascade.md section 2, 42_block_fifo.md section 3, 44_system_commands.md): each is its
change outside the port and its answer, at its header word or at its last operand. -/

namespace Sys2Proof.Machine

section
variable {i : Instr} {s : State} {w : W32} {rest : List W32} {ch : BitVec 4} {c : Chan}

/-! ### Commands that act on their header -/

/-- What a register shows does not depend on what the port does between two errors (10_state.md R40, R46). -/
theorem csrRead_sameFlags {q : PortState} (h : s.here.SameFlags q) (idx : BitVec 8) :
    csrRead s.cur idx (s.setPort s.cur q) = csrRead s.cur idx s := by
  have hstatus : statusWord q = statusWord s.here := by
    obtain ⟨herr, hcode⟩ := h
    unfold statusWord; rw [herr, hcode]
  unfold State.here at hstatus
  cases hc : s.cur
  all_goals
    rw [hc] at hstatus
    unfold csrRead
    split
    case h_4 => exact congrArg some hstatus
    all_goals rfl

/-- The answer of a command that streams nothing does not depend on its port's sequencer. -/
theorem answerOf_sameFlags {q : PortState} (hproc : i.opcode ≠ .bqProc) (hpush : i.opcode ≠ .afPushs)
    (h : s.here.SameFlags q) : answerOf i (s.setPort s.cur q) = answerOf i s := by
  cases i
  case rdcsr idx => rw [answerOf, answerOf, State.cur_setPort, csrRead_sameFlags h]
  case bqProc => exact absurd rfl hproc
  case afPushs => exact absurd rfl hpush
  case afAvail | afPull | mfAvail | mfPull | fgStep => cases hc : s.cur <;> rfl
  all_goals rfl

/-- A command without operands that streams nothing: its effect, and its answer at the port that has latched the header. -/
theorem exec_onHeader (h : s.AtHeader w rest) (he : headerCheck i (lateOf i) s = none) (hn : i.nopnd = 0)
    (hproc : i.opcode ≠ .bqProc) (hpush : i.opcode ≠ .afPushs) :
    exec i s = .next ((effectOf i [] s).setPort s.cur (s.here.afterHeader w rest (answerOf i s))) := by
  have hport (resp : List W32) : (s.here.accepted i w rest).answer resp = s.here.afterHeader w rest resp := by
    have hphase : s.here.seq.phase = .hdr := h.1
    unfold PortState.accepted PortState.answer PortState.afterHeader
    rw [if_pos hn, ← hphase, ← hn]
    cases i
    case bqProc => exact absurd rfl hproc
    case afPushs => exact absurd rfl hpush
    all_goals rfl
  rw [exec_finished h he hn, answerOf_sameFlags hproc hpush (q := s.here.accepted i w rest) ⟨rfl, rfl⟩, hport]

/-- Settles O19: no effect, and the answer `OK`. -/
theorem nopResponds : Obligations.NopResponds := by
  unfold Obligations.NopResponds
  intro s w rest hs h
  exact exec_onHeader (i := .nop) h (headerCheck_none hs (by cases s.cur <;> rfl) rfl rfl) rfl nofun nofun

/-- Settles O20: the header check of a readable register passes, and the answer holds its value. -/
theorem rdcsrAnswers : Obligations.RdcsrAnswers := by
  unfold Obligations.RdcsrAnswers
  intro s w rest idx v hs h hv
  have hlate : lateOf (.rdcsr idx) s = none := by rw [lateOf, rdcsrCheck_eq, if_neg (by simp [hv])]
  rw [exec_onHeader (i := .rdcsr idx) h (headerCheck_none hs (by cases s.cur <;> rfl) rfl hlate) rfl nofun nofun, answerOf, hv]
  rfl

/-- `BQ.BYP`'s own check passes where the section becomes bypassed or has coefficients. -/
theorem bypCheck_eq_none {chm slot : BitVec 4} {v : BitVec 1} (hslot : legalSlot slot = true)
    (h : v = 1 ∨ ∀ c (k : Fin 9), chm.getLsbD c.index = true → k.val = slot.toNat → (s.slot c k).cv = true) :
    bypCheck chm slot v s = none := by
  rw [bypCheck_eq, if_neg]
  rintro ⟨rfl, hsel⟩
  obtain hv | hcv := h
  · cases hv
  · simp only [selects_eq] at hsel
    obtain ⟨hc, h0⟩ | ⟨hc, h0⟩ := hsel
    · rw [hcv .left _ hc (slotOf_val hslot)] at h0; cases h0
    · rw [hcv .right _ hc (slotOf_val hslot)] at h0; cases h0

/-- A slot after a change of one slot on the selected channels. -/
theorem slot_onSelected_one {chm slot : BitVec 4} {f : Slots → Slots} {g : Section → Section} (hslot : legalSlot slot = true)
    (hf : ∀ (v : Slots) (k : Fin 9), (f v)[k] = if k = slotOf slot then g v[k] else v[k]) (c : Chan) (k : Fin 9) :
    (s.onSelected chm f).slot c k =
      if chm.getLsbD c.index = true ∧ k.val = slot.toNat then g (s.slot c k) else s.slot c k := by
  have hk : k = slotOf slot ↔ k.val = slot.toNat := by rw [Fin.ext_iff, slotOf_val hslot]
  rw [State.slot_onSelected, ite_and]
  split
  · rw [hf, ← State.slot_eq]; simp only [hk]
  · rfl

/-- Settles O24: the check passes, and the flag is written in the slot of every selected channel. -/
theorem bypSetsFlag : Obligations.BypSetsFlag := by
  unfold Obligations.BypSetsFlag
  intro s chm slot v w rest hwf hcur hs h hcv
  have hslot := (Bool.and_eq_true_iff.mp hwf).2
  have hexec := exec_onHeader (i := .bqByp chm slot v) h
    (headerCheck_none hs (by rw [hcur]; rfl) hwf (bypCheck_eq_none hslot hcv)) rfl nofun nofun
  rw [State.here, hcur] at hexec
  exact ⟨_, hexec, rfl, slot_onSelected_one (g := fun r => r.withByp (v == 1)) hslot (setByp_get _ _)⟩

/-- Settles O35. -/
theorem availCounts : Obligations.AvailCounts := by
  unfold Obligations.AvailCounts
  exact fun s ch c w rest hch hcur hs h => ⟨exec_afAvail hch hcur hs h, exec_mfAvail hch hcur hs h⟩

/-- A command of port B at its header, with its channel. -/
theorem exec_portB_onHeader (h : s.AtHeader w rest) (hcur : s.cur = .b) (hs : s.strapOk = true)
    (hport : i.opcode.onPort .b = true) (hf : i.fieldsLegal = true) (hlate : lateOf i = noLateCheck) (hn : i.nopnd = 0)
    (hpush : i.opcode ≠ .afPushs) (hproc : i.opcode ≠ .bqProc) :
    exec i s = .next ((effectOf i [] s).setPort .b (s.portB.afterHeader w rest (answerOf i s))) := by
  have hexec := exec_onHeader h (headerCheck_none hs (by rwa [hcur]) hf (by rw [hlate]; rfl)) hn hproc hpush
  rwa [State.here, hcur] at hexec

theorem State.blkLen_lt (s : State) : s.blkLen < 2 ^ 16 := s.blklen.isLt

/-- Settles O36: an empty view is answered by FAIL/EMPTY, else the answer is the block at the read index. -/
theorem afPullTakesBlock : Obligations.AfPullTakesBlock := by
  unfold Obligations.AfPullTakesBlock
  intro s ch c w rest hch hcur hs h
  refine ⟨exec_afPull_empty hch hcur hs h, fun hready => ?_⟩
  rw [exec_portB_onHeader (i := .afPull ch) h hcur hs rfl (legalCh_index hch) rfl rfl nofun nofun, effectOf, answerOf,
    chanOf_index hch, if_neg hready, if_neg hready, okWords_eq s.blkLen_lt]
  rfl

/-- A valid size keeps a vector's length within a response's `AUX` field (00_scope.md R7). -/
theorem nbins_lt {inst : Params} (h : inst.p ≤ 16) : inst.nbins < 2 ^ 16 := by
  have hn : inst.n ≤ 2 ^ 16 := Nat.pow_le_pow_right (by omega) h
  have hhalf : inst.nbins = inst.n / 2 := rfl
  omega

/-- Settles O37: as with the audio ring. -/
theorem mfPullTakesVector : Obligations.MfPullTakesVector := by
  unfold Obligations.MfPullTakesVector
  intro s ch c w rest hch hcur hs hp h
  refine ⟨exec_mfPull_empty hch hcur hs h, fun hready => ?_⟩
  rw [exec_portB_onHeader (i := .mfPull ch) h hcur hs rfl (legalCh_index hch) rfl rfl nofun nofun, effectOf, answerOf,
    chanOf_index hch, if_neg hready, if_neg hready, okWords_eq (nbins_lt hp)]
  rfl

/-- Nothing fed, nothing reported. -/
theorem pushReport_zero {q : Seq} (hp : q.pushed = 0) (hd : q.dropped = 0) : pushReport q = 0 := by
  rw [pushReport, hp, hd]; rfl

/-- Settles O30: no operands are to come, so the header is the whole command, and the lists answered are empty. -/
theorem emptyStreams : Obligations.EmptyStreams := by
  unfold Obligations.EmptyStreams
  intro s ch w rest hch hcur hs h a b
  have hlegal : legalCh ch = true := decide_eq_true hch
  have hhere : s.here = s.portA := by rw [State.here, hcur, State.port_a]
  have hph : s.portA.seq.phase = .hdr := hhere ▸ h.1
  have hstart (i : Instr) (hi : i.opcode.onPort .a = true) (hf : i.fieldsLegal = true) (hlate : lateOf i s = none)
      (hn : i.nopnd = 0) : exec i s = .next ((effectOf i [] s).setPort .a ((s.portA.accepted i w rest).answer
        (answerOf i (s.setPort s.cur (s.portA.accepted i w rest))))) := by
    rw [exec_finished h (headerCheck_none hs (by rwa [hcur]) hf hlate) hn, hcur, hhere]
  have hlatch (i : Instr) (hn : i.nopnd = 0) : s.portA.accepted i w rest =
      { s.portA with input := rest, seq := { s.portA.seq.begun w i with phase := s.portA.seq.phase } } := by
    rw [PortState.accepted, if_pos hn, hph]
  constructor
  · rw [hstart (.bqProc ch 0) rfl hlegal rfl rfl, answerOf, State.here_setPort, hlatch _ rfl]; rfl
  · rw [hstart (.afPushs ch 0) rfl hlegal rfl rfl, answerOf, State.here_setPort, hlatch _ rfl, pushReport_zero rfl rfl]; rfl

/-! ### Commands that act on their operands -/

/-- A command that keeps its operands, at the last of them: its effect and its answer. -/
theorem exec_onLast {ws : List W32} {n : Nat} (hop : operandOf i = State.keepOperand) (h : s.AtOperand 0 ws w rest)
    (hanswer : ∀ t, answerOf i t = okWords n []) (hn : n < 2 ^ 16) :
    exec i s = .next ((effectOf i (ws ++ [w]) s).setPort s.cur (s.here.afterLast rest (ws ++ [w]) [BitVec.ofNat 32 n])) := by
  rw [exec_lastOperand hop h, finishOf_setPort, hanswer, okWords_eq hn, PortState.buf_kept, State.setPhase_eq,
    ← cur_effectOf i (ws ++ [w]) s, State.here_setPort, State.cur_setPort, State.setPort_setPort]
  rfl

/-- Settles O22: the last operand is the only one, and the register is writable. -/
theorem wrcsrSetsFloor : Obligations.WrcsrSetsFloor := by
  unfold Obligations.WrcsrSetsFloor
  intro s w rest hcur h
  have hexec := exec_onLast (i := .wrcsr 0x04) rfl h (fun _ => rfl) (by decide)
  rwa [State.here, effectOf, hcur, csrWrite_floor] at hexec

/-- Settles O23: the buffer holds the five words in order, and they are installed in the slot of every selected channel. -/
theorem setcInstalls : Obligations.SetcInstalls := by
  unfold Obligations.SetcInstalls
  intro s chm slot b0 b1 b2 a1 a2 rest hwf hcur h
  have hexec := exec_onLast (i := .bqSetc chm slot) rfl h (fun _ => rfl) (by decide)
  rw [State.here, hcur] at hexec
  exact ⟨_, hexec, rfl, slot_onSelected_one (g := fun r => r.withCoefs _) (Bool.and_eq_true_iff.mp hwf).2 (installCoefs_get _ _)⟩

/-- An operand word of `BQ.PROC`: through the chain of its channel, and after the last one the response. -/
theorem exec_bqProc_operand {k : Nat} {ws : List W32} {n : BitVec 16} (h : s.AtOperand k ws w rest) :
    exec (.bqProc ch n) s = .next ((s.setSlots (chanOf ch) (chainStep (s.x.get (chanOf ch)) w).2).setPort s.cur
      (s.here.afterProc rest k (chainStep (s.x.get (chanOf ch)) w).1 n)) := by
  obtain ⟨hph, hleft, -, hin⟩ := h
  rw [State.seq_eq] at hph
  have hl : s.here.seq.left - 1 = k := by rw [← State.seq_eq, hleft]; rfl
  have htook : s.here.took (.bqProc ch n) w rest s =
      { s.here with
        input := rest
        seq := { s.here.seq with left := k, outs := s.here.seq.outs ++ [(chainStep (s.x.get (chanOf ch)) w).1] } } := by
    rw [PortState.took, hl]; rfl
  by_cases hk : k = 0
  · subst hk
    rw [exec_last hph hin hl, answerOf, ← cur_sampleOf (.bqProc ch n) w s, State.here_setPort, htook, okWords_imm]
    rfl
  · rw [exec_operand hph hin (hl ▸ hk), htook, PortState.afterProc, if_neg hk, if_neg hk, List.append_nil, ← hph]
    rfl

/-- Settles O29. -/
theorem procTakesSample : Obligations.ProcTakesSample := by
  unfold Obligations.ProcTakesSample
  intro s ch n k ws w rest c hch hcur h
  have hexec := exec_bqProc_operand (ch := ch) (n := n) h
  rwa [State.here, hcur, chanOf_index hch] at hexec

end

end Sys2Proof.Machine
end

section
/-! The stage updates commute (41_biquad_cascade.md R151): each acts on its own slots, one by one. -/

namespace Sys2Proof.Machine

/-- An update of the slots that acts on those of a set, each by itself. -/
def ActsOn (f : Slots → Slots) (d : Fin 9 → Prop) [DecidablePred d] (g : Fin 9 → Section → Section) : Prop :=
  ∀ (v : Slots) (k : Fin 9), (f v)[k] = if d k then g k v[k] else v[k]

section
variable {f f' : Slots → Slots} {d d' : Fin 9 → Prop} [DecidablePred d] [DecidablePred d'] {g g' : Fin 9 → Section → Section}

/-- Updates of slots that are not in common commute. -/
theorem ActsOn.commute (h : ActsOn f d g) (h' : ActsOn f' d' g') (hd : ∀ k, d k → ¬ d' k) (v : Slots) :
    f (f' v) = f' (f v) := by
  refine Slots.ext_get fun k => ?_
  rw [h, h', h', h]
  by_cases hk : d k
  · rw [if_pos hk, if_pos hk, if_neg (hd k hk), if_neg (hd k hk)]
  · rw [if_neg hk, if_neg hk]

/-- An update whose action is idempotent is idempotent. -/
theorem ActsOn.idempotent (h : ActsOn f d g) (hg : ∀ k r, g k (g k r) = g k r) (v : Slots) : f (f v) = f v := by
  refine Slots.ext_get fun k => ?_
  rw [h, h]
  by_cases hk : d k
  · rw [if_pos hk, if_pos hk, hg]
  · rw [if_neg hk, if_neg hk]

end

/-- The peak update of a slot (R147): installed and made active. -/
theorem actsOn_peak (q : Coefs) :
    ActsOn (fun v => setByp 4 false (installCoefs 4 q v)) (· = 4) fun _ r => (r.withCoefs q).withByp false := by
  intro v k
  rw [setByp_get, installCoefs_get]
  split <;> rfl

/-- A cut update acts on the four slots of its stage. -/
theorem actsOn_cutUpdate (stg : BitVec 4) (m : Nat) (ws : List W32) :
    ActsOn (cutUpdate stg m ws) (fun k => stageBase stg ≤ k.val ∧ k.val < stageBase stg + 4) fun k r =>
      if k.val < stageBase stg + m then (r.withCoefs (coefsAt ws (k.val - stageBase stg))).withByp false
      else r.withByp true :=
  cutUpdate_get stg m ws

theorem cutUpdate_idempotent (stg : BitVec 4) (m : Nat) (ws : List W32) (v : Slots) :
    cutUpdate stg m ws (cutUpdate stg m ws v) = cutUpdate stg m ws v :=
  (actsOn_cutUpdate stg m ws).idempotent (fun k r => by split <;> rfl) v

/-- Settles O32: the three updates act on slots 4, 0 to 3 and 5 to 8. -/
theorem updatesCommute : Obligations.UpdatesCommute := by
  unfold Obligations.UpdatesCommute
  intro v q m m' ws ws' peak low high
  have hlow := actsOn_cutUpdate 0 m ws
  have hhigh := actsOn_cutUpdate 2 m' ws'
  have hpeak := actsOn_peak q
  exact ⟨hpeak.commute hlow (by decide) v, hpeak.commute hhigh (by decide) v, hlow.commute hhigh (by decide) v,
    hpeak.idempotent (fun _ _ => rfl) v, cutUpdate_idempotent 0 m ws v, cutUpdate_idempotent 2 m' ws' v⟩

end Sys2Proof.Machine
end

section
/-! A whole streaming command (30_encoding.md R91, 41_biquad_cascade.md R146, 42_block_fifo.md R177): its header and then its
samples, one a step, induction on the samples. -/

namespace Sys2Proof.Machine

/-- Port A in the operand phase of a command, with exactly the words `ws` to come and its turn at each of them. -/
structure State.Streaming (s : State) (i : Instr) (ws rest : List W32) (later : List Turn) : Prop where
  phase : s.portA.seq.phase = .opnd
  hdr : decode s.portA.seq.hdr = .command i
  left : s.portA.seq.left = ws.length
  input : s.portA.input = ws ++ rest
  sched : s.sched = List.replicate ws.length (.port .a) ++ later

section
variable {s t u : State} {i : Instr} {w : W32} {ws rest : List W32} {later : List Turn} {ch : BitVec 4} {c : Chan} {n : BitVec 16}

theorem run_succ (h : step s = .next t) (k : Nat) : core.run (k + 1) s = core.run k t := by
  simp only [Host.Core.run, show core.step s = .next t from h]

theorem State.nextTurn_of_sched {a : Turn} {l : List Turn} (h : s.sched = a :: l) : s.nextTurn = a := by
  rw [State.nextTurn, h]

/-- The next sample of a stream is an operand word of its command. -/
theorem State.Streaming.step_eq (h : s.Streaming i (w :: ws) rest later) :
    step s = exec i (s.turnOf .a) ∧ (s.turnOf .a).AtOperand ws.length s.portA.seq.buf w (ws ++ rest) :=
  ⟨step_operand (State.nextTurn_of_sched h.sched) h.phase h.input h.hdr, h.phase, h.left, rfl, h.input⟩

/-- A port that has taken a sample and is still in the operand phase streams the samples that are left. -/
theorem State.Streaming.tail (h : s.Streaming i (w :: ws) rest later) (hstep : step s = .next t)
    (hph : t.portA.seq.phase = .opnd) (hhdr : t.portA.seq.hdr = s.portA.seq.hdr)
    (hl : t.portA.seq.left = ws.length) (hin : t.portA.input = ws ++ rest) : t.Streaming i ws rest later :=
  ⟨hph, hhdr ▸ h.hdr, hl, hin, by rw [(step_turns hstep).1, h.sched]; rfl⟩

/-- The step that takes a streaming command's header begins its stream. -/
theorem step_begin (hs : s.strapOk = true) (hph : s.portA.seq.phase = .hdr) (hin : s.portA.input = encode i :: (ws ++ rest))
    (hsched : s.sched = List.replicate (ws.length + 1) (.port .a) ++ later) (hport : i.opcode.onPort .a = true)
    (hf : i.fieldsLegal = true) (hlate : lateOf i = noLateCheck) (hn : i.nopnd = ws.length) (hne : ws ≠ []) :
    let t := (s.turnOf .a).setPort .a (s.portA.accepted i (encode i) (ws ++ rest))
    step s = .next t ∧ t.Streaming i ws rest later := by
  have hn' : i.nopnd ≠ 0 := by rw [hn]; simpa using hne
  have hnext : s.HeaderNext .a (encode i) (ws ++ rest) := ⟨State.nextTurn_of_sched hsched, hph, hin⟩
  refine ⟨?_, if_neg hn', ?_, ?_, rfl, ?_⟩
  · rw [step_header hnext (decodeOfEncode i), exec_latched (State.atHeader_turnOf hnext)
      (headerCheck_none (by rwa [State.strapOk_turnOf]) hport hf (by rw [hlate]; rfl)) hn', State.here_turnOf]
    rfl
  · exact (congrArg decode (hdr_begun _ _ i)).trans (decodeOfEncode i)
  · exact (left_begun _ _ i).trans hn
  · rw [State.sched_setPort, State.turnOf, State.passTurn, hsched]; rfl

@[simp] theorem PerChan.set_set {α : Type} (v : PerChan α) (c : Chan) (a b : α) : (v.set c a).set c b = v.set c b := by
  cases c <;> rfl

/-- The turns left after the last sample are those after the stream. -/
theorem State.Streaming.sched_last (h : s.Streaming i [w] rest later) : (s.turnOf .a).sched = later := by
  rw [State.turnOf, State.passTurn, h.sched]; rfl

/-! ### `BQ.PROC` -/

theorem chainRun_cons (v : Slots) (w : W32) (ws : List W32) :
    chainRun v (w :: ws) =
      ((chainStep v w).1 :: (chainRun (chainStep v w).2 ws).1, (chainRun (chainStep v w).2 ws).2) := rfl

/-- Every sample through the chain in order, and the response after the last. -/
theorem run_proc (hch : ch.toNat = c.index) (hne : ws ≠ []) (h : s.Streaming (.bqProc ch n) ws rest later) :
    ∃ t, core.run ws.length s = .next t ∧
      t = { s with x := s.x.set c (chainRun (s.x.get c) ws).2, portA := t.portA, cur := .a, sched := later
                   ticks := s.ticks + ws.length } ∧
      t.portA.output = s.portA.output ++ ((0 : BitVec 16) ++ n) :: (s.portA.seq.outs ++ (chainRun (s.x.get c) ws).1) ∧
      t.portA.input = rest ∧ t.portA.seq.phase = .hdr ∧ t.portA.err = s.portA.err ∧ t.portA.ecode = s.portA.ecode := by
  induction ws generalizing s with
  | nil => exact absurd rfl hne
  | cons w ws ih =>
    obtain ⟨hexec, hop⟩ := h.step_eq
    have hstep : step s = .next { s with
        x := s.x.set c (chainStep (s.x.get c) w).2
        portA := s.portA.afterProc (ws ++ rest) ws.length (chainStep (s.x.get c) w).1 n
        cur := .a, sched := s.sched.tail, ticks := s.ticks + 1 } :=
      hexec.trans (procTakesSample _ ch n _ _ w _ c hch rfl hop)
    rw [chainRun_cons]
    generalize chainStep (s.x.get c) w = r at hstep
    cases ws with
    | nil => exact ⟨_, run_succ hstep 0, by rw [← h.sched_last]; rfl, rfl, rfl, rfl, rfl, rfl⟩
    | cons w' ws =>
      obtain ⟨t, hrun, ht, hout, hin, hph, herr, hcode⟩ := ih (List.cons_ne_nil _ _) (h.tail hstep rfl rfl rfl rfl)
      refine ⟨t, (run_succ hstep _).trans hrun, ht.trans ?_, hout.trans ?_, hin, hph, herr, hcode⟩
      · have hticks : s.ticks + (w :: w' :: ws).length = s.ticks + 1 + (w' :: ws).length := by simp; omega
        rw [hticks, PerChan.set_set, PerChan.get_set_self]
      · simp [PortState.afterProc]

/-- The response word that counts the samples. -/
theorem zero_append_ofNat {k : Nat} (h : k < 2 ^ 16) : (0 : BitVec 16) ++ BitVec.ofNat 16 k = BitVec.ofNat 32 k := by
  rw [zero_append_eq_ofNat, BitVec.toNat_ofNat, Nat.mod_eq_of_lt h]

/-- Settles O31: the header begins the stream, which runs through the chain; an empty one is answered at once. -/
theorem procWhole : Obligations.ProcWhole := by
  unfold Obligations.ProcWhole
  intro s ch c ws rest later hch hlen hs hph hin hsched
  have hnopnd : (BitVec.ofNat 16 ws.length).toNat = ws.length := by rw [BitVec.toNat_ofNat, Nat.mod_eq_of_lt hlen]
  cases ws with
  | nil =>
    have hnext : s.HeaderNext .a (encode (.bqProc ch 0)) rest := ⟨State.nextTurn_of_sched hsched, hph, hin⟩
    have hstep := step_header hnext (decodeOfEncode _)
    rw [(emptyStreams (s.turnOf .a) ch _ _ (by rw [hch]; cases c <;> decide) rfl hs (State.atHeader_turnOf hnext)).1] at hstep
    have hlater : s.sched.tail = later := by rw [hsched]; rfl
    refine ⟨_, run_succ hstep 0, ?_, rfl, rfl, hph, rfl, rfl⟩
    rw [← hlater, chainRun, PerChan.set_get]
    rfl
  | cons w ws =>
    obtain ⟨hstep, hstream⟩ := step_begin hs hph hin hsched rfl (legalCh_index hch) rfl hnopnd (List.cons_ne_nil _ _)
    obtain ⟨t, hrun, ht, hout, hin', hph', herr, hcode⟩ := run_proc hch (List.cons_ne_nil _ _) hstream
    refine ⟨t, (run_succ hstep _).trans hrun, ht.trans ?_, hout.trans ?_, hin', hph', herr, hcode⟩
    · rw [Nat.add_right_comm]; rfl
    · rw [zero_append_ofNat hlen]; rfl

/-! ### `AF.PUSHS` -/

/-- What a sample fed does to the cursor, the index and the counts: it completes `(fill + 1) / BLKLEN` blocks, each of them
pushed or dropped. -/
theorem State.feed_counts (h : s.fill.get c < s.blkLen) (w : W32) : ∃ a b,
    (s.feed c w).2 = { s with
      acc := (s.feed c w).2.acc, fill := s.fill.set c ((s.fill.get c + 1) % s.blkLen), afmem := (s.feed c w).2.afmem
      wptr := s.wptr.set c (s.wptr.get c + Fin.ofNat 60 a) } ∧
    a + b = (s.fill.get c + 1) / s.blkLen ∧
    ∀ q : Seq, (q.count (s.feed c w).1).pushed = q.pushed + a ∧ (q.count (s.feed c w).1).dropped = q.dropped + b := by
  have hzero : s.wptr.set c (s.wptr.get c + Fin.ofNat 60 0) = s.wptr := by
    rw [show (Fin.ofNat 60 0 : RingIdx) = 0 from rfl, add_zero, PerChan.set_get]
  by_cases hp : s.fill.get c + 1 < s.blkLen
  · refine ⟨0, 0, ?_, (Nat.div_eq_of_lt hp).symm, fun q => ?_⟩
    · rw [State.feed_partial w hp, Nat.mod_eq_of_lt hp, hzero]; rfl
    · rw [State.feed_partial w hp]; exact ⟨rfl, rfl⟩
  · have hfull : s.fill.get c + 1 = s.blkLen := by omega
    have hmod : (s.fill.get c + 1) % s.blkLen = 0 := by rw [hfull, Nat.mod_self]
    have hdiv : (s.fill.get c + 1) / s.blkLen = 1 := by rw [hfull, Nat.div_self (by omega)]
    by_cases hocc : s.occA c = cap
    · refine ⟨0, 1, ?_, hdiv.symm, fun q => ?_⟩
      · rw [State.feed_dropped w hp hocc, hmod, hzero]; rfl
      · rw [State.feed_dropped w hp hocc]; exact ⟨rfl, rfl⟩
    · refine ⟨1, 0, ?_, hdiv.symm, fun q => ?_⟩
      · rw [State.feed_pushed w hp hocc, hmod]; rfl
      · rw [State.feed_pushed w hp hocc]; exact ⟨rfl, rfl⟩

/-- A sample's step. -/
theorem step_push (hch : ch.toNat = c.index) (h : s.Streaming (.afPushs ch n) (w :: ws) rest later)
    (hfill : s.fill.get c < s.blkLen) : ∃ acc afmem a b, step s = .next { s with
      acc := acc, fill := s.fill.set c ((s.fill.get c + 1) % s.blkLen), afmem := afmem
      wptr := s.wptr.set c (s.wptr.get c + Fin.ofNat 60 a)
      portA := s.portA.afterSample (ws ++ rest) ws.length (s.portA.seq.pushed + a) (s.portA.seq.dropped + b) n
      cur := .a, sched := s.sched.tail, ticks := s.ticks + 1 } ∧
    a + b = (s.fill.get c + 1) / s.blkLen := by
  obtain ⟨hexec, hop⟩ := h.step_eq
  obtain ⟨a, b, hfeed, hab, hcount⟩ := State.feed_counts (s := s.turnOf .a) hfill w
  obtain ⟨hpushed, hdropped⟩ := hcount s.portA.seq
  refine ⟨((s.turnOf .a).feed c w).2.acc, ((s.turnOf .a).feed c w).2.afmem, a, b, hexec.trans ?_, hab⟩
  rw [exec_afPushs_operand hop, chanOf_index hch, hfeed, State.here_turnOf, State.port_a, hpushed, hdropped]
  rfl

/-- The blocks completed by a sample and by those after it. -/
theorem div_add_div (B f m : Nat) : (f + 1) / B + ((f + 1) % B + m) / B = (f + (m + 1)) / B := by
  obtain rfl | hB := Nat.eq_zero_or_pos B
  · simp
  · have hsplit : f + (m + 1) = B * ((f + 1) / B) + ((f + 1) % B + m) := by have := Nat.div_add_mod (f + 1) B; omega
    rw [hsplit, Nat.mul_add_div hB]

/-- Two advances of a write index. -/
theorem ofNat_add_ofNat (w : RingIdx) (a b : Nat) : w + Fin.ofNat 60 a + Fin.ofNat 60 b = w + Fin.ofNat 60 (a + b) := by
  refine Fin.ext ?_
  simp only [Fin.val_add, Fin.val_ofNat]
  omega

/-- Every sample fed in order, and the response with the two counts after the last. -/
theorem run_push (hch : ch.toNat = c.index) (hne : ws ≠ []) (h : s.Streaming (.afPushs ch n) ws rest later)
    (hfill : s.fill.get c < s.blkLen) : ∃ t a b, core.run ws.length s = .next t ∧
      t = { s with acc := t.acc, fill := s.fill.set c ((s.fill.get c + ws.length) % s.blkLen), afmem := t.afmem
                   wptr := s.wptr.set c (s.wptr.get c + Fin.ofNat 60 a), portA := t.portA, cur := .a, sched := later
                   ticks := s.ticks + ws.length } ∧
      a + b = (s.fill.get c + ws.length) / s.blkLen ∧
      t.portA.output = s.portA.output ++ [(0 : BitVec 16) ++ n,
        BitVec.ofNat 16 (s.portA.seq.dropped + b) ++ BitVec.ofNat 16 (s.portA.seq.pushed + a)] ∧
      t.portA.input = rest ∧ t.portA.seq.phase = .hdr := by
  induction ws generalizing s with
  | nil => exact absurd rfl hne
  | cons w ws ih =>
    obtain ⟨acc, afmem, a, b, hstep, hab⟩ := step_push hch h hfill
    cases ws with
    | nil => exact ⟨_, a, b, run_succ hstep 0, by rw [← h.sched_last]; rfl, hab, rfl, rfl, rfl⟩
    | cons w' ws =>
      obtain ⟨t, a', b', hrun, ht, hab', hout, hin, hph⟩ := ih (List.cons_ne_nil _ _) (h.tail hstep rfl rfl rfl rfl)
        (by rw [PerChan.get_set_self]; exact Nat.mod_lt _ (Nat.zero_lt_of_lt hfill))
      rw [PerChan.get_set_self] at ht hab'
      refine ⟨t, a + a', b + b', (run_succ hstep _).trans hrun, ht.trans ?_, ?_, hout.trans ?_, hin, hph⟩
      · have hticks : s.ticks + (w :: w' :: ws).length = s.ticks + 1 + (w' :: ws).length := by simp; omega
        have hcursor : (s.fill.get c + (w :: w' :: ws).length) % s.blkLen =
            ((s.fill.get c + 1) % s.blkLen + (w' :: ws).length) % s.blkLen := by
          rw [Nat.mod_add_mod, List.length_cons (a := w), Nat.add_right_comm, Nat.add_assoc]
        rw [hticks, hcursor, PerChan.set_set, PerChan.get_set_self, PerChan.set_set, ofNat_add_ofNat]
        rfl
      · have hdiv := div_add_div s.blkLen (s.fill.get c) (w' :: ws).length
        have hab'' : a' + b' = ((s.fill.get c + 1) % s.blkLen + (w' :: ws).length) / s.blkLen := hab'
        rw [List.length_cons]; omega
      · simp [PortState.afterSample, Nat.add_assoc]

/-- Blocks of at least one word completed by `m` words from a cursor in its bound. -/
theorem completed_le {B f m : Nat} (h : f < B) : (f + m) / B ≤ m := by
  refine Nat.le_of_lt_succ ((Nat.div_lt_iff_lt_mul (Nat.zero_lt_of_lt h)).mpr ?_)
  have hm : m ≤ m * B := Nat.le_mul_of_pos_right m (Nat.zero_lt_of_lt h)
  rw [Nat.succ_mul]; omega

/-- The report of two counts that fit their halves. -/
theorem report_eq {a b : Nat} (ha : a < 2 ^ 16) (hb : b < 2 ^ 16) :
    BitVec.ofNat 16 b ++ BitVec.ofNat 16 a = BitVec.ofNat 32 (b * 2 ^ 16 + a) := by
  refine BitVec.eq_of_toNat_eq ?_
  rw [toNat_append_eq_add, BitVec.toNat_ofNat, BitVec.toNat_ofNat, BitVec.toNat_ofNat, Nat.mod_eq_of_lt ha, Nat.mod_eq_of_lt hb]
  omega

/-- Settles O34: as with `BQ.PROC`; the counts fit their halves of the report because a block has at least one word. -/
theorem pushsWhole : Obligations.PushsWhole := by
  unfold Obligations.PushsWhole
  intro s ch c ws rest later hch hlen hs hfill hph hin hsched
  have hnopnd : (BitVec.ofNat 16 ws.length).toNat = ws.length := by rw [BitVec.toNat_ofNat, Nat.mod_eq_of_lt hlen]
  cases ws with
  | nil =>
    have hnext : s.HeaderNext .a (encode (.afPushs ch 0)) rest := ⟨State.nextTurn_of_sched hsched, hph, hin⟩
    have hstep := step_header hnext (decodeOfEncode _)
    rw [(emptyStreams (s.turnOf .a) ch _ _ (by rw [hch]; cases c <;> decide) rfl hs (State.atHeader_turnOf hnext)).2] at hstep
    have hlater : s.sched.tail = later := by rw [hsched]; rfl
    refine ⟨_, 0, 0, run_succ hstep 0, ?_, (Nat.div_eq_of_lt hfill).symm, rfl, rfl, hph⟩
    rw [← hlater, show (Fin.ofNat 60 0 : RingIdx) = 0 from rfl, add_zero, PerChan.set_get,
      show s.fill.get c + ([] : List W32).length = s.fill.get c from rfl, Nat.mod_eq_of_lt hfill, PerChan.set_get]
    rfl
  | cons w ws =>
    obtain ⟨hstep, hstream⟩ := step_begin hs hph hin hsched rfl (legalCh_index hch) rfl hnopnd (List.cons_ne_nil _ _)
    obtain ⟨t, a, b, hrun, ht, hab, hout, hin', hph'⟩ := run_push hch (List.cons_ne_nil _ _) hstream hfill
    have hab' : a + b = (s.fill.get c + (w :: ws).length) / s.blkLen := hab
    have hle : a + b ≤ (w :: ws).length := hab' ▸ completed_le hfill
    refine ⟨t, a, b, (run_succ hstep _).trans hrun, ht.trans ?_, hab, hout.trans ?_, hin', hph'⟩
    · rw [Nat.add_right_comm]; rfl
    · change s.portA.output ++ [(0 : BitVec 16) ++ BitVec.ofNat 16 (w :: ws).length,
        BitVec.ofNat 16 (0 + b) ++ BitVec.ofNat 16 (0 + a)] = _
      rw [zero_append_ofNat hlen, Nat.zero_add, Nat.zero_add, report_eq (by omega) (by omega)]

end

end Sys2Proof.Machine
end

section
/-! The two rings hold their items in order (42_block_fifo.md R170, R183, R184): one ring over a memory of slots, of which the
audio ring and the magnitude ring are instances. -/

namespace Sys2Proof.Machine

/-- The items of a ring, oldest first: its slots are `width` apart from slot `base` on, its items `len` words long. -/
def ringItems (m : Memory) (base width len : Nat) (w r : RingIdx) : List (List W32) :=
  (List.range (ringCount w r)).map fun j => m.readN ((base + (r.val + j) % cap) * width) len

section
variable {m : Memory} {base width len : Nat} {w r : RingIdx} {item : List W32}

theorem State.afItems_eq (s : State) (c : Chan) :
    s.afItems c = ringItems s.afmem (c.index * cap) s.inst.blkMax s.blkLen (s.wptr.get c) (s.rptr.get c) := rfl

theorem State.mfItems_eq (s : State) (c : Chan) :
    s.mfItems c = ringItems s.mfmem (c.index * cap) s.inst.nbins s.inst.nbins (s.mw.get c) (s.mr.get c) := rfl

/-- The slot of the write index comes after those of the items: 30 divides 60 (R170). -/
theorem ringSlot_eq (w r : RingIdx) : ringSlot w = (r.val + ringCount w r) % cap := by
  unfold ringSlot ringCount cap; omega

/-- Different slots have no word in common. -/
theorem readN_writeN_slot {a b : Nat} (hab : a ≠ b) (hlen : item.length ≤ width) (hw : len ≤ width) :
    (m.writeN (a * width) item).readN (b * width) len = m.readN (b * width) len := by
  refine Memory.readN_writeN_outside _ _ _ _ _ ?_
  obtain h | h := Nat.lt_or_gt_of_ne hab
  · have := Nat.mul_le_mul_right width (Nat.succ_le_of_lt h)
    rw [Nat.succ_mul] at this; omega
  · have := Nat.mul_le_mul_right width (Nat.succ_le_of_lt h)
    rw [Nat.succ_mul] at this; omega

/-- A push on a ring with room appends its item (R172). -/
theorem ringItems_push (hm : m.wf = true) (hroom : ringCount w r < cap) (hlen : item.length = len) (hw : len ≤ width) :
    ringItems (m.writeN ((base + ringSlot w) * width) item) base width len (w + 1) r =
      ringItems m base width len w r ++ [item] := by
  unfold ringItems
  rw [ringCount_add_one_left (Nat.lt_trans hroom (by decide)), List.range_succ, List.map_append, List.map_singleton,
    ← ringSlot_eq]
  congr 1
  · refine List.map_congr_left fun j hj => readN_writeN_slot ?_ (hlen ▸ hw) hw
    rw [List.mem_range] at hj
    rw [ringSlot_eq w r]
    unfold cap at *
    omega
  · subst hlen; rw [Memory.readN_writeN_self hm]

/-- A ring that is not empty is its oldest item and the ring after a pull (R173). -/
theorem ringItems_pull (h : ringCount w r ≠ 0) :
    ringItems m base width len w r =
      m.readN ((base + ringSlot r) * width) len :: ringItems m base width len w (r + 1) := by
  have hcount : ringCount w r = ringCount w (r + 1) + 1 := by rw [ringCount_add_one_right h]; omega
  have hslot (j : Nat) : (r.val + (j + 1)) % cap = ((r + 1).val + j) % cap := by unfold cap; omega
  unfold ringItems
  rw [hcount, List.range_succ_eq_map, List.map_cons, List.map_map]
  refine congrArg _ (List.map_congr_left fun j _ => ?_)
  rw [Function.comp, Nat.succ_eq_add_one, hslot]

/-- A write outside a ring's thirty slots leaves its items. -/
theorem ringItems_writeN {a : Nat} (ha : a < base ∨ base + cap ≤ a) (hlen : item.length ≤ width) (hw : len ≤ width) :
    ringItems (m.writeN (a * width) item) base width len w r = ringItems m base width len w r := by
  refine List.map_congr_left fun j _ => readN_writeN_slot ?_ hlen hw
  have hslot : (r.val + j) % cap < cap := Nat.mod_lt _ (by decide)
  omega

/-- The slots of one channel are outside those of the other. -/
theorem slot_of_other {c d : Chan} (h : d ≠ c) (w : RingIdx) :
    c.index * cap + ringSlot w < d.index * cap ∨ d.index * cap + cap ≤ c.index * cap + ringSlot w := by
  have hslot : ringSlot w < cap := Nat.mod_lt _ (by decide)
  cases c <;> cases d
  · exact absurd rfl h
  · exact .inl (by simpa [Chan.index] using hslot)
  · exact .inr (by simp [Chan.index])
  · exact absurd rfl h

end

section
variable {s t : State} {c : Chan} {item : List W32}

/-- A block pushed on a ring with room is its newest item. -/
theorem afItems_push (h : s.afPush c item = some t) (hroom : s.occ c < cap) (hm : s.afmem.wf = true)
    (hs : s.strapOk = true) (hlen : item.length = s.blkLen) :
    t.afItems c = s.afItems c ++ [item] ∧ ∀ d, d ≠ c → t.afItems d = s.afItems d := by
  have hw : s.blkLen ≤ s.inst.blkMax := (State.strapOk_iff.mp hs).2
  obtain ⟨-, rfl⟩ := State.afPush_some h
  refine ⟨?_, fun d hd => ?_⟩
  · simp only [State.afItems_eq, PerChan.get_set_self]
    exact ringItems_push hm hroom hlen hw
  · simp only [State.afItems_eq, PerChan.get_set_ne _ hd]
    exact ringItems_writeN (slot_of_other hd _) (hlen ▸ hw) hw

/-- Settles O40: all four operations on the one ring. -/
theorem ringsAreFifo : Obligations.RingsAreFifo := by
  unfold Obligations.RingsAreFifo
  rintro s t c item ⟨havail, hocc, hcap, hm⟩
  refine ⟨fun h hw hs hlen => ?afPush, fun h => ?afPull, fun h hw hlen => ?mfPush, fun h => ?mfPull⟩
  case afPush =>
    obtain ⟨hfull, -⟩ := State.afPush_some h
    exact afItems_push h (by omega) hw hs hlen
  case afPull =>
    obtain ⟨hne, rfl, rfl⟩ := State.afPull_some h
    refine ⟨?_, fun d hd => ?_⟩
    · simp only [State.afItems_eq, PerChan.get_set_self]
      exact ringItems_pull (show s.occ c ≠ 0 by omega)
    · simp only [State.afItems_eq, PerChan.get_set_ne _ hd]; rfl
  case mfPush =>
    obtain ⟨hfull, rfl⟩ := State.mfPush_some h
    refine ⟨?_, fun d hd => ?_⟩
    · simp only [State.mfItems_eq, PerChan.get_set_self]
      exact ringItems_push hw (show s.mocc c < cap by omega) hlen le_rfl
    · simp only [State.mfItems_eq, PerChan.get_set_ne _ hd]
      exact ringItems_writeN (slot_of_other hd _) hlen.le le_rfl
  case mfPull =>
    obtain ⟨hne, rfl, rfl⟩ := State.mfPull_some h
    refine ⟨?_, fun d hd => ?_⟩
    · simp only [State.mfItems_eq, PerChan.get_set_self]
      exact ringItems_pull hne
    · simp only [State.mfItems_eq, PerChan.get_set_ne _ hd]

/-- Blocks offered to a ring whose count the producer knows: those that find room are appended, and the count stops at 30. -/
theorem afItems_pushAll {items : List (List W32)} (hview : s.occA c = s.occ c) (hcap : s.occ c ≤ cap) (hm : s.afmem.wf = true)
    (hs : s.strapOk = true) (hlen : ∀ item ∈ items, item.length = s.blkLen) :
    (s.pushAll c items).afItems c = s.afItems c ++ items.take (cap - s.occ c) ∧
      (s.pushAll c items).occA c = min cap (s.occ c + items.length) := by
  induction items generalizing s with
  | nil => simp [State.pushAll, hview, hcap]
  | cons item items ih =>
    rw [List.forall_mem_cons] at hlen
    obtain ⟨hitem, hitems⟩ := hlen
    cases hp : s.afPush c item with
    | none =>
      have hfull : s.occ c = cap := hview ▸ State.afPush_none.mp hp
      obtain ⟨h1, h2⟩ := ih hview hcap hm hs hitems
      rw [State.pushAll, List.foldl_cons, hp, Option.getD_none]
      refine ⟨h1.trans (by simp [hfull]), h2.trans (by simp [hfull])⟩
    | some t =>
      obtain ⟨hne, ht⟩ := State.afPush_some hp
      have hroom : s.occ c < cap := by omega
      obtain ⟨happ, -⟩ := afItems_push hp hroom hm hs hitem
      have hocc : t.occ c = s.occ c + 1 := by
        rw [ht, State.occ, PerChan.get_set_self, ringCount_add_one_left (Nat.lt_trans hroom (by decide))]; rfl
      have hroomA : s.occA c < 59 := hview ▸ Nat.lt_trans hroom (by decide)
      have hoccA : t.occA c = s.occA c + 1 := by
        rw [ht, State.occA, PerChan.get_set_self, ringCount_add_one_left hroomA]; rfl
      have hwf : t.afmem.wf = true := by rw [ht]; exact Memory.wf_writeN hm _ _
      have hst : t.strapOk = true := by rw [ht]; exact hs
      obtain ⟨h1, h2⟩ := ih (s := t) (by omega) (by omega) hwf hst (by rw [ht]; exact hitems)
      rw [State.pushAll, List.foldl_cons, hp, Option.getD_some]
      refine ⟨h1.trans ?_, h2.trans ?_⟩
      · rw [happ, hocc, show cap - s.occ c = cap - (s.occ c + 1) + 1 by omega, List.take_succ_cons, List.append_assoc]; rfl
      · rw [hocc, List.length_cons]; omega

/-- Settles O41: from an empty ring. -/
theorem thirtyBlocksFit : Obligations.ThirtyBlocksFit := by
  unfold Obligations.ThirtyBlocksFit
  intro s c items hocc hoccA hm hs hlen
  have hempty : s.afItems c = [] := by rw [State.afItems, hocc]; rfl
  have h := afItems_pushAll (hoccA.trans hocc.symm) (by omega) hm hs hlen
  rwa [hempty, List.nil_append, hocc, Nat.zero_add] at h

end

end Sys2Proof.Machine
end

section
/-! The factory's contract at the settings (40_coefficient_factory.md R122 to R127), and its sets as operands of BQ.CUTUPD
(30_encoding.md R95). -/

namespace Sys2Proof.Machine

open Binary32

section
variable {k : ChainSettings} {rate : W32}

/-- The corners of valid settings are inside (0, Nyquist) as real numbers (R125). -/
theorem freqOk.real {f : W32} (h : freqOk rate f) : (0 : ℝ) < (value f : ℚ) ∧ 2 * ((value f : ℚ) : ℝ) < (value rate : ℚ) := by
  obtain ⟨-, h0, h1⟩ := h
  exact ⟨by exact_mod_cast h0, by exact_mod_cast h1⟩

/-- The words of a list of sections are the rounded numbers of the sections. -/
theorem Factory.rounds_map_words (φ : Factory) (l : List RawSection) :
    List.Forall₂ Coefs.Rounds (l.map φ.words) (l.map RawSection.normalize) := by
  rw [List.forall₂_map_left_iff, List.forall₂_map_right_iff]
  exact List.forall₂_same.mpr fun r _ => φ.rounds_words r

theorem length_flatMap_words (l : List Coefs) : (l.flatMap Coefs.words).length = 5 * l.length := by
  induction l with
  | nil => rfl
  | cons q l ih => rw [List.flatMap_cons, List.length_append, ih, List.length_cons, Nat.mul_succ, Nat.add_comm]; rfl

/-- A slope's sections, five words each, are the operands of `BQ.CUTUPD` with its slope code (R95, R122). -/
theorem nopnd_cutupd (chm stg : BitVec 4) (sl : Slope) (l : List Coefs) (h : l.length = sl.index + 1) :
    (Instr.bqCutupd chm stg sl.code).nopnd = (l.flatMap Coefs.words).length := by
  rw [length_flatMap_words, h]
  cases sl <;> rfl

end

/-- Settles O60: the opaque factory meets its contract at every setting; settings that differ elsewhere only give a stage the
same arguments. -/
theorem factoryFillsCutupd : Obligations.FactoryFillsCutupd := by
  unfold Obligations.FactoryFillsCutupd
  refine ⟨fun k rate hv => ?valid, fun k rate hf => ?fails, fun k k' rate d d' hv hv' hd hd' => ?own⟩
  case valid =>
    obtain ⟨-, -, hlow, hhigh, -⟩ := id hv
    have hlowLen : (Config.factory.lowCutOf k rate).length = k.lowCutSlope.index + 1 := by
      rw [Factory.lowCutOf, Config.factory.lowCut_contract.sections _ _ _ hlow.real.1 hlow.real.2, Slope.order]; omega
    have hhighLen : (Config.factory.highCutOf k rate).length = k.highCutSlope.index + 1 := by
      rw [Factory.highCutOf, Config.factory.highCut_contract.sections _ _ _ hhigh.real.1 hhigh.real.2, Slope.order]; omega
    exact ⟨_, _, _, _, Config.factory.design_valid hv, Config.factory.rounds_words _, Config.factory.rounds_map_words _,
      Config.factory.rounds_map_words _, Config.factory.lowCut_contract.cuts _ _ _ hlow.real.1 hlow.real.2,
      Config.factory.highCut_contract.cuts _ _ _ hhigh.real.1 hhigh.real.2, by rw [List.length_map, hlowLen],
      by rw [List.length_map, hhighLen], nopnd_cutupd 3 0 _ _ (by rw [List.length_map, hlowLen]),
      nopnd_cutupd 3 2 _ _ (by rw [List.length_map, hhighLen])⟩
  case fails =>
    have hnone := Config.factory.design_fails hf
    exact ⟨hnone, by rw [hnone]; rfl⟩
  case own =>
    rw [Config.factory.design_valid hv] at hd
    rw [Config.factory.design_valid hv'] at hd'
    cases hd; cases hd'
    refine ⟨fun h1 h2 h3 => ?_, fun h1 h2 => ?_, fun h1 h2 => ?_⟩
    · simp only [Factory.peakOf, h1, h2, h3]
    · simp only [Factory.lowCutOf, h1, h2]
    · simp only [Factory.highCutOf, h1, h2]

end Sys2Proof.Machine
end

section
/-! The record FP outside rounding (00_scope.md R8): the order of words, NaN operands, infinities, and the free logarithm. -/

namespace Sys2Proof.Machine

open Binary32

section
variable {a b : W32}

/-! ### Words by sign and magnitude -/

/-- The units strictly rise with the magnitude bits. -/
theorem unitsOf_strictMono : StrictMono unitsOf :=
  strictMono_nat_of_lt_succ fun m => by rw [unitsOf_succ]; exact Nat.lt_add_of_pos_right (by positivity)

theorem unitsOf_lt_iff {m n : Nat} : unitsOf m < unitsOf n ↔ m < n := unitsOf_strictMono.lt_iff_lt

/-- The keys order finite words as their values (R8). -/
theorem sunits_lt_iff : sunits a < sunits b ↔ key a < key b := by
  have hlt := unitsOf_lt_iff (m := magBits a) (n := magBits b)
  have hgt := unitsOf_lt_iff (m := magBits b) (n := magBits a)
  have hza := units_eq_zero_iff (a := a)
  have hzb := units_eq_zero_iff (a := b)
  unfold units at hza hzb
  unfold sunits key units
  cases sign a <;> cases sign b <;> simp only [Bool.false_eq_true, if_false, if_true] <;> omega

theorem value_lt_iff : value a < value b ↔ sunits a < sunits b := by
  unfold value
  rw [div_lt_div_iff_of_pos_right (by positivity)]
  exact Int.cast_lt

/-- A word is its sign and its magnitude bits. -/
theorem ofSignMag_sign_magBits (a : W32) : ofSignMag (sign a) (magBits a) = a := by
  refine BitVec.eq_of_toNat_eq ?_
  have hsign : (BitVec.ofBool (sign a)).toNat = a.toNat / 2 ^ 31 := by
    have := a.isLt
    rw [BitVec.toNat_ofBool, sign, BitVec.getLsbD, Nat.testBit_eq_decide_div_mod_eq]
    rcases Nat.lt_or_ge a.toNat (2 ^ 31) with h | h
    · rw [Nat.div_eq_of_lt h]; rfl
    · rw [show a.toNat / 2 ^ 31 = 1 by omega]; rfl
  rw [ofSignMag, toNat_append_eq_add, hsign, BitVec.toNat_ofNat, magBits, BitVec.extractLsb'_toNat]
  omega

@[simp] theorem magBits_fneg (a : W32) : magBits (fneg a) = magBits a := by
  unfold magBits fneg
  congr 1
  ext i hi
  rw [BitVec.getElem_extractLsb', BitVec.getElem_extractLsb', BitVec.getLsbD_xor]
  have hmask : (0x80000000 : W32).getLsbD (0 + i) = false := by
    have : ∀ j < 31, (0x80000000 : W32).getLsbD j = false := by decide
    rw [Nat.zero_add]; exact this i hi
  rw [hmask, Bool.xor_false]

@[simp] theorem sign_fneg (a : W32) : sign (fneg a) = !sign a := by
  unfold sign fneg
  rw [BitVec.getLsbD_xor, show (0x80000000 : W32).getLsbD 31 = true by decide, Bool.xor_true]

@[simp] theorem isNaN_fneg (a : W32) : isNaN (fneg a) = isNaN a := by unfold isNaN expField fracField; rw [magBits_fneg]
@[simp] theorem isInf_fneg (a : W32) : isInf (fneg a) = isInf a := by unfold isInf expField fracField; rw [magBits_fneg]
@[simp] theorem isFinite_fneg (a : W32) : isFinite (fneg a) = isFinite a := by unfold isFinite expField; rw [magBits_fneg]

@[simp] theorem sunits_fneg (a : W32) : sunits (fneg a) = -sunits a := by
  unfold sunits units; rw [magBits_fneg, sign_fneg]; cases sign a <;> simp

@[simp] theorem value_fneg (a : W32) : value (fneg a) = -value a := by
  unfold value; rw [sunits_fneg]; push_cast; ring

/-- A finite word is neither a NaN nor an infinity. -/
theorem not_special_of_isFinite (h : isFinite a = true) : isNaN a = false ∧ isInf a = false := by
  have hlt := isFinite_iff.mp h
  exact ⟨isNaN_eq_false_iff.mpr hlt.le, Bool.eq_false_iff.mpr fun hi => hlt.ne (isInf_iff.mp hi)⟩

theorem not_isNaN_of_isInf (h : isInf a = true) : isNaN a = false := isNaN_eq_false_iff.mpr (isInf_iff.mp h).le

/-! ### The comparison -/

/-- Settles O53: NaNs and infinities by their magnitude bits, finite words by their keys. -/
theorem orderedGreaterThan : Obligations.OrderedGreaterThan := by
  unfold Obligations.OrderedGreaterThan
  refine ⟨fun a b h => ?_, fun a b ha hb => ?_, fun a ha => ⟨?_, fgt_negInf_right ha, fgt_posInf_right a, ?_⟩⟩
  · rw [← Bool.not_eq_true, fgt_iff]
    rintro ⟨hna, hnb, -⟩
    simp [hna, hnb] at h
  · rw [fgt_iff, value_lt_iff, sunits_lt_iff]
    simp [not_special_of_isFinite ha, not_special_of_isFinite hb]
  · have hlt : magBits a ≤ infBits - 1 := Nat.le_sub_one_of_lt (isFinite_iff.mp ha)
    have hle := (key_bounds hlt).2
    have hinf : key 0x7F800000 = infBits := by decide
    have hpos : 0 < infBits := by decide
    exact fgt_iff.mpr ⟨by decide, (not_special_of_isFinite ha).1, by omega⟩
  · exact fgt_asymm (fgt_negInf_right ha)

/-! ### The logarithm -/

/-- Settles O52: what is assumed of the free value, and the value at 1.0 it has by assumption. -/
theorem logarithmProperties : Obligations.LogarithmProperties := by
  unfold Obligations.LogarithmProperties
  have hfn (a : W32) : flog10 a = Config.flog10.fn a := by
    unfold flog10; split
    · rename_i h; rw [h, Config.flog10.one]
    · rfl
  refine ⟨rfl, fun a hf hv => ?_, fun a b hfa hfb hv hle => ?_⟩
  · rw [hfn]; exact ⟨Config.flog10.finite a ⟨hf, hv⟩, Config.flog10.within a ⟨hf, hv⟩⟩
  · rw [hfn, hfn]; exact Config.flog10.mono a b ⟨hfa, hv⟩ ⟨hfb, hv.trans_le hle⟩ hle

/-! ### NaNs and infinities -/

/-- A quiet NaN has ones in its exponent and in the top bit of its fraction. -/
theorem quiet_nanResult (op : FpOp) (a b : W32) : (nanResult op a b).extractLsb' 22 9 = 0x1FF := by
  have hpayload := (BitVec.extractLsb' 0 22 (Config.nanDraw op a b)).isLt
  refine BitVec.eq_of_toNat_eq ?_
  rw [nanResult, quietNaN, BitVec.extractLsb'_toNat, Nat.shiftRight_eq_div_pow]
  simp only [toNat_append_eq_add, BitVec.ofNat_eq_ofNat, BitVec.toNat_ofNat]
  omega

theorem addNum_eq_none_of_nan (h : isNaN a = true ∨ isNaN b = true) : addNum a b = none := by
  unfold addNum; rw [if_pos (by simpa using h)]

theorem mulNum_eq_none_of_nan (h : isNaN a = true ∨ isNaN b = true) : mulNum a b = none := by
  unfold mulNum; simp only []; rw [if_pos (by simpa using h)]

/-- Infinities of unlike signs cancel. -/
theorem addNum_inf_inf (ha : isInf a = true) (hb : isInf b = true) :
    addNum a b = if sign a = sign b then some a else none := by
  simp [addNum, not_isNaN_of_isInf ha, not_isNaN_of_isInf hb, ha, hb]

/-- An infinity absorbs a finite word. -/
theorem addNum_inf_left (ha : isInf a = true) (hb : isFinite b = true) : addNum a b = some a := by
  obtain ⟨hnb, hib⟩ := not_special_of_isFinite hb
  simp [addNum, not_isNaN_of_isInf ha, hnb, ha, hib]

theorem addNum_inf_right (ha : isFinite a = true) (hb : isInf b = true) : addNum a b = some b := by
  obtain ⟨hna, hia⟩ := not_special_of_isFinite ha
  simp [addNum, not_isNaN_of_isInf hb, hna, hb, hia]

/-- Sum and product do not depend on the order, where they are numbers. -/
theorem mulNum_comm (a b : W32) : mulNum a b = mulNum b a := by
  unfold mulNum
  rw [Bool.or_comm (isNaN a), Bool.or_comm (isInf a), Bool.or_comm (decide (units a = 0)), Nat.mul_comm, bne_comm (a := sign a)]

theorem mulNum_inf_left (ha : isInf a = true) (hb : isNaN b = false) :
    mulNum a b = if units b = 0 then none else some (inf (sign a != sign b)) := by
  have hua : units a ≠ 0 := fun h => absurd ((isInf_iff.mp ha).symm.trans (units_eq_zero_iff.mp h)) (by decide)
  simp [mulNum, not_isNaN_of_isInf ha, hb, ha, hua]

/-- An operation that is invalid gives a quiet NaN. -/
theorem quiet_of_none {op : FpOp} {o : Option W32} (h : o = none) :
    (o.getD (nanResult op a b)).extractLsb' 22 9 = 0x1FF := by
  rw [h, Option.getD_none, quiet_nanResult]

theorem sqrtNum_eq_none (h : isNaN a = true ∨ (sign a = true ∧ a ≠ 0x80000000)) : sqrtNum a = none := by
  unfold sqrtNum
  rcases h with h | ⟨hs, hne⟩
  · rw [if_pos h]
  · have hm : magBits a ≠ 0 := fun h0 => hne (by rw [← ofSignMag_sign_magBits a, hs, h0]; rfl)
    rw [if_neg hm, if_pos hs, ite_self]

/-- The sign of an infinity and the sign of a word, multiplied. -/
theorem inf_bne (s s' : Bool) : inf (s != s') = if s = s' then 0x7F800000 else 0xFF800000 := by
  cases s <;> cases s' <;> decide

/-- Settles O51: the cases of the three operations, operand by operand. -/
theorem invalidGivesQuietNaN : Obligations.InvalidGivesQuietNaN := by
  unfold Obligations.InvalidGivesQuietNaN
  intro quiet
  refine ⟨fun a b h => ⟨?_, ?_, ?_⟩, fun a h => ?_, ?_, ?_, ?_, ?_, fun a b ha hu => ?zero, fun a b ha hb => ?finite,
    fun a b ha hb => ⟨fun hs => ?_, fun hs => ?_⟩, fun a b ha hb hu => ?_, ?root⟩
  · exact quiet_of_none (addNum_eq_none_of_nan h)
  · exact quiet_of_none (addNum_eq_none_of_nan (by rwa [isNaN_fneg]))
  · exact quiet_of_none (mulNum_eq_none_of_nan h)
  · exact quiet_of_none (sqrtNum_eq_none h)
  · exact quiet_of_none (addNum_inf_inf (by decide) (by decide))
  · exact quiet_of_none (addNum_inf_inf (by decide) (by decide))
  · exact quiet_of_none (addNum_inf_inf (by decide) (by decide))
  · exact quiet_of_none (addNum_inf_inf (by decide) (by decide))
  case zero =>
    have hnb : isNaN b = false := isNaN_eq_false_iff.mpr ((units_eq_zero_iff.mp hu).trans_le (Nat.zero_le _))
    have hnone : mulNum a b = none := by rw [mulNum_inf_left ha hnb, if_pos hu]
    exact ⟨quiet_of_none hnone, quiet_of_none (mulNum_comm a b ▸ hnone)⟩
  case root => rw [fsqrt, show sqrtNum 0x7F800000 = some 0x7F800000 by decide]; rfl
  case finite =>
    obtain ⟨hnb, hib⟩ := not_special_of_isFinite hb
    refine ⟨?_, ?_, ?_, ?_⟩
    · rw [fadd, addNum_inf_left ha hb]; rfl
    · rw [fadd, addNum_inf_right hb ha]; rfl
    · rw [fsub, addNum_inf_left ha (by rwa [isFinite_fneg])]; rfl
    · rw [fsub, addNum_inf_right hb (by rwa [isInf_fneg])]; rfl
  · rw [fadd, addNum_inf_inf ha hb, if_pos hs]; rfl
  · rw [fsub, addNum_inf_inf ha (by rwa [isInf_fneg]), if_pos (by rw [sign_fneg, Bool.eq_not]; exact hs)]; rfl
  · have hmul : mulNum a b = some (inf (sign a != sign b)) := by rw [mulNum_inf_left ha hb, if_neg hu]
    refine ⟨?_, ?_⟩
    · rw [fmul, hmul, ← inf_bne]; rfl
    · rw [fmul, fmul, mulNum_comm b a, hmul, Option.getD_some, Option.getD_some]

end

end Sys2Proof.Machine
end

section
/-! Rounding (00_scope.md R8): a magnitude lies between the midpoints of its word and the two neighbours, the even word taking
the midpoints. `RoundsTo` is that, and `roundBits` gives it. Magnitudes are counted in units of 2^-149. -/

namespace Sys2Proof.Machine

open Binary32

/-- A magnitude `V` lies between the midpoint of the words `m - 1` and `m` and that of `m` and `m + 1`, and strictly if `m` is
odd; the numbering goes on beyond the infinity. -/
structure Between (V : ℝ) (m : Nat) : Prop where
  lower : ∀ j, j + 1 = m → (unitsOf j : ℝ) + unitsOf m ≤ 2 * V ∧ (m % 2 = 1 → (unitsOf j : ℝ) + unitsOf m < 2 * V)
  upper : 2 * V ≤ (unitsOf m : ℝ) + unitsOf (m + 1) ∧ (m % 2 = 1 → 2 * V < (unitsOf m : ℝ) + unitsOf (m + 1))

/-- A number with a sign. -/
def signed (s : Bool) (x : ℝ) : ℝ := if s then -x else x

section
variable {V : ℝ} {m k : Nat} {s : Bool}

theorem unitsOf_mono_real {i j : Nat} (h : i ≤ j) : (unitsOf i : ℝ) ≤ unitsOf j := by
  exact_mod_cast unitsOf_strictMono.monotone h

theorem unitsOf_lt_real {i j : Nat} (h : i < j) : (unitsOf i : ℝ) < unitsOf j := by
  exact_mod_cast unitsOf_strictMono h

/-- A magnitude between the midpoints is nearest to its word, and if another word is as near then its word is even. -/
theorem Between.nearest (h : Between V m) (k : Nat) :
    |(unitsOf m : ℝ) - V| < |(unitsOf k : ℝ) - V| ∨
      (|(unitsOf m : ℝ) - V| = |(unitsOf k : ℝ) - V| ∧ ((unitsOf k : ℝ) = unitsOf m ∨ m % 2 = 0)) := by
  suffices hnear : k ≠ m → |(unitsOf m : ℝ) - V| ≤ |(unitsOf k : ℝ) - V| ∧
      (m % 2 = 1 → |(unitsOf m : ℝ) - V| < |(unitsOf k : ℝ) - V|) by
    by_cases hk : k = m
    · subst hk; exact .inr ⟨rfl, .inl rfl⟩
    · obtain ⟨hle, hodd⟩ := hnear hk
      rcases Nat.mod_two_eq_zero_or_one m with he | ho
      · exact (lt_or_eq_of_le hle).imp_right fun heq => ⟨heq, .inr he⟩
      · exact .inl (hodd ho)
  intro hne
  rcases Nat.lt_or_gt_of_ne hne with hk | hk
  · obtain ⟨j, rfl⟩ : ∃ j, m = j + 1 := ⟨m - 1, by omega⟩
    obtain ⟨hle, hodd⟩ := h.lower j rfl
    have hkj := unitsOf_mono_real (Nat.le_of_lt_succ hk)
    have hj := unitsOf_lt_real (Nat.lt_succ_self j)
    rw [abs_sub_comm (unitsOf k : ℝ) V, abs_of_nonneg (a := V - unitsOf k) (by linarith)]
    exact ⟨abs_le.mpr ⟨by linarith, by linarith⟩, fun ho => abs_lt.mpr ⟨by linarith, by linarith [hodd ho]⟩⟩
  · obtain ⟨hle, hodd⟩ := h.upper
    have hkm := unitsOf_mono_real (Nat.succ_le_of_lt hk)
    have hm := unitsOf_lt_real (Nat.lt_succ_self m)
    rw [abs_of_nonneg (a := (unitsOf k : ℝ) - V) (by linarith)]
    exact ⟨abs_le.mpr ⟨by linarith, by linarith⟩, fun ho => abs_lt.mpr ⟨by linarith [hodd ho], by linarith⟩⟩

/-- So with words of the other sign: they are no nearer than zero. -/
theorem Between.nearest_signed (h : Between V m) (hV : 0 ≤ V) (s : Bool) (k : Nat) :
    |(unitsOf m : ℝ) - V| < |signed s (unitsOf k) - V| ∨
      (|(unitsOf m : ℝ) - V| = |signed s (unitsOf k) - V| ∧ (signed s (unitsOf k) = unitsOf m ∨ m % 2 = 0)) := by
  have hzero : (unitsOf 0 : ℝ) = 0 := by rw [unitsOf_zero, Nat.cast_zero]
  cases s with
  | false => exact h.nearest k
  | true =>
    have hk : (0 : ℝ) ≤ unitsOf k := Nat.cast_nonneg _
    have habs : |signed true (unitsOf k) - V| = unitsOf k + V := by
      rw [signed, if_pos rfl, abs_of_nonpos (by linarith)]; ring
    have habs0 : |(unitsOf 0 : ℝ) - V| = V := by rw [hzero, zero_sub, abs_neg, abs_of_nonneg hV]
    have h0 := h.nearest 0
    rw [habs0] at h0
    rcases hk.eq_or_lt with hk0 | hkpos
    · rw [habs, ← hk0, zero_add, signed, if_pos rfl, neg_zero, ← hzero]; exact h0
    · refine .inl (habs ▸ ?_)
      rcases h0 with h0 | ⟨h0, -⟩ <;> linarith

theorem signed_mul_signed (s t : Bool) (x : ℝ) : signed s (signed t x) = signed (s != t) x := by
  cases s <;> cases t <;> simp [signed]

theorem abs_signed (s : Bool) (x : ℝ) : |signed s x| = |x| := by cases s <;> simp [signed]

theorem signed_sub (s : Bool) (x y : ℝ) : signed s x - signed s y = signed s (x - y) := by
  cases s <;> simp [signed]; ring

/-- The value of a word in units. -/
theorem value_eq_signed (a : W32) : ((value a : ℚ) : ℝ) = signed (sign a) (units a) / 2 ^ 149 := by
  rw [value_eq, Nat.cast_pow, Nat.cast_ofNat]
  unfold sunits signed
  cases sign a <;> simp only [Bool.false_eq_true, if_true, if_false, Int.cast_neg, Int.cast_natCast]

theorem infBits_lt : infBits < 2 ^ 31 := by decide

/-- The bound of the finite range is the midpoint of the largest finite number and the next. -/
theorem overflow_iff : V / 2 ^ 149 < 2 ^ 128 - 2 ^ 103 ↔ 2 * V < (unitsOf maxMag : ℝ) + unitsOf infBits := by
  have hmax : unitsOf maxMag = (2 ^ 24 - 1) * 2 ^ 253 := by decide +kernel
  have hinf : unitsOf infBits = 2 ^ 24 * 2 ^ 253 := by decide +kernel
  have hsum : (unitsOf maxMag : ℝ) + unitsOf infBits = 2 * ((2 ^ 128 - 2 ^ 103) * 2 ^ 149) := by
    rw [hmax, hinf]; norm_num
  rw [div_lt_iff₀ (by positivity), hsum, mul_lt_mul_iff_right₀ (by norm_num)]

/-- Inside the finite range a magnitude between midpoints belongs to a finite word. -/
theorem Between.le_maxMag (h : Between V m) (hV : 2 * V < (unitsOf maxMag : ℝ) + unitsOf infBits) : m ≤ maxMag := by
  by_contra hgt
  obtain ⟨j, rfl⟩ : ∃ j, m = j + 1 := ⟨m - 1, by omega⟩
  have h1 := unitsOf_mono_real (show maxMag ≤ j by omega)
  have h2 := unitsOf_mono_real (show infBits ≤ j + 1 by unfold maxMag at hgt; omega)
  linarith [(h.lower j rfl).1]

/-- Beyond it, to none: the largest finite word is odd, so the midpoint is not its own. -/
theorem Between.maxMag_lt (h : Between V m) (hV : (unitsOf maxMag : ℝ) + unitsOf infBits ≤ 2 * V) : infBits ≤ m := by
  by_contra hlt
  have h2 := unitsOf_mono_real (show m + 1 ≤ infBits by omega)
  have hle : m ≤ maxMag := by unfold maxMag; omega
  rcases hle.eq_or_lt with rfl | hm
  · linarith [h.upper.2 (by decide)]
  · linarith [h.upper.1, unitsOf_lt_real hm]

/-- A signed magnitude between the midpoints of a word rounds to it; beyond the finite range, to the infinity. -/
theorem Between.roundsTo (h : Between V m) (hV : 0 ≤ V) (s : Bool) :
    RoundsTo (signed s V / 2 ^ 149) (ofSignMag s (min m infBits)) := by
  have habs : |signed s V / 2 ^ 149| = V / 2 ^ 149 := by
    rw [abs_div, abs_signed, abs_of_nonneg hV, abs_of_pos (by positivity)]
  unfold RoundsTo
  rw [habs]
  split
  · rename_i hlt
    have hm := h.le_maxMag (overflow_iff.mp hlt)
    have hfin : m < infBits := Nat.lt_of_le_of_lt hm (by decide)
    have hbits : magBits (ofSignMag s m) = m := magBits_ofSignMag s m (hfin.trans infBits_lt)
    rw [min_eq_left hfin.le]
    refine ⟨isFinite_iff.mpr (by rwa [hbits]), fun w _ => ?_⟩
    have hr : ((value (ofSignMag s m) : ℚ) : ℝ) = signed s (unitsOf m) / 2 ^ 149 := by
      rw [value_eq_signed, sign_ofSignMag, units, hbits]
    have hdist (x : ℝ) : |x / 2 ^ 149 - signed s V / 2 ^ 149| = |signed s x - V| / 2 ^ 149 := by
      rw [← sub_div, abs_div, abs_of_pos (a := (2 : ℝ) ^ 149) (by positivity), ← abs_signed s, ← signed_sub, signed_mul_signed,
        bne_self_eq_false]
      rfl
    have hself (x : ℝ) : signed s (signed s x) = x := by rw [signed_mul_signed, bne_self_eq_false]; rfl
    rw [value_eq_signed w, hr, hdist, hdist, hself, signed_mul_signed, hbits,
      div_lt_div_iff_of_pos_right (by positivity), div_left_inj' (by positivity)]
    refine (h.nearest_signed hV (s != sign w) (magBits w)).imp_right fun ⟨hd, he⟩ => ⟨hd, he.imp_left fun heq => ?_⟩
    have hw : ((value w : ℚ) : ℝ) = (value (ofSignMag s m) : ℚ) := by
      rw [value_eq_signed w, hr, ← heq, signed_mul_signed, ← Bool.bne_assoc, bne_self_eq_false, Bool.false_bne]; rfl
    exact_mod_cast hw
  · rename_i hge
    rw [min_eq_right (h.maxMag_lt (not_lt.mp fun hlt => hge (overflow_iff.mpr hlt)))]
    have hpos : (0 : ℝ) ≤ V / 2 ^ 149 := by positivity
    cases s
    · exact ⟨fun _ => rfl, fun hneg => absurd hneg (not_lt.mpr hpos)⟩
    · refine ⟨fun h0 => absurd h0 (not_lt.mpr ?_), fun _ => rfl⟩
      rw [signed, if_pos rfl, neg_div]; linarith

/-! ### The rounding of a fraction -/

/-- `V` a fraction with a power of two below: the midpoints in whole numbers. -/
theorem between_of_nat {n : Nat}
    (lower : ∀ j, j + 1 = m → (unitsOf j + unitsOf m) * 2 ^ k ≤ 2 * n ∧ (m % 2 = 1 → (unitsOf j + unitsOf m) * 2 ^ k < 2 * n))
    (upper : 2 * n ≤ (unitsOf m + unitsOf (m + 1)) * 2 ^ k ∧ (m % 2 = 1 → 2 * n < (unitsOf m + unitsOf (m + 1)) * 2 ^ k)) :
    Between (n / 2 ^ k) m where
  lower j hj := by
    obtain ⟨hle, hodd⟩ := lower j hj
    rw [← mul_div_assoc, le_div_iff₀ (by positivity), lt_div_iff₀ (by positivity)]
    exact ⟨by exact_mod_cast hle, fun ho => by exact_mod_cast hodd ho⟩
  upper := by
    obtain ⟨hle, hodd⟩ := upper
    rw [← mul_div_assoc, div_le_iff₀ (by positivity), div_lt_iff₀ (by positivity)]
    exact ⟨by exact_mod_cast hle, fun ho => by exact_mod_cast hodd ho⟩

/-- `roundShift n d` is between the midpoints of the multiples of `2^d`, strictly if it is odd. -/
theorem roundShift_bounds (n d : Nat) :
    let q := roundShift n d
    2 * q * 2 ^ d ≤ 2 * n + 2 ^ d ∧ 2 * n ≤ 2 * q * 2 ^ d + 2 ^ d ∧
      (q % 2 = 1 → 2 * q * 2 ^ d < 2 * n + 2 ^ d ∧ 2 * n < 2 * q * 2 ^ d + 2 ^ d) := by
  have hdiv := Nat.div_add_mod n (2 ^ d)
  have hlt := Nat.mod_lt n (show 0 < 2 ^ d by positivity)
  unfold roundShift
  generalize n / 2 ^ d = q at *
  generalize n % 2 ^ d = r at *
  generalize 2 ^ d = D at *
  have hup : 2 * (q + 1) * D = 2 * (D * q) + 2 * D := by ring
  have hdown : 2 * q * D = 2 * (D * q) := by ring
  simp only []
  split
  · rw [hup]; generalize D * q = p at *; omega
  · rw [hdown]; generalize D * q = p at *; omega

/-- The units of a significand `q` of at most 24 bits at exponent `e`, the bits normal unless `e` is 0. -/
theorem unitsOf_scaled {e q : Nat} (h : e = 0 ∨ 2 ^ 23 ≤ q) (hq : q ≤ 2 ^ 24) : unitsOf (e * 2 ^ 23 + q) = q * 2 ^ e := by
  have key (e q : Nat) (h : e = 0 ∨ 2 ^ 23 ≤ q) (hq : q < 2 ^ 24) : unitsOf (e * 2 ^ 23 + q) = q * 2 ^ e := by
    unfold unitsOf ulpExp
    rcases Nat.lt_or_ge q (2 ^ 23) with hlt | hge
    · obtain rfl : e = 0 := by omega
      rw [Nat.zero_mul, Nat.zero_add, Nat.div_eq_of_lt hlt, if_pos rfl, Nat.mod_eq_of_lt hlt, pow_zero, Nat.mul_one]
    · rw [if_neg (by omega), show (e * 2 ^ 23 + q) / 2 ^ 23 - 1 = e by omega,
        show 2 ^ 23 + (e * 2 ^ 23 + q) % 2 ^ 23 = q by omega]
  rcases hq.eq_or_lt with rfl | hlt
  · rw [show e * 2 ^ 23 + 2 ^ 24 = (e + 1) * 2 ^ 23 + 2 ^ 23 by omega, key (e + 1) (2 ^ 23) (.inr le_rfl) (by decide), pow_succ]
    ring
  · exact key e q h hlt

theorem le_roundShift (n d : Nat) : n / 2 ^ d ≤ roundShift n d := by unfold roundShift; simp only []; split <;> omega

theorem roundShift_le (n d : Nat) : roundShift n d ≤ n / 2 ^ d + 1 := by unfold roundShift; simp only []; split <;> omega

/-- The significand that `roundBits` keeps has at most 24 bits, and all of them where places are dropped beyond `k`. -/
theorem roundShift_range (n k : Nat) :
    let d := max (n.log2 - 23) k
    roundShift n d ≤ 2 ^ 24 ∧ (d = k ∨ (2 ^ 23 ≤ roundShift n d ∧ 2 ^ 23 * 2 ^ d ≤ n)) := by
  intro d
  have hd : n.log2 ≤ d + 23 := by omega
  have hlt : n < 2 ^ 24 * 2 ^ d := by
    rw [← pow_add]
    exact Nat.lt_log2_self.trans_le (Nat.pow_le_pow_right (by decide) (by omega))
  refine ⟨(roundShift_le n d).trans (Nat.div_lt_of_lt_mul (Nat.mul_comm _ _ ▸ hlt)), ?_⟩
  by_cases hk : d = k
  · exact .inl hk
  · have hn : n ≠ 0 := by rintro rfl; exact hk (by simp [d])
    have hge : 2 ^ 23 * 2 ^ d ≤ n := by
      rw [← pow_add]
      exact (Nat.pow_le_pow_right (by decide) (by omega)).trans (Nat.log2_self_le hn)
    exact .inr ⟨((Nat.le_div_iff_mul_le (by positivity)).mpr hge).trans (le_roundShift n d), hge⟩

/-- `roundBits` before an infinity takes the place of what is too large. -/
def roundMag (n k : Nat) : Nat :=
  (max (n.log2 - 23) k - k) * 2 ^ 23 + roundShift n (max (n.log2 - 23) k)

theorem roundBits_eq (n k : Nat) : roundBits n k = min (roundMag n k) infBits := rfl

/-- A significand that is nearest to `n / 2^(k + e)` makes bits that `n / 2^k` lies between the midpoints of. -/
theorem between_of_significand {n q e : Nat} (hq : q ≤ 2 ^ 24) (hnormal : e = 0 ∨ (2 ^ 23 ≤ q ∧ 2 ^ 23 * 2 ^ (k + e) ≤ n))
    (hlo : 2 * q * 2 ^ (k + e) ≤ 2 * n + 2 ^ (k + e)) (hhi : 2 * n ≤ 2 * q * 2 ^ (k + e) + 2 ^ (k + e))
    (hodd : q % 2 = 1 → 2 * q * 2 ^ (k + e) < 2 * n + 2 ^ (k + e) ∧ 2 * n < 2 * q * 2 ^ (k + e) + 2 ^ (k + e)) :
    Between (n / 2 ^ k) (e * 2 ^ 23 + q) := by
  have hu : unitsOf (e * 2 ^ 23 + q) = q * 2 ^ e := unitsOf_scaled (hnormal.imp_right And.left) hq
  have hparity : (e * 2 ^ 23 + q) % 2 = q % 2 := by omega
  refine between_of_nat (fun j hj => ?_) ?_
  · have hsucc : unitsOf j + 2 ^ ulpExp j = q * 2 ^ e := by rw [← unitsOf_succ, hj, hu]
    rw [hu, hparity]
    by_cases hulp : e ≤ ulpExp j
    · have hle : 2 ^ e ≤ 2 ^ ulpExp j := Nat.pow_le_pow_right (by decide) hulp
      have hmid : (unitsOf j + q * 2 ^ e) * 2 ^ k + 2 ^ (k + e) ≤ 2 * q * 2 ^ (k + e) := by
        calc (unitsOf j + q * 2 ^ e) * 2 ^ k + 2 ^ (k + e) = (unitsOf j + q * 2 ^ e + 2 ^ e) * 2 ^ k := by rw [pow_add]; ring
          _ ≤ (2 * (q * 2 ^ e)) * 2 ^ k := Nat.mul_le_mul_right _ (by omega)
          _ = 2 * q * 2 ^ (k + e) := by rw [pow_add]; ring
      exact ⟨by omega, fun ho => by have := (hodd ho).1; omega⟩
    · have hleast : q = 2 ^ 23 ∧ 2 ^ 23 * 2 ^ (k + e) ≤ n := by unfold ulpExp at hulp; omega
      obtain ⟨rfl, hn⟩ := hleast
      have hpos : 0 < 2 ^ ulpExp j := by positivity
      have hlt : (unitsOf j + 2 ^ 23 * 2 ^ e) * 2 ^ k < 2 * n :=
        calc (unitsOf j + 2 ^ 23 * 2 ^ e) * 2 ^ k < (2 * (2 ^ 23 * 2 ^ e)) * 2 ^ k :=
              Nat.mul_lt_mul_of_pos_right (by omega) (by positivity)
          _ = 2 * (2 ^ 23 * 2 ^ (k + e)) := by rw [pow_add]; ring
          _ ≤ 2 * n := by omega
      exact ⟨hlt.le, fun _ => hlt⟩
  · have hulp : 2 ^ e ≤ 2 ^ ulpExp (e * 2 ^ 23 + q) := Nat.pow_le_pow_right (by decide) (by unfold ulpExp; omega)
    have hmid : 2 * q * 2 ^ (k + e) + 2 ^ (k + e) ≤ (q * 2 ^ e + (q * 2 ^ e + 2 ^ ulpExp (e * 2 ^ 23 + q))) * 2 ^ k := by
      calc 2 * q * 2 ^ (k + e) + 2 ^ (k + e) = (q * 2 ^ e + (q * 2 ^ e + 2 ^ e)) * 2 ^ k := by rw [pow_add]; ring
        _ ≤ _ := Nat.mul_le_mul_right _ (by omega)
    rw [unitsOf_succ, hu, hparity]
    exact ⟨hhi.trans hmid, fun ho => (hodd ho).2.trans_le hmid⟩

/-- A rounded fraction lies between the midpoints of its bits. -/
theorem between_roundMag (n k : Nat) : Between (n / 2 ^ k) (roundMag n k) := by
  obtain ⟨hle, hnormal⟩ := roundShift_range n k
  obtain ⟨hlo, hhi, hodd⟩ := roundShift_bounds n (max (n.log2 - 23) k)
  obtain ⟨e, he⟩ : ∃ e, max (n.log2 - 23) k = k + e := ⟨_, (Nat.add_sub_of_le (le_max_right _ _)).symm⟩
  rw [roundMag, he, Nat.add_sub_cancel_left]
  rw [he] at hle hnormal hlo hhi hodd
  exact between_of_significand hle (hnormal.imp_left (by omega)) hlo hhi hodd

/-- The rounded word is the number rounded (R8). -/
theorem roundsTo_roundWord (s : Bool) (n k : Nat) : RoundsTo (signed s (n / 2 ^ k) / 2 ^ 149) (roundWord s n k) := by
  rw [roundWord, roundBits_eq]
  exact (between_roundMag n k).roundsTo (by positivity) s

/-- A word's own value rounds to it. -/
theorem roundsTo_value {r : W32} (h : isFinite r = true) : RoundsTo ((value r : ℚ) : ℝ) r := by
  have hbetween : Between (units r) (magBits r) := by
    refine ⟨fun j hj => ?_, ?_⟩
    · have hlt := unitsOf_lt_real (show j < magBits r by omega)
      rw [units]; exact ⟨by linarith, fun _ => by linarith⟩
    · have hlt := unitsOf_lt_real (Nat.lt_succ_self (magBits r))
      rw [units]; exact ⟨by linarith, fun _ => by linarith⟩
  have hround := hbetween.roundsTo (Nat.cast_nonneg _) (sign r)
  rwa [min_eq_left (isFinite_iff.mp h).le, ofSignMag_sign_magBits, ← value_eq_signed] at hround

end

end Sys2Proof.Machine
end

section
/-! Sums, differences, products and roots are rounded once (00_scope.md R8). -/

namespace Sys2Proof.Machine

open Binary32

section
variable {a b : W32}

@[simp] theorem value_zero (s : Bool) : value (zero s) = 0 := by
  have hu : sunits (zero s) = 0 := by
    unfold sunits units; rw [magBits_zero, unitsOf_zero]; simp
  rw [value, hu]; simp

/-- Zero rounds to a zero of either sign. -/
theorem roundsTo_zero (s : Bool) : RoundsTo 0 (zero s) := by
  have h := roundsTo_value (r := zero s) (isFinite_iff.mpr (by rw [magBits_zero]; decide))
  rwa [value_zero, Rat.cast_zero] at h

/-! ### Sums and differences -/

/-- A whole number of units, rounded. -/
theorem roundsTo_int (v : Int) : RoundsTo ((v : ℝ) / 2 ^ 149) (roundWord (decide (v < 0)) v.natAbs 0) := by
  have h := roundsTo_roundWord (decide (v < 0)) v.natAbs 0
  have hv : signed (decide (v < 0)) ((v.natAbs : ℝ) / 2 ^ 0) = v := by
    rw [pow_zero, div_one, Nat.cast_natAbs, signed]
    rcases lt_or_ge v 0 with hneg | hpos
    · rw [if_pos (decide_eq_true hneg), abs_of_neg hneg]; push_cast; ring
    · rw [if_neg (by simpa using hpos), abs_of_nonneg hpos]
  rwa [hv] at h

theorem value_add_value (a b : W32) : ((value a + value b : ℚ) : ℝ) = ((sunits a + sunits b : Int) : ℝ) / 2 ^ 149 := by
  rw [Rat.cast_add, value_eq, value_eq]; push_cast; ring

theorem value_add_eq_zero_iff : value a + value b = 0 ↔ sunits a + sunits b = 0 := by
  unfold value
  rw [← add_div, div_eq_zero_iff, ← Int.cast_add, Int.cast_eq_zero]
  exact or_iff_left (by norm_num)

/-- The sum of finite words: rounded once, and an exact zero with the sign that both have. -/
theorem addNum_finite (ha : isFinite a = true) (hb : isFinite b = true) : ∃ r, addNum a b = some r ∧
    RoundsTo ((value a + value b : ℚ) : ℝ) r ∧ (value a + value b = 0 → r = zero (sign a && sign b)) := by
  obtain ⟨hna, hia⟩ := not_special_of_isFinite ha
  obtain ⟨hnb, hib⟩ := not_special_of_isFinite hb
  rw [value_add_value, value_add_eq_zero_iff]
  by_cases hv : sunits a + sunits b = 0
  · refine ⟨_, by simp [addNum, hna, hnb, hia, hib, hv], ?_, fun _ => rfl⟩
    rw [hv, Int.cast_zero, zero_div]; exact roundsTo_zero _
  · exact ⟨_, by simp [addNum, hna, hnb, hia, hib, hv], roundsTo_int _, fun h => absurd h hv⟩

/-- The zero of a sum. -/
theorem zero_and (s t : Bool) : zero (s && t) = if s = true ∧ t = true then 0x80000000 else 0x00000000 := by
  cases s <;> cases t <;> decide

/-- Settles O48: a difference is the sum with the second operand's sign inverted. -/
theorem sumsRoundOnce : Obligations.SumsRoundOnce := by
  unfold Obligations.SumsRoundOnce
  intro a b ha hb
  obtain ⟨r, hr, hround, hzero⟩ := addNum_finite ha hb
  obtain ⟨r', hr', hround', hzero'⟩ := addNum_finite ha (b := fneg b) (by rwa [isFinite_fneg])
  have hadd : fadd a b = r := by rw [fadd, hr, Option.getD_some]
  have hsub : fsub a b = r' := by rw [fsub, hr', Option.getD_some]
  rw [value_fneg, ← sub_eq_add_neg] at hround' hzero'
  rw [hadd, hsub]
  refine ⟨hround, hround', fun h => by rw [hzero h, zero_and], fun h => ?_⟩
  simp only [hzero' h, zero_and, sign_fneg, Bool.not_eq_true']

/-! ### Products -/

theorem value_mul_value (a b : W32) : ((value a * value b : ℚ) : ℝ) =
    signed (sign a != sign b) (((units a * units b : Nat) : ℝ) / 2 ^ 149) / 2 ^ 149 := by
  rw [Rat.cast_mul, value_eq_signed, value_eq_signed]
  cases sign a <;> cases sign b <;> simp [signed] <;> ring

/-- The product of finite words: rounded once. -/
theorem mulNum_finite (ha : isFinite a = true) (hb : isFinite b = true) :
    ∃ r, mulNum a b = some r ∧ RoundsTo ((value a * value b : ℚ) : ℝ) r := by
  obtain ⟨hna, hia⟩ := not_special_of_isFinite ha
  obtain ⟨hnb, hib⟩ := not_special_of_isFinite hb
  rw [value_mul_value]
  by_cases hv : units a * units b = 0
  · refine ⟨zero (sign a != sign b), by simp only [mulNum, hna, hnb, hia, hib, hv]; rfl, ?_⟩
    rw [hv, Nat.cast_zero, zero_div, signed, neg_zero, ite_self, zero_div]; exact roundsTo_zero _
  · exact ⟨_, by simp only [mulNum, hna, hnb, hia, hib, if_neg hv]; rfl, roundsTo_roundWord _ _ _⟩

/-- Settles O49. -/
theorem productsRoundOnce : Obligations.ProductsRoundOnce := by
  unfold Obligations.ProductsRoundOnce
  intro a b ha hb
  obtain ⟨r, hr, hround⟩ := mulNum_finite ha hb
  have hmul : fmul a b = r := by rw [fmul, hr, Option.getD_some]
  rw [hmul]
  exact ⟨hround, sign_of_mulNum hr⟩

/-! ### Roots -/

/-- A digit at a time the loop closes in on the root. -/
theorem isqrtLoop_spec {n k r : Nat} (hlo : r * r ≤ n) (hhi : n < (r + 2 ^ k) * (r + 2 ^ k)) :
    isqrtLoop n k r * isqrtLoop n k r ≤ n ∧ n < (isqrtLoop n k r + 1) * (isqrtLoop n k r + 1) := by
  induction k generalizing r with
  | zero => exact ⟨hlo, hhi⟩
  | succ k ih =>
    unfold isqrtLoop
    rw [pow_succ, Nat.mul_two, ← Nat.add_assoc] at hhi
    split
    · rename_i h; exact ih h hhi
    · rename_i h; exact ih hlo (not_le.mp h)

/-- The integer square root of a number in its range. -/
theorem isqrt_spec {n k : Nat} (h : n < 2 ^ k * 2 ^ k) : isqrt k n * isqrt k n ≤ n ∧ n < (isqrt k n + 1) * (isqrt k n + 1) :=
  isqrtLoop_spec (Nat.zero_le _) (by rwa [Nat.zero_add])

/-- The units of a finite word. -/
theorem units_lt (ha : isFinite a = true) : units a < 2 ^ 24 * 2 ^ 253 := by
  have h := unitsOf_strictMono (isFinite_iff.mp ha)
  rwa [show unitsOf infBits = 2 ^ 24 * 2 ^ 253 by decide +kernel] at h

/-- Twice the midpoint of two words is even, or small. -/
theorem midpoint_even_or_small (j : Nat) : (unitsOf j + unitsOf (j + 1)) % 2 = 0 ∨ unitsOf j + unitsOf (j + 1) ≤ 2 ^ 25 := by
  rw [unitsOf_succ]
  cases hulp : ulpExp j with
  | zero =>
    have hj : unitsOf j < unitsOf (0 * 2 ^ 23 + 2 ^ 24) := unitsOf_strictMono (by unfold ulpExp at hulp; omega)
    rw [unitsOf_scaled (.inl rfl) le_rfl] at hj
    exact .inr (by omega)
  | succ e => exact .inl (by rw [pow_succ]; omega)

/-- A number strictly between `r` and `r + 1` lies between the same midpoints as `r + 1/2`: none that is not small is there. -/
theorem Between.of_sticky {r m : Nat} {x : ℝ} (h : Between (((2 * r + 1 : Nat) : ℝ) / 2 ^ 1) m) (hr : 2 ^ 25 ≤ r)
    (hlo : (r : ℝ) < x) (hhi : x < r + 1) : Between x m := by
  have htwice : 2 * (((2 * r + 1 : Nat) : ℝ) / 2 ^ 1) = ((2 * r + 1 : Nat) : ℝ) := by ring
  have below {j : Nat} (hj : (unitsOf j : ℝ) + unitsOf (j + 1) ≤ 2 * (((2 * r + 1 : Nat) : ℝ) / 2 ^ 1)) :
      (unitsOf j : ℝ) + unitsOf (j + 1) < 2 * x := by
    have hnat : unitsOf j + unitsOf (j + 1) ≤ 2 * r + 1 := by rw [htwice] at hj; exact_mod_cast hj
    have hle : unitsOf j + unitsOf (j + 1) ≤ 2 * r := by have := midpoint_even_or_small j; omega
    have hreal : (unitsOf j : ℝ) + unitsOf (j + 1) ≤ 2 * r := by exact_mod_cast hle
    linarith
  have above {j : Nat} (hj : 2 * (((2 * r + 1 : Nat) : ℝ) / 2 ^ 1) ≤ (unitsOf j : ℝ) + unitsOf (j + 1)) :
      2 * x < (unitsOf j : ℝ) + unitsOf (j + 1) := by
    have hnat : 2 * r + 1 ≤ unitsOf j + unitsOf (j + 1) := by rw [htwice] at hj; exact_mod_cast hj
    have hge : 2 * r + 2 ≤ unitsOf j + unitsOf (j + 1) := by have := midpoint_even_or_small j; omega
    have hreal : 2 * (r : ℝ) + 2 ≤ (unitsOf j : ℝ) + unitsOf (j + 1) := by exact_mod_cast hge
    linarith
  refine ⟨?_, (above h.upper.1).le, fun _ => above h.upper.1⟩
  rintro j rfl
  exact ⟨(below (h.lower j rfl).1).le, fun _ => below (h.lower j rfl).1⟩

/-- The root of a positive finite word, in units: the root of a whole number. -/
theorem sqrt_value (h : sign a = false) :
    Real.sqrt ((value a : ℚ) : ℝ) = signed false (Real.sqrt ((units a * 2 ^ 149 : Nat) : ℝ)) / 2 ^ 149 := by
  rw [value_eq_signed, h, signed, signed, if_neg (by decide), if_neg (by decide),
    show (units a : ℝ) / 2 ^ 149 = ((units a * 2 ^ 149 : Nat) : ℝ) / (2 ^ 149) ^ 2 by
      rw [Nat.cast_mul, Nat.cast_pow, Nat.cast_ofNat]; field_simp,
    Real.sqrt_div (Nat.cast_nonneg _), Real.sqrt_sq (by positivity)]

/-- The integer root with a sticky bit below it rounds as the root does. -/
theorem roundsTo_isqrt {N r : Nat} (hN : 2 ^ 50 ≤ N) (hlo : r * r ≤ N) (hhi : N < (r + 1) * (r + 1)) :
    RoundsTo (signed false (Real.sqrt N) / 2 ^ 149) (roundWord false (2 * r + if r * r = N then 0 else 1) 1) := by
  by_cases hsq : r * r = N
  · rw [if_pos hsq, Nat.add_zero, ← hsq, Nat.cast_mul, Real.sqrt_mul_self (Nat.cast_nonneg r)]
    have hround := roundsTo_roundWord false (2 * r) 1
    rwa [show ((2 * r : Nat) : ℝ) / 2 ^ 1 = r by push_cast; ring] at hround
  · have hr : 2 ^ 25 ≤ r := by
      by_contra hsmall
      have hle : (r + 1) * (r + 1) ≤ 2 ^ 25 * 2 ^ 25 := Nat.mul_le_mul (by omega) (by omega)
      omega
    have hbelow : (r : ℝ) < Real.sqrt N := by
      rw [Real.lt_sqrt (Nat.cast_nonneg r), sq]; exact_mod_cast lt_of_le_of_ne hlo hsq
    have habove : Real.sqrt N < r + 1 := by
      rw [Real.sqrt_lt' (by positivity), sq]; exact_mod_cast hhi
    rw [if_neg hsq, roundWord, roundBits_eq]
    exact ((between_roundMag (2 * r + 1) 1).of_sticky hr hbelow habove).roundsTo (Real.sqrt_nonneg _) false

/-- The rounded root of a positive finite word. -/
theorem roundsTo_root (ha : isFinite a = true) (hs : sign a = false) (h0 : magBits a ≠ 0) :
    RoundsTo (Real.sqrt ((value a : ℚ) : ℝ)) (fsqrt a) := by
  obtain ⟨hna, hia⟩ := not_special_of_isFinite ha
  have hsqrt : fsqrt a = roundWord false
      (2 * isqrt 214 (units a * 2 ^ 149) +
        if isqrt 214 (units a * 2 ^ 149) * isqrt 214 (units a * 2 ^ 149) = units a * 2 ^ 149 then 0 else 1) 1 := by
    rw [fsqrt, sqrtNum, hna, if_neg (by decide), if_neg h0, hs, if_neg (by decide), hia, if_neg (by decide)]
    rfl
  have hunits : 1 ≤ units a := Nat.one_le_iff_ne_zero.mpr fun h => h0 (units_eq_zero_iff.mp h)
  have hlt := units_lt ha
  have hspec : isqrt 214 (units a * 2 ^ 149) * isqrt 214 (units a * 2 ^ 149) ≤ units a * 2 ^ 149 ∧ units a * 2 ^ 149 <
      (isqrt 214 (units a * 2 ^ 149) + 1) * (isqrt 214 (units a * 2 ^ 149) + 1) := isqrt_spec (by omega)
  rw [hsqrt, sqrt_value hs]
  exact roundsTo_isqrt ((by omega : 2 ^ 50 ≤ 2 ^ 149).trans (Nat.le_mul_of_pos_left _ hunits)) hspec.1 hspec.2

/-- Settles O50: the integer root and the sticky bit. -/
theorem rootsRoundOnce : Obligations.RootsRoundOnce := by
  unfold Obligations.RootsRoundOnce
  intro a ha hs
  refine ⟨?_, fun h => by rw [h]; decide, fun h => by rw [h]; decide⟩
  by_cases h0 : magBits a = 0
  · have hsqrt : fsqrt a = a := by rw [fsqrt, sqrtNum, (not_special_of_isFinite ha).1, if_neg (by decide), if_pos h0]; rfl
    have hval : value a = 0 := by rw [← ofSignMag_sign_magBits a, h0]; exact value_zero _
    rw [hsqrt, hval, Rat.cast_zero, Real.sqrt_zero]
    have hself := roundsTo_value ha
    rwa [hval, Rat.cast_zero] at hself
  · refine roundsTo_root ha (hs.resolve_right fun h => h0 (by rw [h]; decide)) h0

end

end Sys2Proof.Machine
end

section
/-! The twiddle table for N = 8 (43_fft_magnitude.md R214): the exact entries, and those at odd multiples of a quarter of pi. -/

namespace Sys2Proof.Machine

open Binary32

theorem signed_div (s : Bool) (x y : ℝ) : signed s x / y = signed s (x / y) := by
  cases s
  · rfl
  · exact neg_div y x

/-- The magnitude bits of the word nearest to the root of one half. -/
def halfRootBits : Nat := 0x3F3504F3

/-- The root of one half lies between the midpoints of its word. -/
theorem between_halfRoot : Between (Real.sqrt 2 / 2 * 2 ^ 149) halfRootBits := by
  have hbelow : unitsOf (halfRootBits - 1) = 11863282 * 2 ^ 125 := by decide +kernel
  have hself : unitsOf halfRootBits = 11863283 * 2 ^ 125 := by decide +kernel
  have habove : unitsOf (halfRootBits + 1) = 11863284 * 2 ^ 125 := by decide +kernel
  have hlo : (23726565 : ℝ) / 2 ^ 24 < Real.sqrt 2 := by rw [Real.lt_sqrt (by positivity)]; norm_num
  have hhi : Real.sqrt 2 < (23726567 : ℝ) / 2 ^ 24 := by rw [Real.sqrt_lt' (by positivity)]; norm_num
  have hlower : (unitsOf (halfRootBits - 1) : ℝ) + unitsOf halfRootBits < 2 * (Real.sqrt 2 / 2 * 2 ^ 149) := by
    rw [hbelow, hself]; push_cast; linarith
  have hupper : 2 * (Real.sqrt 2 / 2 * 2 ^ 149) < (unitsOf halfRootBits : ℝ) + unitsOf (halfRootBits + 1) := by
    rw [hself, habove]; push_cast; linarith
  refine ⟨fun j hj => ?_, hupper.le, fun _ => hupper⟩
  obtain rfl : j = halfRootBits - 1 := by omega
  exact ⟨hlower.le, fun _ => hlower⟩

theorem roundsTo_halfRoot (s : Bool) : RoundsTo (signed s (Real.sqrt 2 / 2)) (ofSignMag s halfRootBits) := by
  have hround := between_halfRoot.roundsTo (by positivity) s
  rwa [min_eq_left (by decide), signed_div, mul_div_cancel_right₀ _ (by positivity)] at hround

/-- One is exact. -/
theorem roundsTo_one (s : Bool) : RoundsTo (signed s 1) (ofSignMag s 0x3F800000) := by
  have hval : ((value (ofSignMag s 0x3F800000) : ℚ) : ℝ) = signed s 1 := by
    have hunits : units (ofSignMag s 0x3F800000) = 2 ^ 149 := by cases s <;> decide +kernel
    rw [value_eq_signed, sign_ofSignMag, hunits, Nat.cast_pow, Nat.cast_ofNat, signed_div, div_self (by positivity)]
  rw [← hval]
  exact roundsTo_value (by cases s <;> decide)

/-! ### The table -/

section
variable {x : ℝ} {k : Nat} {w : Cplx}

/-- An entry of the table for N = 8 at its angle. -/
theorem roundsTo_twiddle (hx : 2 * Real.pi * k / 8 = x) (hw : twiddle 3 k = w) (hre : RoundsTo (Real.cos x) w.re)
    (him : RoundsTo (-Real.sin x) w.im) : RoundsTo (Real.cos (2 * Real.pi * k / 8)) (twiddle 3 k).re ∧
      RoundsTo (-Real.sin (2 * Real.pi * k / 8)) (twiddle 3 k).im := by
  rw [hx, hw]; exact ⟨hre, him⟩

end

theorem twiddle_zero (p : Nat) : twiddle p 0 = { re := 0x3F800000, im := 0x00000000 } := rfl

theorem twiddle_quarter (p : Nat) : twiddle (p + 2) (2 ^ p) = { re := 0x00000000, im := 0xBF800000 } := by
  have hpos : 2 ^ p ≠ 0 := by positivity
  have hquarter : 4 * 2 ^ p = 2 ^ (p + 2) := by rw [pow_add]; ring
  rw [twiddle, if_neg hpos, if_pos hquarter]

theorem twiddle_eighth : twiddle 3 1 = { re := 0x3F3504F3, im := 0xBF3504F3 } := by decide +kernel
theorem twiddle_three_eighths : twiddle 3 3 = { re := 0xBF3504F3, im := 0xBF3504F3 } := by decide +kernel

/-- Settles O45: the four angles are multiples of a quarter of pi, whose sines and cosines are exact or the root of one half. -/
theorem twiddleTable : Obligations.TwiddleTable := by
  unfold Obligations.TwiddleTable
  refine ⟨twiddle_zero, twiddle_quarter, twiddle_eighth, twiddle_three_eighths, fun k => ?_⟩
  have hhalf : RoundsTo (Real.sqrt 2 / 2) 0x3F3504F3 := by
    rw [show (0x3F3504F3 : W32) = ofSignMag false halfRootBits by decide]; exact roundsTo_halfRoot false
  have hhalf' : RoundsTo (-(Real.sqrt 2 / 2)) 0xBF3504F3 := by
    rw [show (0xBF3504F3 : W32) = ofSignMag true halfRootBits by decide]; exact roundsTo_halfRoot true
  have hone : RoundsTo 1 0x3F800000 := by
    rw [show (0x3F800000 : W32) = ofSignMag false 0x3F800000 by decide]; exact roundsTo_one false
  have hone' : RoundsTo (-1) 0xBF800000 := by
    rw [show (0xBF800000 : W32) = ofSignMag true 0x3F800000 by decide]; exact roundsTo_one true
  have hzero : RoundsTo 0 0x00000000 := by rw [show (0x00000000 : W32) = zero false by decide]; exact roundsTo_zero false
  fin_cases k
  · exact roundsTo_twiddle (k := 0) (x := 0) (by ring) (twiddle_zero 3) (by rwa [Real.cos_zero])
      (by rwa [Real.sin_zero, neg_zero])
  · exact roundsTo_twiddle (k := 1) (x := Real.pi / 4) (by push_cast; ring) twiddle_eighth
      (by rwa [Real.cos_pi_div_four]) (by rwa [Real.sin_pi_div_four])
  · exact roundsTo_twiddle (k := 2) (x := Real.pi / 2) (by push_cast; ring) (twiddle_quarter 1)
      (by rwa [Real.cos_pi_div_two]) (by rwa [Real.sin_pi_div_two])
  · exact roundsTo_twiddle (k := 3) (x := Real.pi - Real.pi / 4) (by push_cast; ring) twiddle_three_eighths
      (by rwa [Real.cos_pi_sub, Real.cos_pi_div_four]) (by rwa [Real.sin_pi_sub, Real.sin_pi_div_four])

end Sys2Proof.Machine
end
